-- ==== Sys2Proof/Word.lean ====
section
/-! DEFINITION. The bit patterns the hardware treats as bits: bytes, 16-bit header fields, 4-bit pixels, the
4-byte planar row and the RGB triplet. Counts, cursors and addresses are naturals (log 5), so they have no type here. -/

namespace Sys2Proof

/-- One element of the spaces `IN`, `DB` and `PALIN` (20_memory.md R60). -/
abbrev Byte := BitVec 8

/-- A 16-bit header field (30_encoding.md R91). -/
abbrev Half := BitVec 16

/-- Format `PX`: a 4-bit palette index (30_encoding.md R97). -/
abbrev Pixel := BitVec 4

/-- Format `ROW4`: four plane bytes, plane 0 at the lowest address (30_encoding.md R96). -/
structure Row where
  plane0 : Byte
  plane1 : Byte
  plane2 : Byte
  plane3 : Byte
  deriving DecidableEq, Repr

/-- Format `RGB`: an expanded colour, channels in the order R, G, B (30_encoding.md R99). -/
structure Rgb where
  red : Byte
  green : Byte
  blue : Byte
  deriving DecidableEq, Repr

end Sys2Proof
end

