-- ==== Sys2Proof/Syntax.lean ====
section
/-! DEFINITION. The operations of spec/opcode_table.json, one constructor each, the formats their bits stand in,
the reasons a decoder rejects bytes, and the host's commands and read ports. -/

namespace Sys2Proof

/-- The output selection `MODE` (00_scope.md R10). -/
inductive Mode where
  | rawOnly
  | raster
  deriving DecidableEq, Repr

/-- The four fields of format `H`, in their order (30_encoding.md R91). -/
structure Header where
  magic : Half
  dupOff : Half
  artOff : Half
  rowCount : Half
  deriving DecidableEq, Repr

/-- The 13 operations. An operation whose row of the table has bits carries them decoded as operands (log 19);
the others are selected by `PHASE` and the counters and carry what the host gives with them. -/
inductive Instr where
  /-- START, the host command with its inputs `MODE` and `WIDTH` (40 R120). -/
  | start (mode : Mode) (width : Nat)
  /-- RESET, the host command (70 R260). -/
  | reset
  /-- HDR, the header's four fields (40 R121). -/
  | hdr (h : Header)
  /-- CTRL, the control byte of a tile (41 R141). -/
  | ctrl (c : Byte)
  /-- RAW, a raw row: no encoded operand (41 R143). -/
  | raw
  /-- DUP1, a duplicated row with a one-byte index (41 R145). -/
  | dup1 (index : Byte)
  /-- DUP2, a duplicated row with a two-byte index (41 R146). -/
  | dup2 (index : BitVec 12)
  /-- FIN, the end of decompression (41 R150). -/
  | fin
  /-- P2C, the planar row to convert (42 R181). -/
  | p2c (row : Row)
  /-- GRIDCHK, the layout check (43 R191). -/
  | gridchk
  /-- PLACE, one tile into the grid (43 R192). -/
  | place
  /-- AFIN, the end of assembly (43 R195). -/
  | afin
  /-- PALX, entry `k` of the palette and its byte (44 R211). -/
  | palx (k : Nat) (b : Byte)
  deriving DecidableEq, Repr

/-- Where the bits of an operation stand, which is what tells the decoder how to read them (30_encoding.md R90, R100). -/
inductive Format where
  /-- `H`, at `IN[0]`. -/
  | header
  /-- `CB`, at `IN[BS_CUR]`. -/
  | control
  /-- A row's control bit, and for bit 1 the index bytes `IX1` or `IX2` at `IN[DUP_CUR]`. -/
  | row (bit : Bool)
  /-- `ROW4`, at `DB[4*P2C_IDX]`. -/
  | planar
  /-- `PB`, at `PALIN[k]`. -/
  | palette (k : Nat)
  deriving DecidableEq, Repr

/-- Why a decoder rejects bytes: they end before the format does. No byte value is rejected (30_encoding.md R103). -/
inductive Reject where
  | truncatedHeader
  | truncatedControl
  | truncatedIndex
  | truncatedIndex2
  | truncatedRow
  | truncatedPalette
  deriving DecidableEq, Repr

/-- A command the host issues (70 R264) or a request to the companion unit for entry `k` (44 R211, R213). -/
inductive Command where
  | start (mode : Mode) (width : Nat)
  | reset
  | palx (k : Nat)
  deriving DecidableEq, Repr

/-- The named read ports of the host interface (10_state.md R42, 70 R264). The companion has none: its output is the
memory `PALOUT` (20 R65). -/
inductive HostPort where
  | phase
  | busy
  | done
  | faulted
  | errCode
  | errCause
  | errAddr
  | dupOff
  | artOff
  | rowCount
  | rawCnt
  | dupCnt
  | extent
  | height
  | dbByte (a : Nat)
  | gridPixel (a : Nat)
  deriving DecidableEq, Repr

end Sys2Proof
end

