-- ==== Sys2Proof/Decode.lean ====
section
/-! DEFINITION. The decoder, total on any bytes and rejecting by name, and after it the encoder, both written from
the formats of 30_encoding.md. Which format applies is told by where the bytes stand (R100), never by the bytes alone. -/

namespace Sys2Proof

/-- `le16`: a 16-bit value from the byte at the lower address and the byte at the higher one (00_scope.md R14, 20_memory.md R67). -/
def le16 (b0 b1 : Byte) : Half := b1 ++ b0

/-- The 12-bit index of the two-byte form, high part first (20_memory.md R68, 30_encoding.md R95). -/
def index12 (b0 b1 : Byte) : BitVec 12 := b0.setWidth 4 ++ b1

/-- Format `H` (30_encoding.md R91). -/
def decodeHeader : List Byte → Except Reject (Header × List Byte)
  | m0 :: m1 :: d0 :: d1 :: a0 :: a1 :: r0 :: r1 :: rest =>
    .ok (⟨le16 m0 m1, le16 d0 d1, le16 a0 a1, le16 r0 r1⟩, rest)
  | _ => .error .truncatedHeader

/-- Formats `IX1` and `IX2`: the first byte alone tells the length (30_encoding.md R93, R94, R101). -/
def decodeIndex : List Byte → Except Reject (Instr × List Byte)
  | [] => .error .truncatedIndex
  | b0 :: rest =>
    if b0 < 0xF0#8 then .ok (.dup1 b0, rest)
    else match rest with
      | [] => .error .truncatedIndex2
      | b1 :: rest' => .ok (.dup2 (index12 b0 b1), rest')

/-- The decoder: one operation and the bytes after it, or a named rejection. -/
def decode (f : Format) (bs : List Byte) : Except Reject (Instr × List Byte) :=
  match f with
  | .header =>
    match decodeHeader bs with
    | .ok (h, rest) => .ok (.hdr h, rest)
    | .error r => .error r
  | .control =>
    match bs with
    | c :: rest => .ok (.ctrl c, rest)
    | [] => .error .truncatedControl
  | .row false => .ok (.raw, bs)
  | .row true => decodeIndex bs
  | .planar =>
    match bs with
    | p :: q :: r :: t :: rest => .ok (.p2c ⟨p, q, r, t⟩, rest)
    | _ => .error .truncatedRow
  | .palette k =>
    match bs with
    | b :: rest => .ok (.palx k b, rest)
    | [] => .error .truncatedPalette

/-- The low and the high byte of a 16-bit field, low address first (20_memory.md R67). -/
def halfBytes (h : Half) : List Byte := [h.extractLsb' 0 8, h.extractLsb' 8 8]

/-- The encoder: the format an operation's bits stand in and its bytes in address order; `none` for the six
operations that decode no bits (30_encoding.md R108). -/
def encode : Instr → Option (Format × List Byte)
  | .hdr h => some (.header, halfBytes h.magic ++ halfBytes h.dupOff ++ halfBytes h.artOff ++ halfBytes h.rowCount)
  | .ctrl c => some (.control, [c])
  | .raw => some (.row false, [])
  | .dup1 index => some (.row true, [index])
  | .dup2 index => some (.row true, [0xF#4 ++ index.extractLsb' 8 4, index.extractLsb' 0 8])
  | .p2c row => some (.planar, [row.plane0, row.plane1, row.plane2, row.plane3])
  | .palx k b => some (.palette k, [b])
  | .start _ _ => none
  | .reset => none
  | .fin => none
  | .gridchk => none
  | .place => none
  | .afin => none

/-- The first `n` bytes of a number whose bit 0 is the least significant bit of the first byte. -/
def wordBytes : Nat → Nat → List Byte
  | 0, _ => []
  | n + 1, w => BitVec.ofNat 8 w :: wordBytes n (w / 256)

/-- The format whose bits a word of the opcode table's width can be read in without the machine's phase: 64 bits
are a header, 25 to 63 bits a planar row, 1 to 24 bits an index (log 22). A row of no bits has none. -/
def tableFormat (nbits : Nat) : Option Format :=
  if nbits = 0 then none
  else if nbits ≤ 24 then some (.row true)
  else if nbits < 64 then some .planar
  else some .header

/-- The operation the decoder reads from a word of `nbits` bits, every bit above them 0 (log 22). -/
def decodeTableWord (nbits w : Nat) : Option Instr :=
  match tableFormat nbits with
  | none => none
  | some f =>
    match decode f (wordBytes 8 (w % 2 ^ nbits)) with
    | .ok (i, _) => some i
    | .error _ => none

end Sys2Proof
end

