-- ==== Sys2Proof/Config.lean ====
section
/-! DEFINITION. What an implementation fixes and what the spec leaves open. The opaque constants have no body:
nothing in Lean can evaluate one or prove a value of it, so a theorem about them holds for every value. -/

namespace Sys2Proof.Config

/-- `ADDR_W`, the width of every cursor and address (00_scope.md R8, spec decision D5). -/
def addrW : Nat := 19

/-- `MAGIC` of the machine at reset: OPEN, never given a value (00_scope.md R6, log 2). -/
opaque magic : Half

/-- What an element of `DB` that no step has written yet holds: unspecified (10_state.md R45, log 9). -/
opaque unwrittenByte : Nat → Byte

/-- What an element of `PXS` that no step has written yet holds: unspecified (10_state.md R45, log 9). -/
opaque unwrittenPixel : Nat → Pixel

/-- What a host read of a port outside the phase where it is meaningful returns, for the `n`-th such read:
unspecified (10_state.md R42, R47; 93 U3, U6; log 11). -/
opaque unspecifiedRead : HostPort → Nat → Nat

/-- `PAL_SUBRANGE`: which entry of a palette of `n + 1` entries a pixel value selects. OPEN, left to the host
(44_palette_expander.md R214, log 14). -/
opaque palSubrange : (n : Nat) → Pixel → Fin (n + 1)

end Sys2Proof.Config
end

