-- ==== Sys2Proof/Machine/State.lean ====
section
/-! DEFINITION. The machine's state as plain data: the registers of 10_state.md R20, the memories of 20_memory.md R60,
and the parameters and host inputs a step reads (log 1). Then why a step can stop, and the state after reset. -/

namespace Sys2Proof.Machine

/-- `PHASE` (10_state.md R27). -/
inductive Phase where
  | idle
  | decode
  | convert
  | assemble
  | done
  | fault
  deriving DecidableEq, Repr

/-- `ERR_CODE` (60_exceptions.md R224). -/
inductive ErrCode where
  | none
  | formatError
  | decodeError
  | layoutError
  deriving DecidableEq, Repr

/-- `ERR_CAUSE` (60_exceptions.md R221 to R224). -/
inductive ErrCause where
  | none
  | badMagic
  | boundsHeader
  | boundsCtrl
  | boundsRawRow
  | boundsIndex
  | boundsIndex2
  | boundsDupRow
  | partialTile
  | badWidth
  | tilesNotDivisible
  deriving DecidableEq, Repr

/-- A memory of `size` elements, addresses `0 .. size-1`. `cells` lists elements with strictly rising addresses. -/
structure Buffer (α : Type) where
  size : Nat
  cells : List (Nat × α)
  deriving DecidableEq, Repr

/-- A memory of length 0. -/
def Buffer.empty {α : Type} : Buffer α := ⟨0, []⟩

/-- The whole machine. Each field names its register or memory; `win`, `magic`, `palIn` and `pending` are the
parameters and inputs that the step reads (log 1, log 3). -/
structure State where
  /-- `IN` and its size `W` (20_memory.md R61). Only the host presents it. -/
  win : Buffer Byte
  /-- `MAGIC` (00_scope.md R6). -/
  magic : Half
  /-- The host commands issued and not yet taken, oldest first (log 3). -/
  pending : List Command
  /-- `DUP_OFF` (R21). -/
  dupOff : Half
  /-- `ART_OFF` (R22). -/
  artOff : Half
  /-- `ROW_COUNT` (R23). -/
  rowCount : Half
  /-- `BS_CUR` (R25). -/
  bsCur : Nat
  /-- `ART_CUR` (R26). -/
  artCur : Nat
  /-- `DUP_CUR` (R28). -/
  dupCur : Nat
  /-- `CTRL` (R29). -/
  ctrl : Byte
  /-- `ROW_IDX` (R30). -/
  rowIdx : Nat
  /-- `ROW[0..3]` (R32). -/
  row : Row
  /-- `RAW_CNT` (R33). -/
  rawCnt : Nat
  /-- `DUP_CNT` (R34). -/
  dupCnt : Nat
  /-- `EXTENT` (R35). -/
  extent : Nat
  /-- `MODE_REG` (R36). -/
  modeReg : Mode
  /-- `WIDTH_REG` (R36). -/
  widthReg : Nat
  /-- `PHASE` (R27). -/
  phase : Phase
  /-- `ERR_CODE` (R37). -/
  errCode : ErrCode
  /-- `ERR_CAUSE` (R37). -/
  errCause : ErrCause
  /-- `ERR_ADDR` (R37). -/
  errAddr : Nat
  /-- `P2C_IDX` (R38). -/
  p2cIdx : Nat
  /-- `TILES_PER_ROW` (R39). -/
  tilesPerRow : Nat
  /-- `HEIGHT` (R39). -/
  height : Nat
  /-- `PLACE_IDX` (R39). -/
  placeIdx : Nat
  /-- `DB` (20_memory.md R62). -/
  db : Buffer Byte
  /-- `PXS` (20_memory.md R63). -/
  pxs : Buffer Pixel
  /-- `GRID` (20_memory.md R64). -/
  grid : Buffer Pixel
  /-- `PALIN` and its size `PAL_LEN` (20_memory.md R65). Only the host presents it. -/
  palIn : Buffer Byte
  /-- `PALOUT` (20_memory.md R65). -/
  palOut : Buffer Rgb
  deriving DecidableEq, Repr

/-- Why the model itself stops. No fault of the hardware is here: those are next states (60_exceptions.md R228). -/
inductive Fault where
  /-- Raised by the step in a busy phase whose counter has run past its end, where no step of the spec is enabled
  (70 R274 says no run reaches it). Safe: it stops where nothing is stated (log 8). -/
  | noStepEnabled
  /-- Raised by PLACE when `TILES_PER_ROW` is 0, where its two divisions have no value; GRIDCHK never leaves it 0
  (43 R191). Safe: it stops where nothing is stated (log 21). -/
  | zeroTilesPerRow
  /-- Raised by PALX for an entry `k` at or beyond `PAL_LEN`, an address `PALIN` and `PALOUT` do not have
  (20_memory.md R60, R65). Safe: the access does not exist (log 13). -/
  | paletteAddress
  deriving DecidableEq, Repr

/-- Why the model gives a move no transition. -/
inductive Refusal where
  /-- Raised by exec for an instruction without a meaning. None is left. Safe. -/
  | notModelled (mnemonic : String)
  /-- Raised by a meaning asked to run in a phase or at a counter where the spec does not enable it; the step never
  asks so (00_scope.md R11, 60 R230). Safe: it stops where the hardware has no transition (log 7). -/
  | notEnabled (mnemonic : String)
  /-- Raised by the host's presenting of a window during a run, a duty broken (70 R264, R265; 93 U4). Safe: the spec
  asks a model to give such a host move no transition (log 25). -/
  | hostDuty
  deriving DecidableEq, Repr

/-- The registers and memories after RESET (10_state.md R45). What R45 does not name (the parameters, the host's
inputs, the companion's memories) is absent: no window, no palette, no command (log 6), `MAGIC` open (log 2). -/
def State.reset : State where
  win := .empty
  magic := Config.magic
  pending := []
  dupOff := 0
  artOff := 0
  rowCount := 0
  bsCur := 0
  artCur := 0
  dupCur := 0
  ctrl := 0
  rowIdx := 0
  row := ⟨0, 0, 0, 0⟩
  rawCnt := 0
  dupCnt := 0
  extent := 0
  modeReg := .rawOnly
  widthReg := 0
  phase := .idle
  errCode := .none
  errCause := .none
  errAddr := 0
  p2cIdx := 0
  tilesPerRow := 0
  height := 0
  placeIdx := 0
  db := .empty
  pxs := .empty
  grid := .empty
  palIn := .empty
  palOut := .empty

end Sys2Proof.Machine
end

