-- ==== Sys2Proof/Machine/Ops.lean ====
section
/-! DEFINITION. The named operations over memories and registers, and fault entry, the one way an exception is taken. -/

namespace Sys2Proof.Machine

/-! ### Cells: a memory's elements in canonical form -/

/-- The canonical form: addresses strictly rising. -/
abbrev CellsSorted {α : Type} (m : List (Nat × α)) : Prop := m.Pairwise (fun p q => p.1 < q.1)

/-- The element listed at an address, if one is. -/
def cellGet {α : Type} : List (Nat × α) → Nat → Option α
  | [], _ => none
  | (b, v) :: m, a => if a = b then some v else cellGet m a

/-- List `v` at address `a`, in its place in the order. -/
def cellPut {α : Type} : List (Nat × α) → Nat → α → List (Nat × α)
  | [], a, v => [(a, v)]
  | (b, u) :: m, a, v =>
    if a < b then (a, v) :: (b, u) :: m
    else if a = b then (a, v) :: m
    else (b, u) :: cellPut m a v

/-- List nothing at address `a`. -/
def cellDel {α : Type} : List (Nat × α) → Nat → List (Nat × α)
  | [], _ => []
  | (b, u) :: m, a => if a = b then m else (b, u) :: cellDel m a

/-- `MemWrite` of the elements `ws`, each with its address, in order (00_scope.md R14). -/
def bufPutAll {α : Type} (b : Buffer α) : List (Nat × α) → Buffer α
  | [] => b
  | (a, v) :: ws => bufPutAll { b with cells := cellPut b.cells a v } ws

/-! ### The host's byte regions, `IN` and `PALIN`

Every address below the size holds a byte the host gave. A byte that is 0 is not listed, so that equal regions are
equal data (log 10). -/

/-- What an unlisted address of `IN` or `PALIN` holds. -/
def unlistedByte : Byte := 0#8

/-- The byte of a host region at an address. -/
def regionByte (b : Buffer Byte) (a : Nat) : Byte := (cellGet b.cells a).getD unlistedByte

/-- A host region with byte `v` at address `a`. -/
def regionPut (b : Buffer Byte) (a : Nat) (v : Byte) : Buffer Byte :=
  { b with cells := if v = unlistedByte then cellDel b.cells a else cellPut b.cells a v }

/-- A host region with the bytes `vs` from address `a` up. -/
def regionPutAll (b : Buffer Byte) (a : Nat) : List Byte → Buffer Byte
  | [] => b
  | v :: vs => regionPutAll (regionPut b a v) (a + 1) vs

/-- The region of exactly these bytes, from address 0. -/
def regionOf (bytes : List Byte) : Buffer Byte := regionPutAll ⟨bytes.length, []⟩ 0 bytes

/-- The canonical form of a host region: sorted, inside its size, no listed byte 0. -/
abbrev RegionCanonical (b : Buffer Byte) : Prop :=
  CellsSorted b.cells ∧ ∀ p ∈ b.cells, p.1 < b.size ∧ p.2 ≠ unlistedByte

/-- The byte `IN[a]`. -/
def inByte (s : State) (a : Nat) : Byte := regionByte s.win a

/-- The byte `PALIN[k]`. -/
def palByte (s : State) (k : Nat) : Byte := regionByte s.palIn k

/-- The bytes of `IN` from `a` up that the window has, at most `n`. -/
def windowBytes (s : State) (a : Nat) : Nat → List Byte
  | 0 => []
  | n + 1 => if a < s.win.size then inByte s a :: windowBytes s (a + 1) n else []

/-! ### The output memories `DB` and `PXS`, read by later stages

An element no step has written yet holds an unspecified value (10_state.md R45, log 9). -/

/-- The byte `DB[a]`. -/
def dbByte (s : State) (a : Nat) : Byte := (cellGet s.db.cells a).getD (Config.unwrittenByte a)

/-- The pixel `PXS[a]`. -/
def pxsPixel (s : State) (a : Nat) : Pixel := (cellGet s.pxs.cells a).getD (Config.unwrittenPixel a)

/-- Every memory of the machine is in its canonical form. An output memory lists exactly the elements written. -/
abbrev Memory.wf (s : State) : Prop :=
  RegionCanonical s.win ∧ RegionCanonical s.palIn ∧ CellsSorted s.db.cells ∧ CellsSorted s.pxs.cells ∧
    CellsSorted s.grid.cells ∧ CellsSorted s.palOut.cells

/-! ### Raising a fault -/

/-- What `raise <Fault>(cause, addr)` carries (00_scope.md R14). -/
structure Raise where
  cause : ErrCause
  addr : Nat
  deriving DecidableEq, Repr

/-- The kind of fault a cause belongs to (60_exceptions.md R224). -/
def errCodeOf : ErrCause → ErrCode
  | .none => .none
  | .badMagic => .formatError
  | .boundsHeader => .decodeError
  | .boundsCtrl => .decodeError
  | .boundsRawRow => .decodeError
  | .boundsIndex => .decodeError
  | .boundsIndex2 => .decodeError
  | .boundsDupRow => .decodeError
  | .partialTile => .decodeError
  | .badWidth => .layoutError
  | .tilesNotDivisible => .layoutError

/-- The number of a fault kind (60_exceptions.md R224). -/
def errCodeNumber : ErrCode → Nat
  | .none => 0
  | .formatError => 1
  | .decodeError => 2
  | .layoutError => 3

/-- The number of a cause, counted within its kind (60_exceptions.md R224). -/
def errCauseNumber : ErrCause → Nat
  | .none => 0
  | .badMagic => 1
  | .boundsHeader => 1
  | .boundsCtrl => 2
  | .boundsRawRow => 3
  | .boundsIndex => 4
  | .boundsIndex2 => 5
  | .boundsDupRow => 6
  | .partialTile => 7
  | .badWidth => 1
  | .tilesNotDivisible => 2

/-- Fault entry: the fault record and the phase, nothing else (60_exceptions.md R228). There is no return from a
fault beside it: only START and RESET leave the phase (R230). -/
def raiseFault (e : Raise) (s : State) : State :=
  { s with errCode := errCodeOf e.cause, errCause := e.cause, errAddr := e.addr, phase := .fault }

/-- The end of an atomic step begun in `s`: all its writes, or none of them and fault entry (60_exceptions.md R228, R229). -/
def settle (s : State) (r : Except Raise State) : State :=
  match r with
  | .ok t => t
  | .error e => raiseFault e s

/-! ### The bounds check -/

/-- An access of `n` bytes of `IN` at `a` is admitted exactly when `a + n <= W` (20_memory.md R66). -/
def checkBounds (c : ErrCause) (a n : Nat) (s : State) : Except Raise Unit :=
  if a + n ≤ s.win.size then .ok () else .error ⟨c, a⟩

/-- The four bytes of `IN` at `a`. -/
def rowAt (s : State) (a : Nat) : Row := ⟨inByte s a, inByte s (a + 1), inByte s (a + 2), inByte s (a + 3)⟩

/-- `MemRead(IN, a, 4)`, one access (20_memory.md R71). -/
def readRow (c : ErrCause) (a : Nat) (s : State) : Except Raise Row :=
  match checkBounds c a 4 s with
  | .ok () => .ok (rowAt s a)
  | .error e => .error e

/-! ### Named register updates -/

/-- The writes of START before HDR: latched inputs, cleared fault record, output memories discarded (40 R120). -/
def latchInputs (mode : Mode) (width : Nat) (s : State) : State :=
  { s with
    modeReg := mode, widthReg := width, errCode := .none, errCause := .none, errAddr := 0,
    db := .empty, pxs := .empty, grid := .empty }

/-- The writes of HDR for an accepted header (40 R121). -/
def loadHeader (h : Header) (s : State) : State :=
  { s with
    dupOff := h.dupOff, artOff := h.artOff, rowCount := h.rowCount,
    bsCur := 8, artCur := h.artOff.toNat, dupCur := h.dupOff.toNat,
    rowIdx := 0, rawCnt := 0, dupCnt := 0, extent := 0,
    db := ⟨4 * h.rowCount.toNat, []⟩, phase := .decode }

/-- The four bytes of a row with their places in `DB`, byte `k` of row `r` at `4*r + k` (41 R148). -/
def rowCells (r : Nat) (row : Row) : List (Nat × Byte) :=
  [(4 * r, row.plane0), (4 * r + 1, row.plane1), (4 * r + 2, row.plane2), (4 * r + 3, row.plane3)]

/-- The row latch, the row store and the common tail of a row-decode step (41 R143, R145, R146, R149). -/
def storeRow (row : Row) (s : State) : State :=
  { s with row := row, db := bufPutAll s.db (rowCells s.rowIdx row), rowIdx := s.rowIdx + 1 }

/-- The writes of CTRL: the control byte latched, the bitstream cursor one further (41 R141). -/
def latchControl (c : Byte) (s : State) : State := { s with ctrl := c, bsCur := s.bsCur + 1 }

/-- The cursor and count writes of RAW (41 R143). -/
def countRaw (s : State) : State := { s with artCur := s.artCur + 4, rawCnt := s.rawCnt + 1 }

/-- The cursor and count writes of DUP1 and DUP2, `n` index bytes consumed (41 R145, R146). -/
def countDup (n : Nat) (s : State) : State := { s with dupCur := s.dupCur + n, dupCnt := s.dupCnt + 1 }

/-- The diagnostic write of FIN (41 R150). -/
def reportExtent (s : State) : State := { s with extent := max s.artCur s.dupCur }

/-- `PHASE <- p`. -/
def setPhase (p : Phase) (s : State) : State := { s with phase := p }

/-- The writes by which FIN enters the Converter (41 R150). -/
def beginConvert (s : State) : State :=
  { s with pxs := ⟨8 * s.rowCount.toNat, []⟩, p2cIdx := 0, phase := .convert }

/-- The writes of P2C, given the pixels with their places (42 R181). -/
def storePixels (ws : List (Nat × Pixel)) (s : State) : State :=
  { s with pxs := bufPutAll s.pxs ws, p2cIdx := s.p2cIdx + 1 }

/-- The writes of GRIDCHK, given the tiles per row and the height (43 R191). -/
def beginAssemble (tilesPerRow height : Nat) (s : State) : State :=
  { s with
    tilesPerRow := tilesPerRow, height := height, grid := ⟨s.widthReg * height, []⟩, placeIdx := 0, phase := .assemble }

/-- The writes of PLACE, given the pixels with their places (43 R192). -/
def storeTile (ws : List (Nat × Pixel)) (s : State) : State :=
  { s with grid := bufPutAll s.grid ws, placeIdx := s.placeIdx + 1 }

/-- The write of PALX (44 R211). -/
def storeColour (k : Nat) (c : Rgb) (s : State) : State := { s with palOut := bufPutAll s.palOut [(k, c)] }

/-- Every register of 10_state.md R20 at its value of R45, the output memories of length 0. The parameters, the
host's commands and the companion unit are not the named block's and stay (log 6, log 12). -/
def clearRegisters (s : State) : State :=
  { State.reset with
    win := s.win, magic := s.magic, pending := s.pending, palIn := s.palIn, palOut := s.palOut }

/-- A state whose pending host commands are `cs`. -/
def setPending (cs : List Command) (s : State) : State := { s with pending := cs }

end Sys2Proof.Machine
end

