-- ==== Sys2Proof/Machine/Operands.lean ====
section
/-! DEFINITION. The operand forms: the control bit, the two addressing modes of the Row Source Resolver, the planar
row the Converter reads, its pixels, and the grid address of a tile's pixel. -/

namespace Sys2Proof.Machine

/-- `ROW_COUNT` as a number. -/
def rows (s : State) : Nat := s.rowCount.toNat

/-- `TILE_COUNT` (10_state.md R24). -/
def tileCount (s : State) : Nat := rows s / 8

/-- `TILE_IDX` (10_state.md R31). -/
def tileIdx (s : State) : Nat := s.rowIdx / 8

/-- `BIT_IDX` (10_state.md R31). -/
def bitIdx (s : State) : Nat := s.rowIdx % 8

/-- The stream position, the triple that stands for a program counter (10_state.md R40). -/
def streamPosition (s : State) : Nat × Nat × Nat := (s.bsCur, bitIdx s, s.dupCur)

/-- The control bit of the row about to be decoded, least significant bit first (41 R142). -/
def controlBit (s : State) : Bool := s.ctrl.getLsbD (bitIdx s)

/-- The effective address of a raw row: the art-data cursor (41 R143). -/
def rawAddress (s : State) : Nat := s.artCur

/-- The effective address of a duplicated row, `ART_OFF + 4*index`, never reduced (41 R147, R156). -/
def dupAddress (s : State) (index : Nat) : Nat := s.artOff.toNat + 4 * index

/-- The four bytes of `DB` the next P2C step reads (42 R181). -/
def dbRowBytes (s : State) : List Byte :=
  [dbByte s (4 * s.p2cIdx), dbByte s (4 * s.p2cIdx + 1), dbByte s (4 * s.p2cIdx + 2), dbByte s (4 * s.p2cIdx + 3)]

/-- `bit_p` of a plane byte: bit `7 - p`, leftmost pixel first (42 R181, R182). -/
def planeBit (b : Byte) (p : Nat) : BitVec 1 := BitVec.ofBool (b.getLsbD (7 - p))

/-- Pixel `p` of a planar row, plane 3 the most significant bit (42 R181, 30_encoding.md R97). -/
def rowPixel (row : Row) (p : Nat) : Pixel :=
  planeBit row.plane3 p ++ planeBit row.plane2 p ++ planeBit row.plane1 p ++ planeBit row.plane0 p

/-- The eight pixels of row `r` with their places in `PXS`, pixel `p` at `8*r + p` (42 R183). -/
def pixelCells (r : Nat) (row : Row) : List (Nat × Pixel) :=
  (List.range 8).map fun p => (8 * r + p, rowPixel row p)

/-- Where pixel `(x, y)` of tile `t` lands in a grid of this width (43 R193). -/
def gridAddress (width tilesPerRow t x y : Nat) : Nat :=
  (8 * (t / tilesPerRow) + y) * width + (8 * (t % tilesPerRow) + x)

/-- The 64 pixels of tile `t` with their places in `GRID`, row by row (43 R192). -/
def tileCells (s : State) (t : Nat) : List (Nat × Pixel) :=
  (List.range 64).map fun j =>
    (gridAddress s.widthReg s.tilesPerRow t (j % 8) (j / 8), pxsPixel s (64 * t + j))

end Sys2Proof.Machine
end

