-- ==== Sys2Proof/Machine/Flags.lean ====
section
/-! DEFINITION. The status views of `PHASE`, the only flags there are (10_state.md R41), and the conditions under
which each step is enabled (00_scope.md R11). -/

namespace Sys2Proof.Machine

/-- `BUSY` (10_state.md R41). -/
def busy (s : State) : Bool :=
  match s.phase with
  | .decode => true
  | .convert => true
  | .assemble => true
  | .idle => false
  | .done => false
  | .fault => false

/-- `DONE` (10_state.md R41). -/
def isDone (s : State) : Bool := decide (s.phase = .done)

/-- `FAULTED` (10_state.md R41). -/
def faulted (s : State) : Bool := decide (s.phase = .fault)

/-- A row-decode step is enabled (41 R140). -/
def rowEnabled (s : State) : Bool := decide (s.phase = .decode ∧ s.rowIdx < rows s)

/-- The control byte of a tile is fetched: the row to decode is a tile's first (41 R141). -/
def ctrlEnabled (s : State) : Bool := decide (s.phase = .decode ∧ s.rowIdx < rows s ∧ bitIdx s = 0)

/-- FIN is enabled (41 R150). -/
def finEnabled (s : State) : Bool := decide (s.phase = .decode ∧ s.rowIdx = rows s)

/-- P2C is enabled (42 R180). -/
def p2cEnabled (s : State) : Bool := decide (s.phase = .convert ∧ s.p2cIdx < rows s)

/-- GRIDCHK is enabled (43 R191). -/
def gridchkEnabled (s : State) : Bool := decide (s.phase = .convert ∧ s.p2cIdx = rows s)

/-- PLACE is enabled (43 R192). -/
def placeEnabled (s : State) : Bool := decide (s.phase = .assemble ∧ s.placeIdx < tileCount s)

/-- AFIN is enabled (43 R195). -/
def afinEnabled (s : State) : Bool := decide (s.phase = .assemble ∧ s.placeIdx = tileCount s)

end Sys2Proof.Machine
end

