-- ==== Sys2Proof/Machine/Assembler.lean ====
section
/-! DEFINITION. The Tile Raster Assembler: GRIDCHK, PLACE, AFIN (43_tile_raster_assembler.md). -/

namespace Sys2Proof.Machine

/-- The body of GRIDCHK: the two checks in their order, then the sizes of the grid (43 R191). -/
def checkLayout (s : State) : Except Raise State :=
  if s.widthReg = 0 ∨ s.widthReg % 8 ≠ 0 then .error ⟨.badWidth, 0⟩
  else if tileCount s % (s.widthReg / 8) ≠ 0 then .error ⟨.tilesNotDivisible, 0⟩
  else .ok (beginAssemble (s.widthReg / 8) (tileCount s / (s.widthReg / 8) * 8) s)

/-- GRIDCHK (43 R191). -/
def execGridchk (s : State) : Host.Outcome State Fault Refusal :=
  if gridchkEnabled s then .next (settle s (checkLayout s))
  else .refused (.notEnabled "GRIDCHK")

/-- PLACE: the 64 pixels of tile `PLACE_IDX` into the grid (43 R192). It cannot fault; with `TILES_PER_ROW` 0, which
GRIDCHK never leaves, its divisions have no value and the model stops (log 21). -/
def execPlace (s : State) : Host.Outcome State Fault Refusal :=
  if placeEnabled s then
    if s.tilesPerRow = 0 then .fault .zeroTilesPerRow
    else .next (storeTile (tileCells s s.placeIdx) s)
  else .refused (.notEnabled "PLACE")

/-- AFIN: the run is complete (43 R195). -/
def execAfin (s : State) : Host.Outcome State Fault Refusal :=
  if afinEnabled s then .next (setPhase .done s)
  else .refused (.notEnabled "AFIN")

end Sys2Proof.Machine
end

