-- ==== Sys2Proof/Machine/Converter.lean ====
section
/-! DEFINITION. The Planar-to-Chunky Converter: P2C (42_planar_to_chunky.md). -/

namespace Sys2Proof.Machine

/-- P2C: one planar row to eight pixels of `PXS` (42 R181). It cannot fault. -/
def execP2c (row : Row) (s : State) : Host.Outcome State Fault Refusal :=
  if p2cEnabled s then .next (storePixels (pixelCells s.p2cIdx row) s)
  else .refused (.notEnabled "P2C")

end Sys2Proof.Machine
end

