-- ==== Sys2Proof/Machine/Decompressor.lean ====
section
/-! DEFINITION. The Tile Decompressor: CTRL, RAW, DUP1, DUP2, FIN (41_tile_decompressor.md). Each meaning makes the
accesses of its rule in the rule's order, its operand being what the encoding access delivered (log 19). -/

namespace Sys2Proof.Machine

/-- CTRL: latch the control byte and advance the bitstream cursor (41 R141). -/
def execCtrl (c : Byte) (s : State) : Host.Outcome State Fault Refusal :=
  if ctrlEnabled s then
    .next (settle s (match checkBounds .boundsCtrl s.bsCur 1 s with
      | .error e => .error e
      | .ok () => .ok (latchControl c s)))
  else .refused (.notEnabled "CTRL")

/-- RAW: copy the row at the art-data cursor and advance it by 4 (41 R143). -/
def execRaw (s : State) : Host.Outcome State Fault Refusal :=
  if rowEnabled s then
    .next (settle s (match readRow .boundsRawRow (rawAddress s) s with
      | .error e => .error e
      | .ok row => .ok (storeRow row (countRaw s))))
  else .refused (.notEnabled "RAW")

/-- The part DUP1 and DUP2 share: copy the art-data row `index`, consume `n` index bytes, count one row (41 R145, R146). -/
def duplicateRow (index n : Nat) (s : State) : Except Raise State :=
  match readRow .boundsDupRow (dupAddress s index) s with
  | .error e => .error e
  | .ok row => .ok (storeRow row (countDup n s))

/-- DUP1: a duplicated row with a one-byte index (41 R144, R145). -/
def execDup1 (index : Byte) (s : State) : Host.Outcome State Fault Refusal :=
  if rowEnabled s then
    .next (settle s (match checkBounds .boundsIndex s.dupCur 1 s with
      | .error e => .error e
      | .ok () => duplicateRow index.toNat 1 s))
  else .refused (.notEnabled "DUP1")

/-- DUP2: a duplicated row with a two-byte index (41 R144, R146). -/
def execDup2 (index : BitVec 12) (s : State) : Host.Outcome State Fault Refusal :=
  if rowEnabled s then
    .next (settle s (match checkBounds .boundsIndex s.dupCur 1 s with
      | .error e => .error e
      | .ok () =>
        match checkBounds .boundsIndex2 (s.dupCur + 1) 1 s with
        | .error e => .error e
        | .ok () => duplicateRow index.toNat 2 s))
  else .refused (.notEnabled "DUP2")

/-- FIN: the consumed extent, then DONE or the Converter (41 R150). -/
def execFin (s : State) : Host.Outcome State Fault Refusal :=
  if finEnabled s then
    match s.modeReg with
    | .rawOnly => .next (setPhase .done (reportExtent s))
    | .raster => .next (beginConvert (reportExtent s))
  else .refused (.notEnabled "FIN")

end Sys2Proof.Machine
end

