-- ==== Sys2Proof/Machine/Header.lean ====
section
/-! DEFINITION. START and HDR, which form one atomic step, and RESET (40_header_and_start.md, 70_reset_and_hazards.md R260). -/

namespace Sys2Proof.Machine

/-- The body of HDR: the three checks in their order, then the loads (40 R121, 60 R227). -/
def parseHeader (h : Header) (s : State) : Except Raise State :=
  match checkBounds .boundsHeader 0 8 s with
  | .error e => .error e
  | .ok () =>
    if h.magic ≠ s.magic then .error ⟨.badMagic, 0⟩
    else if h.rowCount.toNat % 8 ≠ 0 then .error ⟨.partialTile, 6⟩
    else .ok (loadHeader h s)

/-- HDR on the bytes of the window: a window too short for the header is BOUNDS_HEADER (40 R121, R122). -/
def headerFromWindow (s : State) : Except Raise State :=
  match decodeHeader (windowBytes s 0 8) with
  | .ok (h, _) => parseHeader h s
  | .error _ => .error ⟨.boundsHeader, 0⟩

/-- START: latch the inputs and perform HDR, one step; ignored while busy (40 R120, R126, log 15). -/
def execStart (mode : Mode) (width : Nat) (s : State) : Host.Outcome State Fault Refusal :=
  if busy s then .next s
  else .next (settle s (headerFromWindow (latchInputs mode width s)))

/-- HDR on a decoded header (40 R121). It runs where START may (10_state.md R27). -/
def execHdr (h : Header) (s : State) : Host.Outcome State Fault Refusal :=
  if busy s then .refused (.notEnabled "HDR")
  else .next (settle s (parseHeader h s))

/-- RESET, in every phase (70 R260). -/
def execReset (s : State) : Host.Outcome State Fault Refusal := .next (clearRegisters s)

end Sys2Proof.Machine
end

