-- ==== Sys2Proof/Machine/Palette.lean ====
section
/-! DEFINITION. The Palette Expander, the companion unit: PALX (44_palette_expander.md). -/

namespace Sys2Proof.Machine

/-- `extend`: a 2-bit channel to 8 bits by bit replication, `v' = v | v<<2`, then `v' | v'<<4` (44 R212). -/
def extendChannel (v : BitVec 2) : Byte :=
  let w := v.setWidth 8 ||| (v.setWidth 8 <<< 2)
  w ||| (w <<< 4)

/-- The colour of a palette byte: red bits 1:0, green 3:2, blue 5:4, bits 7:6 ignored (44 R211, 30_encoding.md R98,
R104, log 24). -/
def expandByte (b : Byte) : Rgb :=
  ⟨extendChannel (b.extractLsb' 0 2), extendChannel (b.extractLsb' 2 2), extendChannel (b.extractLsb' 4 2)⟩

/-- PALX: entry `k` of `PALOUT` from its palette byte (44 R211). It touches nothing of the named block (44 R210). -/
def execPalx (k : Nat) (b : Byte) (s : State) : Host.Outcome State Fault Refusal :=
  if k < s.palIn.size then .next (storeColour k (expandByte b) s)
  else .fault .paletteAddress

/-- The entry of `PALOUT` that a pixel value means to the host: the OPEN map `PAL_SUBRANGE` (44 R214, log 14). DESIGN CHOICE:
`none` while PALX has not written that entry, and for a palette of no bytes (log 29). -/
def pixelColour (v : Pixel) (s : State) : Option Rgb :=
  match s.palIn.size with
  | 0 => none
  | n + 1 => cellGet s.palOut.cells (Config.palSubrange n v).val

end Sys2Proof.Machine
end

