-- ==== Sys2Proof/Machine/Dispatch.lean ====
section
/-! DEFINITION. One arm per operation, each one call of its meaning. -/

namespace Sys2Proof.Machine

def exec (i : Instr) (s : State) : Host.Outcome State Fault Refusal :=
  match i with
  | .start mode width => Sys2Proof.Machine.execStart mode width s
  | .reset => Sys2Proof.Machine.execReset s
  | .hdr h => Sys2Proof.Machine.execHdr h s
  | .ctrl c => Sys2Proof.Machine.execCtrl c s
  | .raw => Sys2Proof.Machine.execRaw s
  | .dup1 index => Sys2Proof.Machine.execDup1 index s
  | .dup2 index => Sys2Proof.Machine.execDup2 index s
  | .fin => Sys2Proof.Machine.execFin s
  | .p2c row => Sys2Proof.Machine.execP2c row s
  | .gridchk => Sys2Proof.Machine.execGridchk s
  | .place => Sys2Proof.Machine.execPlace s
  | .afin => Sys2Proof.Machine.execAfin s
  | .palx k b => Sys2Proof.Machine.execPalx k b s

end Sys2Proof.Machine
end

