-- ==== Sys2Proof/Machine/Sequencer.lean ====
section
/-! DEFINITION. Which operation runs next (00_scope.md R11, 41 R140, 42 R180): fetch the bits of the operation the
phase and the counters select, decode them, and execute. Commands of the host land between two steps (log 3). -/

namespace Sys2Proof.Machine

/-- The fault of an encoding access that the window does not hold (20_memory.md R71). The last two rejections cannot
arise: `DB` and `PALIN` deliver every byte the decoder asks for. -/
def fetchFault (r : Reject) (s : State) : Host.Outcome State Fault Refusal :=
  match r with
  | .truncatedHeader => .next (raiseFault ⟨.boundsHeader, 0⟩ s)
  | .truncatedControl => .next (raiseFault ⟨.boundsCtrl, s.bsCur⟩ s)
  | .truncatedIndex => .next (raiseFault ⟨.boundsIndex, s.dupCur⟩ s)
  | .truncatedIndex2 => .next (raiseFault ⟨.boundsIndex2, s.dupCur + 1⟩ s)
  | .truncatedRow => .fault .noStepEnabled
  | .truncatedPalette => .fault .noStepEnabled

/-- Decode the bytes that stand where format `f` is read, and execute what they say. -/
def runDecoded (f : Format) (bytes : List Byte) (s : State) : Host.Outcome State Fault Refusal :=
  match decode f bytes with
  | .ok (i, _) => exec i s
  | .error r => fetchFault r s

/-- The row operation: the control bit and, for a duplicated row, the index bytes at `DUP_CUR` (41 R142, R144). -/
def rowOperation (s : State) : Host.Outcome State Fault Refusal :=
  runDecoded (.row (controlBit s)) (windowBytes s s.dupCur 2) s

/-- The control-byte fetch at the bitstream cursor (41 R141). -/
def controlFetch (s : State) : Host.Outcome State Fault Refusal :=
  runDecoded .control (windowBytes s s.bsCur 1) s

/-- A part of an atomic step begun in `s` that raised a fault leaves nothing of the step but the fault (41 R149, 60 R229). -/
def precise (s : State) (o : Host.Outcome State Fault Refusal) : Host.Outcome State Fault Refusal :=
  match o with
  | .next t =>
    if t.phase = .fault then .next (raiseFault ⟨t.errCause, t.errAddr⟩ s) else .next t
  | .fault r => .fault r
  | .refused r => .refused r

/-- The row-decode step: the control-byte fetch when the row begins a tile, then the row operation, all or nothing
(41 R140, R149). -/
def rowDecode (s : State) : Host.Outcome State Fault Refusal :=
  if bitIdx s = 0 then
    match controlFetch s with
    | .next t => if t.phase = .fault then .next t else precise s (rowOperation t)
    | .fault r => .fault r
    | .refused r => .refused r
  else rowOperation s

/-- The step the hardware takes by itself. In `IDLE`, `DONE` and `FAULT` it does nothing (60 R230, R240, log 4). -/
def internalStep (s : State) : Host.Outcome State Fault Refusal :=
  match s.phase with
  | .idle => .next s
  | .done => .next s
  | .fault => .next s
  | .decode =>
    if s.rowIdx < rows s then rowDecode s
    else if s.rowIdx = rows s then exec .fin s
    else .fault .noStepEnabled
  | .convert =>
    if s.p2cIdx < rows s then runDecoded .planar (dbRowBytes s) s
    else if s.p2cIdx = rows s then exec .gridchk s
    else .fault .noStepEnabled
  | .assemble =>
    if s.placeIdx < tileCount s then exec .place s
    else if s.placeIdx = tileCount s then exec .afin s
    else .fault .noStepEnabled

/-- The effect of a host command (70 R264) or of a request to the companion unit, whose byte stands at `PALIN[k]`. -/
def takeCommand (c : Command) (s : State) : Host.Outcome State Fault Refusal :=
  match c with
  | .start mode width => exec (.start mode width) s
  | .reset => exec .reset s
  | .palx k => runDecoded (.palette k) [palByte s k] s

/-- One step: the oldest host command issued, else the hardware's own step (DESIGN CHOICE, log 3; what the host changes in the
interval this makes, and what it reads there, is log 27, log 28, log 30). -/
def nextStep (s : State) : Host.Outcome State Fault Refusal :=
  match s.pending with
  | [] => internalStep s
  | c :: cs => takeCommand c (setPending cs s)

/-- `s` with the operation of a word of the opcode table placed where the very next step fetches it (log 23): a header
at `IN[0]` with START issued, a planar row in `DB` with the Converter at it, an index at `DUP_CUR` with the
Decompressor at a duplicated row and a window that holds every row an index can name. -/
def placeWord (s : State) (nbits w : Nat) : State :=
  let bytes := wordBytes 8 (w % 2 ^ nbits)
  match tableFormat nbits with
  | none => s
  | some .header =>
    { s with
      win := regionPutAll { s.win with size := max s.win.size 8 } 0 bytes,
      phase := .idle, pending := [.start s.modeReg s.widthReg] }
  | some .planar =>
    { s with
      db := bufPutAll s.db
        (rowCells 0 ⟨bytes.getD 0 0, bytes.getD 1 0, bytes.getD 2 0, bytes.getD 3 0⟩),
      rowCount := 8, p2cIdx := 0, phase := .convert, pending := [] }
  | some _ =>
    { s with
      win := regionPutAll
        { s.win with size := max s.win.size (max (s.dupCur + 2) (s.artOff.toNat + 4 * 4096)) }
        s.dupCur (bytes.take 2),
      rowCount := 8, rowIdx := 1, ctrl := 0xFF, phase := .decode, pending := [] }

end Sys2Proof.Machine
end

