-- ==== Sys2Proof/Machine/Step.lean ====
section
/-! DEFINITION. The step function, and the state in which a given word of the opcode table is fetched next. -/

namespace Sys2Proof.Machine

/-- One atomic step (00_scope.md R11). -/
def step (s : State) : Host.Outcome State Fault Refusal := nextStep s

/-- The state whose next step runs the operation of a table word (log 22, log 23). -/
def State.withFetchWord (s : State) (nbits w : Nat) : State := placeWord s nbits w

end Sys2Proof.Machine
end

