-- ==== Sys2Proof/Machine/HostPort.lean ====
section
/-! DEFINITION. The host's moves (70 R264): presenting the window and the palette, issuing a command, reading a port. -/

namespace Sys2Proof.Machine

/-- The host presents a window. During a run that breaks its duty, and the model has no transition for it (70 R264,
R265, log 25). DESIGN CHOICE: with a START issued and not yet taken the move is accepted, and that START runs on the new window;
the spec has no such interval (20 R77, 70 R263; log 27). With a RESET issued and not yet taken in a busy phase it is still refused
(log 30). -/
def presentWindow (bytes : List Byte) (s : State) : Host.Outcome State Fault Refusal :=
  if busy s then .refused .hostDuty else .next { s with win := regionOf bytes }

/-- The host supplies the companion unit's bytes, exactly `PAL_LEN` of them; the output is new (44 R215, R210). DESIGN CHOICE:
requests still pending read the new palette, and one beyond it stops with `paletteAddress` (log 28). -/
def presentPalette (bytes : List Byte) (s : State) : State :=
  { s with palIn := regionOf bytes, palOut := ⟨bytes.length, []⟩ }

/-- The host issues a command, in any phase (70 R264). -/
def issue (c : Command) (s : State) : State := setPending (s.pending ++ [c]) s

/-- An invocation of the companion unit: PALX for every entry, here in address order (44 R213). -/
def invokePalette (s : State) : State :=
  setPending (s.pending ++ (List.range s.palIn.size).map Command.palx) s

/-- What a read of a port answers. -/
inductive Reading where
  | phase (p : Phase)
  | flag (b : Bool)
  | number (n : Nat)
  deriving DecidableEq, Repr

/-- The phases in which a port is meaningful, and for a memory the addresses it has (10_state.md R42, R47; 70 R264). -/
def meaningful (p : HostPort) (s : State) : Bool :=
  match p with
  | .phase => true
  | .busy => true
  | .done => true
  | .faulted => true
  | .errCode => faulted s
  | .errCause => faulted s
  | .errAddr => faulted s
  | .dupOff => isDone s
  | .artOff => isDone s
  | .rowCount => isDone s
  | .rawCnt => isDone s
  | .dupCnt => isDone s
  | .extent => isDone s
  | .height => isDone s && decide (s.modeReg = .raster)
  | .dbByte a => isDone s && decide (a < s.db.size)
  | .gridPixel a => isDone s && decide (s.modeReg = .raster) && decide (a < s.grid.size)

/-- What a register or memory holds, as a port delivers it. An element no step has written is unspecified (log 9). -/
def portValue (nonce : Nat) (p : HostPort) (s : State) : Reading :=
  match p with
  | .phase => .phase s.phase
  | .busy => .flag (busy s)
  | .done => .flag (isDone s)
  | .faulted => .flag (faulted s)
  | .errCode => .number (errCodeNumber s.errCode)
  | .errCause => .number (errCauseNumber s.errCause)
  | .errAddr => .number s.errAddr
  | .dupOff => .number s.dupOff.toNat
  | .artOff => .number s.artOff.toNat
  | .rowCount => .number s.rowCount.toNat
  | .rawCnt => .number s.rawCnt
  | .dupCnt => .number s.dupCnt
  | .extent => .number s.extent
  | .height => .number s.height
  | .dbByte a => .number (dbByte s a).toNat
  | .gridPixel a =>
    .number (match cellGet s.grid.cells a with
      | some v => v.toNat
      | none => Config.unspecifiedRead p nonce)

/-- A host read, the `nonce`-th of its port: the value where the port is meaningful, else an unspecified one
(10_state.md R42, 70 R266, log 11). Reading changes no state. DESIGN CHOICE: with a command issued and not yet taken it answers from
the state before that command (log 30). -/
def hostRead (nonce : Nat) (p : HostPort) (s : State) : Reading :=
  if meaningful p s then portValue nonce p s else .number (Config.unspecifiedRead p nonce)

end Sys2Proof.Machine
end

