-- ==== Sys2Proof/Machine/Reference.lean ====
section
/-! DEFINITION. The spec's reference functions: the decompressor, the converter and the assembler each as one function,
written loop by loop from 41 R155, 42 R185 and 43 R197, apart from the machine's steps. Claims compare the two. -/

namespace Sys2Proof.Machine

/-- The loop variables of R155. -/
structure RefVars where
  bs : Nat
  art : Nat
  dup : Nat
  rawCnt : Nat
  dupCnt : Nat
  out : List Byte
  deriving DecidableEq, Repr

/-- Bounds check of R155: `if a + n > W: fault`. -/
def refCheck (W : Nat) (c : ErrCause) (a n : Nat) : Except Raise Unit :=
  if a + n > W then .error ⟨c, a⟩ else .ok ()

/-- The four bytes at `a`. -/
def refRowBytes (inp : Nat → Byte) (a : Nat) : List Byte := [inp a, inp (a + 1), inp (a + 2), inp (a + 3)]

/-- The index at `dup` and its length in bytes. -/
def refIndex (inp : Nat → Byte) (W dup : Nat) : Except Raise (Nat × Nat) := do
  refCheck W .boundsIndex dup 1
  if (inp dup).toNat ≥ 0xF0 then
    if dup + 2 > W then .error ⟨.boundsIndex2, dup + 1⟩
    else .ok (((inp dup).toNat &&& 0x0F) <<< 8 ||| (inp (dup + 1)).toNat, 2)
  else .ok ((inp dup).toNat, 1)

/-- One row: the inner loop's body for row `i` of a tile with control byte `c`. -/
def refRow (inp : Nat → Byte) (W artOff : Nat) (c : Byte) (v : RefVars) (i : Nat) : Except Raise RefVars :=
  if (c.toNat >>> i) &&& 1 = 0 then do
    refCheck W .boundsRawRow v.art 4
    .ok { v with out := v.out ++ refRowBytes inp v.art, art := v.art + 4, rawCnt := v.rawCnt + 1 }
  else do
    let (index, n) ← refIndex inp W v.dup
    refCheck W .boundsDupRow (artOff + 4 * index) 4
    .ok { v with
      out := v.out ++ refRowBytes inp (artOff + 4 * index), dup := v.dup + n, dupCnt := v.dupCnt + 1 }

/-- One tile: the control byte and eight rows. -/
def refTile (inp : Nat → Byte) (W artOff : Nat) (v : RefVars) : Except Raise RefVars := do
  refCheck W .boundsCtrl v.bs 1
  (List.range 8).foldlM (refRow inp W artOff (inp v.bs)) { v with bs := v.bs + 1 }

/-- The index that starts at `dup` and how many bytes it takes, as 30_encoding.md R95 writes it. -/
def refIndexAt (inp : Nat → Byte) (dup : Nat) : Nat × Nat :=
  if (inp dup).toNat ≥ 0xF0 then (((inp dup).toNat &&& 0x0F) <<< 8 ||| (inp (dup + 1)).toNat, 2)
  else ((inp dup).toNat, 1)

/-- The next `n` indices of the index stream from `dup`, each with its length (41 R154). -/
def refIndices (inp : Nat → Byte) (dup : Nat) : Nat → List (Nat × Nat)
  | 0 => []
  | n + 1 => refIndexAt inp dup :: refIndices inp (dup + (refIndexAt inp dup).2) n

/-- What `decompress` returns when it does not fault. -/
structure RefOutput where
  db : List Byte
  rawCnt : Nat
  dupCnt : Nat
  extent : Nat
  deriving DecidableEq, Repr

/-- A little-endian 16-bit field at `a`, as R14 writes it. -/
def refHalf (inp : Nat → Byte) (a : Nat) : Nat := (inp a).toNat ||| (inp (a + 1)).toNat <<< 8

/-- `decompress(IN, W, MAGIC)` (41 R155). -/
def decompress (inp : Nat → Byte) (W magic : Nat) : Except Raise RefOutput := do
  refCheck W .boundsHeader 0 8
  if refHalf inp 0 ≠ magic then .error ⟨.badMagic, 0⟩
  else if refHalf inp 6 % 8 ≠ 0 then .error ⟨.partialTile, 6⟩
  else do
    let start : RefVars := ⟨8, refHalf inp 4, refHalf inp 2, 0, 0, []⟩
    let v ← (List.range (refHalf inp 6 / 8)).foldlM (fun v _ => refTile inp W (refHalf inp 4) v) start
    .ok ⟨v.out, v.rawCnt, v.dupCnt, max v.art v.dup⟩

/-- Bit `p` of a plane byte, as R181 writes it. -/
def refBit (b : Byte) (p : Nat) : Nat := (b.toNat >>> (7 - p)) &&& 1

/-- The pixel formula of 42 R181 on the row at address `a` of a byte memory. -/
def refPixel (db : Nat → Byte) (a p : Nat) : Nat :=
  refBit (db (a + 3)) p <<< 3 ||| refBit (db (a + 2)) p <<< 2 ||| refBit (db (a + 1)) p <<< 1 ||| refBit (db a) p

/-- `convert(DB)`: the pixel stream, pixel `p` of row `r` at `8*r + p` (42 R183, R185). -/
def convertAt (db : Nat → Byte) (j : Nat) : Nat := refPixel db (4 * (j / 8)) (j % 8)

/-- `assemble(PXS, tiles, width)`: the height, or a fault (43 R197). -/
def assembleHeight (tiles width : Nat) : Except Raise Nat :=
  if width = 0 ∨ width % 8 ≠ 0 then .error ⟨.badWidth, 0⟩
  else if tiles % (width / 8) ≠ 0 then .error ⟨.tilesNotDivisible, 0⟩
  else .ok (tiles / (width / 8) * 8)

/-- `assemble(PXS, tiles, width)`: the pixel at `(X, Y)`, by the inverse formula (43 R193, R197). -/
def assembleAt (pxs : Nat → Nat) (width X Y : Nat) : Nat :=
  pxs (64 * (Y / 8 * (width / 8) + X / 8) + 8 * (Y % 8) + X % 8)

end Sys2Proof.Machine
end

