-- ==== Sys2Proof/Safety.lean ====
section
/-! DEFINITION. What claims are stated in: the invariants of a run, phase by phase (41 R151, 10_state.md R47), and the
number of steps a run has left (70 R272). -/

namespace Sys2Proof.Machine

/-- What holds of the Decompressor's registers from HDR on (41 R151). -/
structure DecodeCounters (s : State) : Prop where
  wholeTiles : rows s % 8 = 0
  rowIdx_le : s.rowIdx ≤ rows s
  counts : s.rawCnt + s.dupCnt = s.rowIdx
  artCur_eq : s.artCur = s.artOff.toNat + 4 * s.rawCnt
  dupCur_ge : s.dupOff.toNat + s.dupCnt ≤ s.dupCur
  dupCur_le : s.dupCur ≤ s.dupOff.toNat + 2 * s.dupCnt
  bsCur_eq : s.bsCur = 8 + (s.rowIdx + 7) / 8
  dbSize : s.db.size = 4 * rows s

/-- What holds from FIN on: every row is decoded and the extent is the larger cursor (41 R150, R151). -/
structure Decoded (s : State) : Prop extends DecodeCounters s where
  allRows : s.rowIdx = rows s
  extent_eq : s.extent = max s.artCur s.dupCur

/-- What holds from FIN on in RASTER mode: the pixel stream has its size (41 R150, 42 R180). -/
structure Converting (s : State) : Prop extends Decoded s where
  mode : s.modeReg = .raster
  p2cIdx_le : s.p2cIdx ≤ rows s
  pxsSize : s.pxs.size = 8 * rows s

/-- What holds from GRIDCHK on: the layout fits (43 R191). -/
structure Assembling (s : State) : Prop extends Converting s where
  allPixels : s.p2cIdx = rows s
  width_pos : 0 < s.widthReg
  width_mod : s.widthReg % 8 = 0
  tilesPerRow_eq : s.tilesPerRow = s.widthReg / 8
  divides : tileCount s % s.tilesPerRow = 0
  height_eq : s.height = tileCount s / s.tilesPerRow * 8
  gridSize : s.grid.size = s.widthReg * s.height
  placeIdx_le : s.placeIdx ≤ tileCount s

/-- What holds when a run is complete, in either mode (10_state.md R47). -/
structure Complete (s : State) : Prop extends Decoded s where
  raster : s.modeReg = .raster → Assembling s ∧ s.placeIdx = tileCount s

/-- The invariant of the sequencing registers in every phase. -/
def RunInv (s : State) : Prop :=
  match s.phase with
  | .idle => True
  | .fault => True
  | .decode => DecodeCounters s
  | .convert => Converting s
  | .assemble => Assembling s
  | .done => Complete s

/-- Which bytes of `DB` are written: every byte of the rows decoded so far and no other (20_memory.md R62). What they hold is
the matter of RowCopied, step by step. -/
def DbWritten (s : State) : Prop := ∀ a, (cellGet s.db.cells a).isSome ↔ a < 4 * s.rowIdx

/-- Every pixel of the rows converted so far is written with the value of 42 R181, and no other is written. -/
def PxsWritten (s : State) : Prop :=
  (∀ j, (cellGet s.pxs.cells j).isSome ↔ j < 8 * s.p2cIdx) ∧
  ∀ j, j < 8 * s.p2cIdx → (pxsPixel s j).toNat = convertAt (dbByte s) j

/-- Every pixel of the tiles placed so far stands at its address of 43 R193, which lies in the grid, and no other element
of the grid is written. -/
def GridWritten (s : State) : Prop :=
  (∀ t x y, t < s.placeIdx → x < 8 → y < 8 →
    cellGet s.grid.cells (gridAddress s.widthReg s.tilesPerRow t x y) = some (pxsPixel s (64 * t + 8 * y + x))) ∧
  ∀ a, (cellGet s.grid.cells a).isSome → a < s.grid.size ∧
    ∃ t x y, t < s.placeIdx ∧ x < 8 ∧ y < 8 ∧ a = gridAddress s.widthReg s.tilesPerRow t x y

/-- The invariant of the output memories in every phase. -/
def OutputInv (s : State) : Prop :=
  match s.phase with
  | .idle => True
  | .fault => True
  | .decode => DbWritten s
  | .convert => DbWritten s ∧ PxsWritten s
  | .assemble => DbWritten s ∧ PxsWritten s ∧ GridWritten s
  | .done => DbWritten s ∧ (s.modeReg = .raster → PxsWritten s ∧ GridWritten s)

/-- The fault record and the phase agree: a cause is recorded exactly in `FAULT`, with its kind (10_state.md R37, 60 R224). -/
def FaultRecordInv (s : State) : Prop :=
  s.errCode = errCodeOf s.errCause ∧ (s.phase = .fault ↔ s.errCause ≠ .none)

/-- The operation a control byte and the index stream select for the row about to be decoded, bit by bit as
41 R142 and 30_encoding.md R95, R100 write it. -/
def selectedRow (s : State) (c : Byte) : Instr :=
  if (c.toNat >>> (s.rowIdx % 8)) &&& 1 = 0 then .raw
  else if (inByte s s.dupCur).toNat < 0xF0 then .dup1 (inByte s s.dupCur)
  else .dup2 (BitVec.ofNat 12 (((inByte s s.dupCur).toNat &&& 0x0F) <<< 8 ||| (inByte s (s.dupCur + 1)).toNat))

/-- The window holds the index bytes that control byte makes the row need (41 R144, R146). -/
def indexPresent (s : State) (c : Byte) : Prop :=
  (c.toNat >>> (s.rowIdx % 8)) &&& 1 = 0 ∨
    (s.dupCur + 1 ≤ s.win.size ∧ ((inByte s s.dupCur).toNat < 0xF0 ∨ s.dupCur + 2 ≤ s.win.size))

/-- `t` has the row of `IN` at address `a` in its latch and in `DB` at row `ROW_IDX` of `s`, one more row decoded, and
every other byte of `DB` as in `s` (41 R148, R149). -/
structure RowCopied (s t : State) (a : Nat) : Prop where
  latch : t.row = ⟨inByte s a, inByte s (a + 1), inByte s (a + 2), inByte s (a + 3)⟩
  stored : ∀ k, k < 4 → cellGet t.db.cells (4 * s.rowIdx + k) = some (inByte s (a + k))
  others : ∀ c, c < 4 * s.rowIdx ∨ 4 * s.rowIdx + 4 ≤ c → cellGet t.db.cells c = cellGet s.db.cells c
  size : t.db.size = s.db.size
  rowIdx : t.rowIdx = s.rowIdx + 1

/-- How many of its own steps the hardware takes until it is no longer busy, if none raises a fault (70 R272). -/
def stepsLeft (s : State) : Nat :=
  match s.phase with
  | .idle => 0
  | .done => 0
  | .fault => 0
  | .decode =>
    match s.modeReg with
    | .rawOnly => (rows s - s.rowIdx) + 1
    | .raster => (rows s - s.rowIdx) + (rows s + tileCount s + 3)
  | .convert => (rows s - s.p2cIdx) + (tileCount s + 2)
  | .assemble => (tileCount s - s.placeIdx) + 1

/-- The phase transitions of 10_state.md R27 that the hardware takes by itself. -/
def hardwareMove : Phase → Phase → Bool
  | .decode, .decode => true
  | .decode, .done => true
  | .decode, .convert => true
  | .decode, .fault => true
  | .convert, .convert => true
  | .convert, .assemble => true
  | .convert, .fault => true
  | .assemble, .assemble => true
  | .assemble, .done => true
  | .idle, .idle => true
  | .done, .done => true
  | .fault, .fault => true
  | _, _ => false

end Sys2Proof.Machine
end

