-- ==== Sys2Proof/WellFormed.lean ====
section
/-! DEFINITION. Which terms of Instr stand for an encoding. One operand is restricted: a one-byte index. -/

namespace Sys2Proof

/-- A one-byte index is at most `0xEF`; every other operand value has an encoding (30_encoding.md R93, R103). -/
def Instr.wellFormed : Instr → Bool
  | .dup1 index => decide (index < 0xF0#8)
  | .start _ _ => true
  | .reset => true
  | .hdr _ => true
  | .ctrl _ => true
  | .raw => true
  | .dup2 _ => true
  | .fin => true
  | .p2c _ => true
  | .gridchk => true
  | .place => true
  | .afin => true
  | .palx _ _ => true

end Sys2Proof
end

