-- ==== Sys2Proof/Certificates/Slice0/Obligations.lean ====
section
/-! DEFINITION. The statements for the provers. Each docstring names the rule of spec/ it rests on, and the log entry
where a clause is the model's own choice. -/

open Sys2Proof Sys2Proof.Machine

/-! ### Encodings -/

/-- 30_encoding.md R91 to R98: what the encoder writes, the decoder reads back, and it leaves the bytes after it. -/
def Obligations.DecodeUndoesEncode : Prop :=
  ∀ (i : Instr) (f : Format) (ws rest : List Byte),
    i.wellFormed = true → encode i = some (f, ws) → decode f (ws ++ rest) = .ok (i, rest)

/-- 30_encoding.md R101, R103: whatever bytes the decoder accepts are the one encoding of a well-formed operation. -/
def Obligations.EncodeUndoesDecode : Prop :=
  ∀ (f : Format) (bs : List Byte) (i : Instr) (rest : List Byte),
    decode f bs = .ok (i, rest) →
      i.wellFormed = true ∧ ∃ ws, encode i = some (f, ws) ∧ bs = ws ++ rest

/-- Words written out from the examples of the spec: 40 R121, 41 R141, R145, R146, 42 R184, 44 R211. -/
def Obligations.SpecWordsDecode : Prop :=
  decode .header [0x34#8, 0x12#8, 0x28#8, 0x00#8, 0x08#8, 0x00#8, 0x10#8, 0x00#8] =
      .ok (.hdr ⟨0x1234#16, 0x0028#16, 0x0008#16, 0x0010#16⟩, []) ∧
  decode .control [0xA5#8] = .ok (.ctrl 0xA5#8, []) ∧
  decode (.row false) [] = .ok (.raw, []) ∧
  decode (.row true) [0xEF#8] = .ok (.dup1 0xEF#8, []) ∧
  decode (.row true) [0xF1#8, 0x00#8] = .ok (.dup2 0x100#12, []) ∧
  decode .planar [0xFF#8, 0x00#8, 0xFF#8, 0x00#8] = .ok (.p2c ⟨0xFF#8, 0x00#8, 0xFF#8, 0x00#8⟩, []) ∧
  decode (.palette 3) [0x06#8] = .ok (.palx 3 0x06#8, [])

/-- 20_memory.md R67: the field at header offset `k` is `IN[k] | (IN[k+1] << 8)`. -/
def Obligations.HeaderFieldsLittleEndian : Prop :=
  ∀ m0 m1 d0 d1 a0 a1 r0 r1 : Byte, ∃ h : Header,
    decode .header [m0, m1, d0, d1, a0, a1, r0, r1] = .ok (.hdr h, []) ∧
    h.magic.toNat = m0.toNat ||| m1.toNat <<< 8 ∧
    h.dupOff.toNat = d0.toNat ||| d1.toNat <<< 8 ∧
    h.artOff.toNat = a0.toNat ||| a1.toNat <<< 8 ∧
    h.rowCount.toNat = r0.toNat ||| r1.toNat <<< 8

/-- 30_encoding.md R95: the index of either form, and the address it is scaled to. -/
def Obligations.IndexAssembly : Prop :=
  (∀ (b0 : Byte) (rest : List Byte), b0.toNat < 0xF0 →
    decode (.row true) (b0 :: rest) = .ok (.dup1 b0, rest)) ∧
  (∀ (b0 b1 : Byte) (rest : List Byte), 0xF0 ≤ b0.toNat → ∃ index : BitVec 12,
    decode (.row true) (b0 :: b1 :: rest) = .ok (.dup2 index, rest) ∧
    index.toNat = (b0.toNat &&& 0x0F) <<< 8 ||| b1.toNat) ∧
  (∀ (s : State) (index : Nat), dupAddress s index = s.artOff.toNat + index * 4)

/-! ### A step runs the decoded operation -/

/-- 41 R140, R142: inside a tile, the step is the operation the control bit and the index bytes decode to. -/
def Obligations.StepRunsDecodedRow : Prop :=
  ∀ (s : State) (i : Instr) (rest : List Byte),
    s.pending = [] → s.phase = .decode → s.rowIdx < rows s → s.rowIdx % 8 ≠ 0 →
    decode (.row (controlBit s)) (windowBytes s s.dupCur 2) = .ok (i, rest) →
    step s = exec i s

/-- 41 R140, R141, R149: at the first row of a tile the step is CTRL on the byte at `BS_CUR`, then the operation decoded
after it, one atomic step. -/
def Obligations.StepRunsTileStart : Prop :=
  ∀ (s t : State) (i : Instr) (rest : List Byte),
    s.pending = [] → s.phase = .decode → s.rowIdx < rows s → s.rowIdx % 8 = 0 → s.bsCur < s.win.size →
    t = { s with ctrl := inByte s s.bsCur, bsCur := s.bsCur + 1 } →
    decode (.row (controlBit t)) (windowBytes t t.dupCur 2) = .ok (i, rest) →
    exec (.ctrl (inByte s s.bsCur)) s = .next t ∧ step s = precise s (exec i t)

/-- 41 R140, 42 R180, 43 R191, R192, R195: the steps that `PHASE` and the counters select. -/
def Obligations.StepRunsStages : Prop :=
  ∀ s : State, s.pending = [] →
    (s.phase = .decode → s.rowIdx = rows s → step s = exec .fin s) ∧
    (s.phase = .convert → s.p2cIdx < rows s →
      step s = exec (.p2c ⟨dbByte s (4 * s.p2cIdx), dbByte s (4 * s.p2cIdx + 1), dbByte s (4 * s.p2cIdx + 2),
        dbByte s (4 * s.p2cIdx + 3)⟩) s) ∧
    (s.phase = .convert → s.p2cIdx = rows s → step s = exec .gridchk s) ∧
    (s.phase = .assemble → s.placeIdx < tileCount s → step s = exec .place s) ∧
    (s.phase = .assemble → s.placeIdx = tileCount s → step s = exec .afin s)

/-- 70 R264 and, for the order of commands and steps, log 3: a command issued is taken by the next step. -/
def Obligations.StepTakesCommand : Prop :=
  ∀ (s : State) (cs : List Command),
    (∀ m w, s.pending = .start m w :: cs → step s = exec (.start m w) { s with pending := cs }) ∧
    (s.pending = .reset :: cs → step s = exec .reset { s with pending := cs }) ∧
    (∀ k, s.pending = .palx k :: cs → step s = exec (.palx k (palByte s k)) { s with pending := cs })

/-- 41 R142: bit `ROW_IDX mod 8` of the control byte and the first index byte select RAW, DUP1 or DUP2; the control
byte is the one just fetched when the row begins a tile, else the register. -/
def Obligations.ControlBitSelectsRow : Prop :=
  ∀ s : State, s.pending = [] → s.phase = .decode → s.rowIdx < rows s →
    (s.rowIdx % 8 ≠ 0 → indexPresent s s.ctrl → step s = exec (selectedRow s s.ctrl) s) ∧
    (s.rowIdx % 8 = 0 → s.bsCur + 1 ≤ s.win.size → indexPresent s (inByte s s.bsCur) →
      step s = precise s (exec (selectedRow s (inByte s s.bsCur))
        { s with ctrl := inByte s s.bsCur, bsCur := s.bsCur + 1 }))

/-- 20_memory.md R71, 41 R141, R144, R146: an encoding the window does not hold raises the fault of its access, and
the state of the step is the state before it (R149). -/
def Obligations.MissingEncodingFaults : Prop :=
  ∀ s : State, s.pending = [] → s.phase = .decode → s.rowIdx < rows s →
    (s.rowIdx % 8 = 0 → s.win.size < s.bsCur + 1 → step s = .next (raiseFault ⟨.boundsCtrl, s.bsCur⟩ s)) ∧
    (∀ c : Byte, (if s.rowIdx % 8 = 0 then s.bsCur + 1 ≤ s.win.size ∧ c = inByte s s.bsCur else c = s.ctrl) →
      (c.toNat >>> (s.rowIdx % 8)) &&& 1 = 1 →
      (s.win.size < s.dupCur + 1 → step s = .next (raiseFault ⟨.boundsIndex, s.dupCur⟩ s)) ∧
      (s.win.size = s.dupCur + 1 → 0xF0 ≤ (inByte s s.dupCur).toNat →
        step s = .next (raiseFault ⟨.boundsIndex2, s.dupCur + 1⟩ s)))

/-! ### START, HDR, RESET -/

/-- 40 R120, R121: START on an accepted header. Everything the run starts from, and everything it leaves. -/
def Obligations.StartBeginsRun : Prop :=
  ∀ (s : State) (m : Mode) (w : Nat),
    busy s = false → 8 ≤ s.win.size → refHalf (inByte s) 0 = s.magic.toNat → refHalf (inByte s) 6 % 8 = 0 →
    exec (.start m w) s = .next { s with
      modeReg := m, widthReg := w, errCode := .none, errCause := .none, errAddr := 0,
      dupOff := BitVec.ofNat 16 (refHalf (inByte s) 2), artOff := BitVec.ofNat 16 (refHalf (inByte s) 4),
      rowCount := BitVec.ofNat 16 (refHalf (inByte s) 6),
      bsCur := 8, artCur := refHalf (inByte s) 4, dupCur := refHalf (inByte s) 2,
      rowIdx := 0, rawCnt := 0, dupCnt := 0, extent := 0, phase := .decode,
      db := ⟨4 * refHalf (inByte s) 6, []⟩, pxs := ⟨0, []⟩, grid := ⟨0, []⟩ }

/-- 40 R121: HDR on an accepted header. -/
def Obligations.HdrLoadsHeader : Prop :=
  ∀ (s : State) (h : Header),
    busy s = false → 8 ≤ s.win.size → h.magic = s.magic → h.rowCount.toNat % 8 = 0 →
    exec (.hdr h) s = .next { s with
      dupOff := h.dupOff, artOff := h.artOff, rowCount := h.rowCount,
      bsCur := 8, artCur := h.artOff.toNat, dupCur := h.dupOff.toNat,
      rowIdx := 0, rawCnt := 0, dupCnt := 0, extent := 0,
      db := ⟨4 * h.rowCount.toNat, []⟩, phase := .decode }

/-- 40 R121 to R123, 60 R227: the three faults of the header, in their order, for START and for HDR. -/
def Obligations.HeaderFaultsInOrder : Prop :=
  ∀ (s : State) (m : Mode) (w : Nat) (h : Header), busy s = false →
    (s.win.size < 8 →
      exec (.start m w) s = .next (raiseFault ⟨.boundsHeader, 0⟩ s) ∧
      exec (.hdr h) s = .next (raiseFault ⟨.boundsHeader, 0⟩ s)) ∧
    (8 ≤ s.win.size →
      (refHalf (inByte s) 0 ≠ s.magic.toNat → exec (.start m w) s = .next (raiseFault ⟨.badMagic, 0⟩ s)) ∧
      (h.magic ≠ s.magic → exec (.hdr h) s = .next (raiseFault ⟨.badMagic, 0⟩ s)) ∧
      (refHalf (inByte s) 0 = s.magic.toNat → refHalf (inByte s) 6 % 8 ≠ 0 →
        exec (.start m w) s = .next (raiseFault ⟨.partialTile, 6⟩ s)) ∧
      (h.magic = s.magic → h.rowCount.toNat % 8 ≠ 0 →
        exec (.hdr h) s = .next (raiseFault ⟨.partialTile, 6⟩ s)))

/-- 60 R221: FormatError has one cause, only HDR (which START performs) raises it, and it does so exactly on a wrong magic. That
the state of a START that faults is the one before it, its latched inputs undone, is log 20. -/
def Obligations.BadMagicIsFormatError : Prop :=
  (∀ c : ErrCause, errCodeOf c = .formatError ↔ c = .badMagic) ∧
  (∀ (i : Instr) (s t : State), exec i s = .next t → s.errCause ≠ .badMagic → t.errCause = .badMagic →
    (∃ h, i = .hdr h ∧ h.magic ≠ s.magic) ∨
    (∃ m w, i = .start m w ∧ refHalf (inByte s) 0 ≠ s.magic.toNat)) ∧
  (∀ (s : State) (m : Mode) (w : Nat), busy s = false → 8 ≤ s.win.size →
    refHalf (inByte s) 0 ≠ s.magic.toNat → exec (.start m w) s = .next (raiseFault ⟨.badMagic, 0⟩ s)) ∧
  (∀ (s t : State) (m : Mode) (w : Nat), busy s = false → refHalf (inByte s) 0 = s.magic.toNat →
    exec (.start m w) s = .next t → t.errCode ≠ .formatError)

/-- 40 R126 (spec decision D17, log 15): START in a busy phase changes no state. -/
def Obligations.StartWhileBusyIgnored : Prop :=
  ∀ (s : State) (m : Mode) (w : Nat), busy s = true → exec (.start m w) s = .next s

/-- 70 R260, 10_state.md R45 (spec decision D22): RESET from any state, and what is not the named block's stays. -/
def Obligations.ResetClearsRegisters : Prop :=
  ∀ s : State, ∃ t, exec .reset s = .next t ∧
    t.phase = .idle ∧ t.dupOff = 0 ∧ t.artOff = 0 ∧ t.rowCount = 0 ∧ t.bsCur = 0 ∧ t.artCur = 0 ∧ t.dupCur = 0 ∧
    t.ctrl = 0 ∧ t.rowIdx = 0 ∧ t.row = ⟨0, 0, 0, 0⟩ ∧ t.rawCnt = 0 ∧ t.dupCnt = 0 ∧ t.extent = 0 ∧
    t.modeReg = .rawOnly ∧ t.widthReg = 0 ∧ t.errCode = .none ∧ t.errCause = .none ∧ t.errAddr = 0 ∧
    t.p2cIdx = 0 ∧ t.tilesPerRow = 0 ∧ t.height = 0 ∧ t.placeIdx = 0 ∧
    t.db.size = 0 ∧ t.pxs.size = 0 ∧ t.grid.size = 0 ∧
    t.win = s.win ∧ t.magic = s.magic ∧ t.pending = s.pending ∧ t.palIn = s.palIn ∧ t.palOut = s.palOut

/-- 10_state.md R45, 70 R261 (spec decision D22): the state after reset; the window, the commands and the palette that
R45 does not name are the model's choice (log 6). -/
def Obligations.ResetStateValues : Prop :=
  State.reset.phase = .idle ∧ State.reset.modeReg = .rawOnly ∧ State.reset.rowCount = 0 ∧ State.reset.rowIdx = 0 ∧
  State.reset.errCode = .none ∧ State.reset.errCause = .none ∧ State.reset.db.size = 0 ∧ State.reset.pxs.size = 0 ∧
  State.reset.grid.size = 0 ∧ State.reset.win.size = 0 ∧ State.reset.pending = [] ∧
  busy State.reset = false ∧ isDone State.reset = false ∧ faulted State.reset = false ∧
  ∀ s : State, s.win = State.reset.win → s.magic = State.reset.magic → s.pending = [] →
    s.palIn = State.reset.palIn → s.palOut = State.reset.palOut → exec .reset s = .next State.reset

/-! ### The Tile Decompressor -/

/-- 41 R141: CTRL latches the control byte and advances the bitstream cursor; nothing else changes. -/
def Obligations.CtrlLatchesByte : Prop :=
  ∀ (s : State) (c : Byte), s.phase = .decode → s.rowIdx < rows s → s.rowIdx % 8 = 0 → s.bsCur + 1 ≤ s.win.size →
    exec (.ctrl c) s = .next { s with ctrl := c, bsCur := s.bsCur + 1 }

/-- 41 R143, R148, R149: RAW copies the row at `ART_CUR`; its destinations are `ART_CUR`, `RAW_CNT`, `ROW_IDX`, the row
latch and row `ROW_IDX` of `DB`, and everything else is unchanged. -/
def Obligations.RawCopiesRow : Prop :=
  ∀ s : State, s.phase = .decode → s.rowIdx < rows s → s.artCur + 4 ≤ s.win.size →
    ∃ t, exec .raw s = .next t ∧ RowCopied s t s.artCur ∧
      t.artCur = s.artCur + 4 ∧ t.rawCnt = s.rawCnt + 1 ∧
      { t with artCur := s.artCur, rawCnt := s.rawCnt, rowIdx := s.rowIdx, row := s.row, db := s.db } = s

/-- 41 R145, R147 to R149: DUP1 copies the row at `ART_OFF + 4*index` of the window; `ART_CUR` is not advanced. -/
def Obligations.Dup1CopiesRow : Prop :=
  ∀ (s : State) (index : Byte), s.phase = .decode → s.rowIdx < rows s → s.dupCur + 1 ≤ s.win.size →
    s.artOff.toNat + 4 * index.toNat + 4 ≤ s.win.size →
    ∃ t, exec (.dup1 index) s = .next t ∧ RowCopied s t (s.artOff.toNat + 4 * index.toNat) ∧
      t.dupCur = s.dupCur + 1 ∧ t.dupCnt = s.dupCnt + 1 ∧
      { t with dupCur := s.dupCur, dupCnt := s.dupCnt, rowIdx := s.rowIdx, row := s.row, db := s.db } = s

/-- 41 R146 to R149, R156: DUP2 copies the row at `ART_OFF + 4*index`, no modulus, and consumes two index bytes. -/
def Obligations.Dup2CopiesRow : Prop :=
  ∀ (s : State) (index : BitVec 12), s.phase = .decode → s.rowIdx < rows s → s.dupCur + 2 ≤ s.win.size →
    s.artOff.toNat + 4 * index.toNat + 4 ≤ s.win.size →
    ∃ t, exec (.dup2 index) s = .next t ∧ RowCopied s t (s.artOff.toNat + 4 * index.toNat) ∧
      t.dupCur = s.dupCur + 2 ∧ t.dupCnt = s.dupCnt + 1 ∧
      { t with dupCur := s.dupCur, dupCnt := s.dupCnt, rowIdx := s.rowIdx, row := s.row, db := s.db } = s

/-- 60 R222, R225, R227 (spec decisions D8, D13, D14): the faults of CTRL, RAW, DUP1 and DUP2, each with its address,
in the order of the accesses. -/
def Obligations.RowFaultsInOrder : Prop :=
  ∀ (s : State) (c index : Byte) (index2 : BitVec 12), s.phase = .decode → s.rowIdx < rows s →
    (s.rowIdx % 8 = 0 → s.win.size < s.bsCur + 1 →
      exec (.ctrl c) s = .next (raiseFault ⟨.boundsCtrl, s.bsCur⟩ s)) ∧
    (s.win.size < s.artCur + 4 → exec .raw s = .next (raiseFault ⟨.boundsRawRow, s.artCur⟩ s)) ∧
    (s.win.size < s.dupCur + 1 →
      exec (.dup1 index) s = .next (raiseFault ⟨.boundsIndex, s.dupCur⟩ s) ∧
      exec (.dup2 index2) s = .next (raiseFault ⟨.boundsIndex, s.dupCur⟩ s)) ∧
    (s.dupCur + 1 ≤ s.win.size → s.win.size < s.artOff.toNat + 4 * index.toNat + 4 →
      exec (.dup1 index) s = .next (raiseFault ⟨.boundsDupRow, s.artOff.toNat + 4 * index.toNat⟩ s)) ∧
    (s.win.size = s.dupCur + 1 →
      exec (.dup2 index2) s = .next (raiseFault ⟨.boundsIndex2, s.dupCur + 1⟩ s)) ∧
    (s.dupCur + 2 ≤ s.win.size → s.win.size < s.artOff.toNat + 4 * index2.toNat + 4 →
      exec (.dup2 index2) s = .next (raiseFault ⟨.boundsDupRow, s.artOff.toNat + 4 * index2.toNat⟩ s))

/-- 60 R228, R229 (spec decision D15): whatever operation raises a fault, the fault record and the phase change and
nothing else does. -/
def Obligations.FaultEntryIsPrecise : Prop :=
  ∀ (i : Instr) (s t : State), s.phase ≠ .fault → exec i s = .next t → t.phase = .fault →
    t.errCause ≠ .none ∧ t.errCode = errCodeOf t.errCause ∧
    { t with errCode := s.errCode, errCause := s.errCause, errAddr := s.errAddr, phase := s.phase } = s

/-- 41 R149, 60 R229 (spec decision D15): a whole step that faults, a tile's first row with its control-byte fetch
included, commits nothing but the fault; the command it took is gone (log 3). -/
def Obligations.StepFaultIsPrecise : Prop :=
  ∀ s t : State, s.phase ≠ .fault → step s = .next t → t.phase = .fault →
    t.errCause ≠ .none ∧ t.errCode = errCodeOf t.errCause ∧
    { t with errCode := s.errCode, errCause := s.errCause, errAddr := s.errAddr, phase := s.phase,
             pending := s.pending } = s ∧
    t.pending = s.pending.tail

/-- 60 R230, 70 R270 (spec decision D16), log 4 and log 7: at rest and without a command the state does not change, and
in FAULT no operation of the Decompressor, the Converter or the Assembler runs. -/
def Obligations.NothingRunsAtRest : Prop :=
  (∀ s : State, s.pending = [] → (s.phase = .idle ∨ s.phase = .done ∨ s.phase = .fault) → step s = .next s) ∧
  (∀ (s : State) (c b : Byte) (x : BitVec 12) (r : Row), s.phase = .fault →
    ∀ i ∈ [Instr.ctrl c, .raw, .dup1 b, .dup2 x, .fin, .p2c r, .gridchk, .place, .afin],
      ∃ name, exec i s = .refused (.notEnabled name))

/-- 41 R150: FIN reports the larger cursor and ends the run or enters the Converter. -/
def Obligations.FinEndsDecompression : Prop :=
  ∀ s : State, s.phase = .decode → s.rowIdx = rows s →
    (s.modeReg = .rawOnly → exec .fin s = .next { s with extent := max s.artCur s.dupCur, phase := .done }) ∧
    (s.modeReg = .raster → exec .fin s = .next { s with
      extent := max s.artCur s.dupCur, pxs := ⟨8 * rows s, []⟩, p2cIdx := 0, phase := .convert })

/-! ### The Planar-to-Chunky Converter -/

/-- 42 R181: P2C turns a row into eight pixels by the formula, and the step takes the row from `DB`. Its destinations
are `P2C_IDX` and the eight pixels of `PXS`; everything else is unchanged. -/
def Obligations.P2cConvertsRow : Prop :=
  (∀ (s : State) (r : Row), s.phase = .convert → s.p2cIdx < rows s →
    ∃ t, exec (.p2c r) s = .next t ∧ t.p2cIdx = s.p2cIdx + 1 ∧
      (∀ p, p < 8 → ∃ v, cellGet t.pxs.cells (8 * s.p2cIdx + p) = some v ∧
        v.toNat = ((r.plane3.toNat >>> (7 - p)) &&& 1) <<< 3 ||| ((r.plane2.toNat >>> (7 - p)) &&& 1) <<< 2 |||
          ((r.plane1.toNat >>> (7 - p)) &&& 1) <<< 1 ||| ((r.plane0.toNat >>> (7 - p)) &&& 1)) ∧
      (∀ a, a < 8 * s.p2cIdx ∨ 8 * s.p2cIdx + 8 ≤ a → cellGet t.pxs.cells a = cellGet s.pxs.cells a) ∧
      t.pxs.size = s.pxs.size ∧
      { t with p2cIdx := s.p2cIdx, pxs := s.pxs } = s) ∧
  (∀ s : State, s.pending = [] → s.phase = .convert → s.p2cIdx < rows s →
    step s = exec (.p2c ⟨dbByte s (4 * s.p2cIdx), dbByte s (4 * s.p2cIdx + 1), dbByte s (4 * s.p2cIdx + 2),
      dbByte s (4 * s.p2cIdx + 3)⟩) s)

/-- 42 R185 (b), an inference the spec marks as its own: every row comes back from its eight pixels by the inverse
formula, and every eight pixels come from a row. -/
def Obligations.P2cIsBijective : Prop :=
  (∀ (r : Row) (j : Nat), j < 8 →
    r.plane0.getLsbD j = (rowPixel r (7 - j)).getLsbD 0 ∧ r.plane1.getLsbD j = (rowPixel r (7 - j)).getLsbD 1 ∧
    r.plane2.getLsbD j = (rowPixel r (7 - j)).getLsbD 2 ∧ r.plane3.getLsbD j = (rowPixel r (7 - j)).getLsbD 3) ∧
  (∀ pix : Nat → Pixel, ∃ r : Row, ∀ p, p < 8 → rowPixel r p = pix p)

/-- 42 R184, 90_conflicts.md C1: the step turns a row `FF 00 FF 00` of `DB` into eight pixels of value 5, and
`00 FF 00 FF` into eight of value 10. -/
def Obligations.CorrectedPixelVector : Prop :=
  ∀ s : State, s.pending = [] → s.phase = .convert → s.p2cIdx < rows s →
    (dbRowBytes s = [0xFF#8, 0x00#8, 0xFF#8, 0x00#8] →
      ∃ t, step s = .next t ∧ ∀ p, p < 8 → cellGet t.pxs.cells (8 * s.p2cIdx + p) = some 5#4) ∧
    (dbRowBytes s = [0x00#8, 0xFF#8, 0x00#8, 0xFF#8] →
      ∃ t, step s = .next t ∧ ∀ p, p < 8 → cellGet t.pxs.cells (8 * s.p2cIdx + p) = some 10#4)

/-! ### The Tile Raster Assembler -/

/-- 43 R191: GRIDCHK on a layout that fits. -/
def Obligations.GridchkSizesGrid : Prop :=
  ∀ s : State, s.phase = .convert → s.p2cIdx = rows s → s.widthReg ≠ 0 → s.widthReg % 8 = 0 →
    tileCount s % (s.widthReg / 8) = 0 →
    exec .gridchk s = .next { s with
      tilesPerRow := s.widthReg / 8, height := tileCount s / (s.widthReg / 8) * 8,
      grid := ⟨s.widthReg * (tileCount s / (s.widthReg / 8) * 8), []⟩, placeIdx := 0, phase := .assemble }

/-- 43 R191, 60 R223, R227 (spec decision D19): the faults of GRIDCHK, the width first. -/
def Obligations.GridchkFaultsInOrder : Prop :=
  ∀ s : State, s.phase = .convert → s.p2cIdx = rows s →
    (s.widthReg = 0 ∨ s.widthReg % 8 ≠ 0 → exec .gridchk s = .next (raiseFault ⟨.badWidth, 0⟩ s)) ∧
    (s.widthReg ≠ 0 → s.widthReg % 8 = 0 → tileCount s % (s.widthReg / 8) ≠ 0 →
      exec .gridchk s = .next (raiseFault ⟨.tilesNotDivisible, 0⟩ s))

/-- 43 R192, R193: PLACE puts the 64 pixels of tile `PLACE_IDX` at their addresses. The premise on the width is the
invariant GRIDCHK establishes (RunInvKept). Its destinations are `PLACE_IDX` and those 64 pixels. -/
def Obligations.PlacePutsTile : Prop :=
  ∀ s : State, s.phase = .assemble → s.placeIdx < tileCount s → 0 < s.tilesPerRow → s.widthReg = 8 * s.tilesPerRow →
    ∃ t, exec .place s = .next t ∧ t.placeIdx = s.placeIdx + 1 ∧
      (∀ x y, x < 8 → y < 8 →
        cellGet t.grid.cells ((8 * (s.placeIdx / s.tilesPerRow) + y) * s.widthReg +
          (8 * (s.placeIdx % s.tilesPerRow) + x)) = some (pxsPixel s (64 * s.placeIdx + 8 * y + x))) ∧
      (∀ a, (∀ x y, x < 8 → y < 8 → a ≠ (8 * (s.placeIdx / s.tilesPerRow) + y) * s.widthReg +
          (8 * (s.placeIdx % s.tilesPerRow) + x)) → cellGet t.grid.cells a = cellGet s.grid.cells a) ∧
      t.grid.size = s.grid.size ∧
      { t with placeIdx := s.placeIdx, grid := s.grid } = s

/-- 43 R193: the tile and the pixel that a grid position comes from, and the position they go to, undo each other. -/
def Obligations.PlacementIsInvertible : Prop :=
  ∀ tpr : Nat, 0 < tpr →
    (∀ t x y, x < 8 → y < 8 →
      gridAddress (8 * tpr) tpr t x y / (8 * tpr) = 8 * (t / tpr) + y ∧
      gridAddress (8 * tpr) tpr t x y % (8 * tpr) = 8 * (t % tpr) + x) ∧
    (∀ X Y, X < 8 * tpr →
      gridAddress (8 * tpr) tpr (Y / 8 * tpr + X / 8) (X % 8) (Y % 8) = Y * (8 * tpr) + X)

/-- 43 R194, an inference the spec marks as its own: the tiles cover the grid, each element once, and nothing outside it. -/
def Obligations.GridCoveredOnce : Prop :=
  ∀ tpr n : Nat, 0 < tpr → n % tpr = 0 →
    (∀ t x y, t < n → x < 8 → y < 8 → gridAddress (8 * tpr) tpr t x y < 8 * tpr * (n / tpr * 8)) ∧
    (∀ a, a < 8 * tpr * (n / tpr * 8) → ∃ t x y, t < n ∧ x < 8 ∧ y < 8 ∧ gridAddress (8 * tpr) tpr t x y = a) ∧
    (∀ t x y t' x' y', x < 8 → y < 8 → x' < 8 → y' < 8 →
      gridAddress (8 * tpr) tpr t x y = gridAddress (8 * tpr) tpr t' x' y' → t = t' ∧ x = x' ∧ y = y')

/-- 43 R195: AFIN hands the outputs over; only the phase changes. -/
def Obligations.AfinCompletesRun : Prop :=
  ∀ s : State, s.phase = .assemble → s.placeIdx = tileCount s → exec .afin s = .next { s with phase := .done }

/-! ### The Palette Expander -/

/-- 44 R211: PALX expands the byte of entry `k`; bits 7:6 are ignored, and only entry `k` of `PALOUT` changes. That the
request for entry `k` reaches the unit with `PALIN[k]` at the next step, from a queue of commands, is the model's choice
(log 3, log 12). -/
def Obligations.PalxExpandsByte : Prop :=
  (∀ (s : State) (k : Nat) (b : Byte), k < s.palIn.size →
    ∃ t c, exec (.palx k b) s = .next t ∧ cellGet t.palOut.cells k = some c ∧
      c.red = extendChannel (b.extractLsb' 0 2) ∧ c.green = extendChannel (b.extractLsb' 2 2) ∧
      c.blue = extendChannel (b.extractLsb' 4 2) ∧
      (∀ j, j ≠ k → cellGet t.palOut.cells j = cellGet s.palOut.cells j) ∧
      t.palOut.size = s.palOut.size ∧
      { t with palOut := s.palOut } = s) ∧
  (∀ (s : State) (k : Nat) (cs : List Command), s.pending = .palx k :: cs →
    step s = exec (.palx k (palByte s k)) { s with pending := cs })

/-- 44 R212: `extend` replicates the two bits over the byte, which is multiplication by `0x55`, and the three channels
that PALX writes are the three fields of the palette byte so extended. -/
def Obligations.ExtendReplicates : Prop :=
  (∀ v : BitVec 2, extendChannel v =
      v.setWidth 8 ||| v.setWidth 8 <<< 2 ||| v.setWidth 8 <<< 4 ||| v.setWidth 8 <<< 6 ∧
    (extendChannel v).toNat = v.toNat * 0x55) ∧
  (extendChannel 0 = 0x00#8 ∧ extendChannel 1 = 0x55#8 ∧ extendChannel 2 = 0xAA#8 ∧ extendChannel 3 = 0xFF#8) ∧
  (∀ (s : State) (k : Nat) (b : Byte), k < s.palIn.size →
    ∃ t c, exec (.palx k b) s = .next t ∧ cellGet t.palOut.cells k = some c ∧
      c.red.toNat = b.toNat % 4 * 0x55 ∧ c.green.toNat = b.toNat / 4 % 4 * 0x55 ∧
      c.blue.toNat = b.toNat / 16 % 4 * 0x55)

/-- 44 R213: the order in which two entries are processed is not observable. -/
def Obligations.PaletteOrderFree : Prop :=
  ∀ (s : State) (j k : Nat) (b c : Byte), Memory.wf s → j ≠ k → j < s.palIn.size → k < s.palIn.size →
    ∃ t u v, exec (.palx j b) s = .next t ∧ exec (.palx k c) t = .next v ∧
      exec (.palx k c) s = .next u ∧ exec (.palx j b) u = .next v

/-- 44 R210 (spec decision D29): no operation of the named block touches the companion unit's memories. -/
def Obligations.PaletteIsApart : Prop :=
  ∀ (i : Instr) (s t : State), exec i s = .next t → (∀ k b, i ≠ .palx k b) →
    t.palIn = s.palIn ∧ t.palOut = s.palOut

/-! ### The whole machine -/

/-- 10_state.md R27 (spec decision D1), 40 R120, R126, 70 R260: only these phase transitions exist. -/
def Obligations.PhaseMovesAreLegal : Prop :=
  (∀ s t : State, s.pending = [] → step s = .next t → hardwareMove s.phase t.phase = true) ∧
  (∀ (s t : State) (cs : List Command),
    (∀ m w, s.pending = .start m w :: cs → step s = .next t →
      if busy s = true then t.phase = s.phase else t.phase = .decode ∨ t.phase = .fault) ∧
    (s.pending = .reset :: cs → step s = .next t → t.phase = .idle) ∧
    (∀ k, s.pending = .palx k :: cs → step s = .next t → t.phase = s.phase))

/-- 20_memory.md R61: no step writes `IN` or `W`, and the host can present another only while no run is in progress. -/
def Obligations.WindowNeverWritten : Prop :=
  (∀ s t : State, step s = .next t → t.win = s.win ∧ t.magic = s.magic ∧ t.palIn = s.palIn) ∧
  (∀ (s : State) (bytes : List Byte), busy s = true → presentWindow bytes s = .refused .hostDuty)

/-- Log 9, log 10: every step keeps every memory in its canonical form. -/
def Obligations.MemoryCanonicalKept : Prop :=
  ∀ s t : State, Memory.wf s → step s = .next t → Memory.wf t

/-- 41 R151, R150, 42 R180, 43 R191, R192: every step, a host command included, keeps the sequencing invariant. -/
def Obligations.RunInvKept : Prop :=
  ∀ s t : State, RunInv s → step s = .next t → RunInv t

/-- 20_memory.md R62, R63, 42 R181, R183, 43 R193, R194: every step keeps which elements of the output memories are written so
far, every pixel of `PXS` the formula on `DB`, and every pixel of `GRID` the pixel of `PXS` placed there. What the
bytes of `DB` are is stated by RawCopiesRow, Dup1CopiesRow, Dup2CopiesRow and RawRunIsDecompress. -/
def Obligations.OutputInvKept : Prop :=
  ∀ s t : State, RunInv s → OutputInv s → step s = .next t → OutputInv t

/-- 10_state.md R37, 60 R224, R228: every step keeps the fault record and the phase in agreement. -/
def Obligations.FaultRecordKept : Prop :=
  ∀ s t : State, FaultRecordInv s → step s = .next t → FaultRecordInv t

/-- 10_state.md R45: the invariants hold after reset. -/
def Obligations.InvariantsAtReset : Prop :=
  Memory.wf State.reset ∧ RunInv State.reset ∧ OutputInv State.reset ∧ FaultRecordInv State.reset

/-- 00_scope.md R8, 10_state.md R25 to R39: in every phase of a run that has a use for it, and in DONE, each cursor and counter
is inside its width: the decompressor's from DECODE on, EXTENT from FIN on in both modes, the later stages' registers
from the step that sets them, in RASTER mode. The 16-bit bound on `WIDTH_REG` is R36's "16 bits suffice", and the naturals
are log 5. -/
def Obligations.RegistersFitWidths : Prop :=
  ∀ s : State, RunInv s → s.phase ≠ .idle → s.phase ≠ .fault →
    (s.bsCur ≤ 8199 ∧ s.artCur ≤ 327647 ∧ s.dupCur ≤ 196591 ∧ 327647 < 2 ^ Config.addrW) ∧
    (s.rowIdx < 2 ^ 16 ∧ s.rawCnt < 2 ^ 16 ∧ s.dupCnt < 2 ^ 16 ∧ tileCount s < 2 ^ 13) ∧
    (s.phase ≠ .decode → s.extent < 2 ^ Config.addrW) ∧
    (s.phase = .convert ∨ s.phase = .assemble ∨ (s.phase = .done ∧ s.modeReg = .raster) → s.p2cIdx < 2 ^ 16) ∧
    (s.phase = .assemble ∨ (s.phase = .done ∧ s.modeReg = .raster) → s.widthReg < 2 ^ 16 →
      s.tilesPerRow < 2 ^ 13 ∧ s.placeIdx < 2 ^ 13 ∧ s.height < 2 ^ 16 ∧ s.grid.size ≤ 524224)

/-- 70 R274, an inference the spec draws: in a busy phase the hardware is never stuck. In IDLE, DONE and FAULT the spec
enables no step (60 R230, R240); that the model's step answers a next state there too is log 4 (NothingRunsAtRest says
which). -/
def Obligations.HardwareNeverStuck : Prop :=
  ∀ s : State, RunInv s → s.pending = [] → ∃ t, step s = .next t

/-- 41 R152, 70 R272: a step that does not fault leaves exactly one step fewer, and START sets the counts of R272. -/
def Obligations.StepsCountDown : Prop :=
  (∀ s t : State, RunInv s → s.pending = [] → busy s = true → step s = .next t → t.phase ≠ .fault →
    stepsLeft t + 1 = stepsLeft s) ∧
  (∀ (s t : State) (m : Mode) (w : Nat), busy s = false → exec (.start m w) s = .next t → t.phase ≠ .fault →
    stepsLeft t + 1 = match m with
      | .rawOnly => rows t + 2
      | .raster => 2 * rows t + tileCount t + 4)

/-- 70 R274: every run ends, after at most the steps it has left. -/
def Obligations.RunEnds : Prop :=
  ∀ (s : State) (n : Nat), RunInv s → s.pending = [] → stepsLeft s ≤ n →
    ∃ t, Host.Core.run core n s = .next t ∧ busy t = false

/-- 41 R153: in DONE, `DB` has `4 * ROW_COUNT` bytes and every one of them has been written. -/
def Obligations.DoneBufferComplete : Prop :=
  ∀ s : State, RunInv s → OutputInv s → s.phase = .done →
    s.db.size = 4 * rows s ∧ ∀ a, a < 4 * rows s → ∃ v, cellGet s.db.cells a = some v

/-- 43 R193, R194, R197: in DONE after a raster run, every element of the grid is the pixel of `DB` that the inverse
placement formula names, and the layout is the one the reference accepts. -/
def Obligations.DoneGridIsImage : Prop :=
  ∀ s : State, RunInv s → OutputInv s → s.phase = .done → s.modeReg = .raster →
    assembleHeight (tileCount s) s.widthReg = .ok s.height ∧ s.grid.size = s.widthReg * s.height ∧
    ∀ X Y, X < s.widthReg → Y < s.height → ∃ v, cellGet s.grid.cells (Y * s.widthReg + X) = some v ∧
      v.toNat = assembleAt (convertAt (dbByte s)) s.widthReg X Y

/-- 41 R155: from any state at rest, START(RAW_ONLY) and the steps after it give what the reference decompressor gives
on the same window, fault or buffer, counts and extent. 65530 is R272's count for the longest stream. -/
def Obligations.RawRunIsDecompress : Prop :=
  ∀ (s : State) (w n : Nat), busy s = false → s.pending = [.start .rawOnly w] → 65530 ≤ n →
    ∃ t, Host.Core.run core n s = .next t ∧
      match decompress (inByte s) s.win.size s.magic.toNat with
      | .ok out => t.phase = .done ∧ t.rawCnt = out.rawCnt ∧ t.dupCnt = out.dupCnt ∧ t.extent = out.extent ∧
          t.db.size = out.db.length ∧ ∀ a, a < out.db.length → cellGet t.db.cells a = out.db[a]?
      | .error e => t.phase = .fault ∧ t.errCause = e.cause ∧ t.errAddr = e.addr

/-- 41 R155, 42 R185, 43 R197, 60 R226: the same for START(RASTER): the fault of the decompression, else that of the
layout, else the buffer of the reference decompressor and the grid the reference assembler gives on it converted. -/
def Obligations.RasterRunIsAssemble : Prop :=
  ∀ (s : State) (w n : Nat), busy s = false → s.pending = [.start .raster w] → 139251 ≤ n →
    ∃ t, Host.Core.run core n s = .next t ∧
      match decompress (inByte s) s.win.size s.magic.toNat with
      | .error e => t.phase = .fault ∧ t.errCause = e.cause ∧ t.errAddr = e.addr
      | .ok out =>
        match assembleHeight (refHalf (inByte s) 6 / 8) w with
        | .error e => t.phase = .fault ∧ t.errCause = e.cause ∧ t.errAddr = e.addr
        | .ok height => t.phase = .done ∧ t.height = height ∧ t.grid.size = w * height ∧
            t.rawCnt = out.rawCnt ∧ t.dupCnt = out.dupCnt ∧ t.extent = out.extent ∧
            t.db.size = out.db.length ∧ (∀ a, a < out.db.length → cellGet t.db.cells a = out.db[a]?) ∧
            ∀ X Y, X < w → Y < height → ∃ v, cellGet t.grid.cells (Y * w + X) = some v ∧
              v.toNat = assembleAt (convertAt fun a => out.db.getD a 0) w X Y

/-- 41 R154: a tile whose control byte is `0xFF` performs 8 duplicated rows, consumes 8 bytes and one more for every
two-byte index, and each row is the art-data row its index names. -/
def Obligations.DuplicateTileConsumes : Prop :=
  ∀ s t : State, s.pending = [] → s.phase = .decode → s.rowIdx % 8 = 0 → s.rowIdx + 8 ≤ rows s →
    s.bsCur < s.win.size → inByte s s.bsCur = 0xFF#8 →
    Host.Core.run core 8 s = .next t → t.phase = .decode →
    t.rowIdx = s.rowIdx + 8 ∧ t.dupCnt = s.dupCnt + 8 ∧ t.rawCnt = s.rawCnt ∧ t.artCur = s.artCur ∧
    t.dupCur = s.dupCur + 8 + ((refIndices (inByte s) s.dupCur 8).filter fun p => p.2 = 2).length ∧
    ∀ i k, i < 8 → k < 4 → cellGet t.db.cells (4 * (s.rowIdx + i) + k) =
      some (inByte s (s.artOff.toNat + 4 * ((refIndices (inByte s) s.dupCur 8).getD i (0, 0)).1 + k))

/-- 00_scope.md R12, 70 R262, R270: no state carries from one run to the next. From two states at rest with the same window and
the same magic marker, the same START gives, after any number of steps, states that are in one phase, in which the same
ports are meaningful and each of those reads the same. That START waits as a command is log 3, that steps go on at rest
is log 4. -/
def Obligations.RunsAreIndependent : Prop :=
  ∀ (s s' : State) (m : Mode) (w n : Nat), busy s = false → busy s' = false → s.win = s'.win → s.magic = s'.magic →
    s.pending = [.start m w] → s'.pending = [.start m w] → 1 ≤ n →
    ∃ t t', Host.Core.run core n s = .next t ∧ Host.Core.run core n s' = .next t' ∧ t.phase = t'.phase ∧
      ∀ (k : Nat) (p : HostPort), meaningful p t = meaningful p t' ∧
        (meaningful p t = true → hostRead k p t = hostRead k p t')

/-! ### The host's side -/

/-- 10_state.md R42, R47, 70 R264, R266, 60 R231 (spec decisions D2, D15, D23), log 11: the fault record is read in FAULT, the
results in DONE, the phase always. Outside those phases, and at an address the memory does not have, the read is an
unspecified value. The phase is that of the state read, also while a command waits (log 30). -/
def Obligations.HostReadsAreGated : Prop :=
  ∀ (s : State) (n : Nat),
    hostRead n .phase s = .phase s.phase ∧ hostRead n .busy s = .flag (busy s) ∧
    hostRead n .done s = .flag (isDone s) ∧ hostRead n .faulted s = .flag (faulted s) ∧
    (s.phase = .fault →
      hostRead n .errCode s = .number (errCodeNumber s.errCode) ∧
      hostRead n .errCause s = .number (errCauseNumber s.errCause) ∧
      hostRead n .errAddr s = .number s.errAddr) ∧
    (s.phase = .done →
      hostRead n .dupOff s = .number s.dupOff.toNat ∧ hostRead n .artOff s = .number s.artOff.toNat ∧
      hostRead n .rowCount s = .number s.rowCount.toNat ∧ hostRead n .rawCnt s = .number s.rawCnt ∧
      hostRead n .dupCnt s = .number s.dupCnt ∧ hostRead n .extent s = .number s.extent ∧
      (∀ a, a < s.db.size → hostRead n (.dbByte a) s = .number (dbByte s a).toNat) ∧
      (s.modeReg = .raster → hostRead n .height s = .number s.height ∧
        ∀ a v, a < s.grid.size → cellGet s.grid.cells a = some v → hostRead n (.gridPixel a) s = .number v.toNat)) ∧
    (s.phase ≠ .fault → ∀ p ∈ [HostPort.errCode, .errCause, .errAddr],
      hostRead n p s = .number (Config.unspecifiedRead p n)) ∧
    (s.phase ≠ .done →
      (∀ p ∈ [HostPort.dupOff, .artOff, .rowCount, .rawCnt, .dupCnt, .extent],
        hostRead n p s = .number (Config.unspecifiedRead p n)) ∧
      ∀ a, hostRead n (.dbByte a) s = .number (Config.unspecifiedRead (.dbByte a) n)) ∧
    (s.phase ≠ .done ∨ s.modeReg = .rawOnly →
      hostRead n .height s = .number (Config.unspecifiedRead .height n) ∧
      ∀ a, hostRead n (.gridPixel a) s = .number (Config.unspecifiedRead (.gridPixel a) n)) ∧
    (∀ a, s.db.size ≤ a → hostRead n (.dbByte a) s = .number (Config.unspecifiedRead (.dbByte a) n)) ∧
    (∀ a, s.grid.size ≤ a → hostRead n (.gridPixel a) s = .number (Config.unspecifiedRead (.gridPixel a) n)) ∧
    (∀ p, meaningful p s = false → hostRead n p s = .number (Config.unspecifiedRead p n))

/-- 20_memory.md R61, 70 R264 (log 1, log 10): outside a run the host presents a window, whose bytes are then `IN`; nothing else
changes. With a START issued and not yet taken the spec has no such move, and that it is accepted is log 27. -/
def Obligations.WindowPresentedAtRest : Prop :=
  ∀ (s : State) (bytes : List Byte), busy s = false →
    ∃ t, presentWindow bytes s = .next t ∧ t.win.size = bytes.length ∧ RegionCanonical t.win ∧
      (∀ a, a < bytes.length → inByte t a = bytes.getD a 0) ∧ { t with win := s.win } = s

/-- 60 R224 (spec decision D13): in FAULT, with the record as fault entry leaves it, the host reads one row of the
table of fault kinds and causes. -/
def Obligations.FaultNumbers : Prop :=
  ∀ (s : State) (n : Nat), s.phase = .fault → FaultRecordInv s →
    ∃ row ∈ [(ErrCause.badMagic, 1, 1), (.boundsHeader, 2, 1), (.boundsCtrl, 2, 2), (.boundsRawRow, 2, 3),
        (.boundsIndex, 2, 4), (.boundsIndex2, 2, 5), (.boundsDupRow, 2, 6), (.partialTile, 2, 7),
        (.badWidth, 3, 1), (.tilesNotDivisible, 3, 2)],
      s.errCause = row.1 ∧ hostRead n .errCode s = .number row.2.1 ∧ hostRead n .errCause s = .number row.2.2
end

