-- ==== Sys2Proof/Laws/Memory.lean ====
section
/-! SUPPORT. The laws of the memory operations: a read after a write to the same place gives what was written, a write
leaves every other place alone, and every operation keeps the canonical form. -/

namespace Sys2Proof.Machine

variable {α : Type}

/-! ### One cell -/

@[simp] theorem cellGet_nil (a : Nat) : cellGet ([] : List (Nat × α)) a = none := rfl

theorem cellGet_cellPut (m : List (Nat × α)) (a : Nat) (v : α) (c : Nat) :
    cellGet (cellPut m a v) c = if c = a then some v else cellGet m c := by
  induction m with
  | nil => simp [cellPut, cellGet]
  | cons p m ih =>
    obtain ⟨b, u⟩ := p
    by_cases h1 : a < b
    · simp [cellPut, h1, cellGet]
    · by_cases h2 : a = b
      · subst h2
        by_cases h3 : c = a <;> simp [cellPut, cellGet, h3]
      · by_cases h3 : c = b
        · subst h3
          simp [cellPut, h1, h2, cellGet, Ne.symm h2]
        · simp [cellPut, h1, h2, cellGet, h3, ih]

@[simp] theorem cellGet_cellPut_same (m : List (Nat × α)) (a : Nat) (v : α) :
    cellGet (cellPut m a v) a = some v := by simp [cellGet_cellPut]

theorem cellGet_cellPut_other (m : List (Nat × α)) {a c : Nat} (v : α) (h : c ≠ a) :
    cellGet (cellPut m a v) c = cellGet m c := by simp [cellGet_cellPut, h]

theorem cellGet_eq_none_of_forall_ne (m : List (Nat × α)) (a : Nat) (h : ∀ p ∈ m, p.1 ≠ a) :
    cellGet m a = none := by
  induction m with
  | nil => rfl
  | cons p m ih =>
    have h1 : a ≠ p.1 := fun e => h p (by simp) e.symm
    simp only [cellGet, h1, if_false]
    exact ih fun q hq => h q (by simp [hq])

theorem mem_of_cellGet_eq_some {m : List (Nat × α)} {a : Nat} {v : α} (h : cellGet m a = some v) :
    (a, v) ∈ m := by
  induction m with
  | nil => simp at h
  | cons p m ih =>
    obtain ⟨b, u⟩ := p
    by_cases hab : a = b
    · subst hab
      simp_all [cellGet]
    · simp only [cellGet, hab, if_false] at h
      exact List.mem_cons_of_mem _ (ih h)

theorem cellGet_of_mem {m : List (Nat × α)} (hs : CellsSorted m) {a : Nat} {v : α} (h : (a, v) ∈ m) :
    cellGet m a = some v := by
  induction m with
  | nil => simp at h
  | cons p m ih =>
    obtain ⟨b, u⟩ := p
    rw [CellsSorted, List.pairwise_cons] at hs
    rcases List.mem_cons.mp h with e | h'
    · cases e
      simp [cellGet]
    · have : b < a := hs.1 _ h'
      have hne : a ≠ b := by omega
      simp only [cellGet, hne, if_false]
      exact ih hs.2 h'

theorem cellGet_cellDel {m : List (Nat × α)} (hs : CellsSorted m) (a c : Nat) :
    cellGet (cellDel m a) c = if c = a then none else cellGet m c := by
  induction m with
  | nil => simp [cellDel]
  | cons p m ih =>
    obtain ⟨b, u⟩ := p
    rw [CellsSorted, List.pairwise_cons] at hs
    by_cases hab : a = b
    · subst hab
      by_cases hca : c = a
      · subst hca
        simp only [cellDel, if_true]
        exact cellGet_eq_none_of_forall_ne m c fun q hq => by have := hs.1 q hq; omega
      · simp [cellDel, cellGet, hca]
    · by_cases hcb : c = b
      · subst hcb
        simp [cellDel, hab, cellGet, Ne.symm hab]
      · simp [cellDel, hab, cellGet, hcb, ih hs.2]

theorem mem_cellPut {m : List (Nat × α)} {a : Nat} {v : α} {p : Nat × α} (h : p ∈ cellPut m a v) :
    p = (a, v) ∨ p ∈ m := by
  induction m with
  | nil => simpa [cellPut] using h
  | cons q m ih =>
    obtain ⟨b, u⟩ := q
    simp only [cellPut] at h
    split at h
    · simpa using h
    · split at h
      · rcases List.mem_cons.mp h with h | h
        · exact .inl h
        · exact .inr (by simp [h])
      · rcases List.mem_cons.mp h with h | h
        · exact .inr (by simp [h])
        · rcases ih h with h | h
          · exact .inl h
          · exact .inr (by simp [h])

theorem mem_cellDel {m : List (Nat × α)} {a : Nat} {p : Nat × α} (h : p ∈ cellDel m a) : p ∈ m := by
  induction m with
  | nil => simp [cellDel] at h
  | cons q m ih =>
    obtain ⟨b, u⟩ := q
    simp only [cellDel] at h
    split at h
    · simp [h]
    · rcases List.mem_cons.mp h with h | h
      · simp [h]
      · simp [ih h]

theorem cellPut_sorted {m : List (Nat × α)} (hs : CellsSorted m) (a : Nat) (v : α) :
    CellsSorted (cellPut m a v) := by
  induction m with
  | nil => simp [cellPut, CellsSorted]
  | cons p m ih =>
    obtain ⟨b, u⟩ := p
    rw [CellsSorted, List.pairwise_cons] at hs
    simp only [cellPut]
    split
    · rw [CellsSorted, List.pairwise_cons, List.pairwise_cons]
      refine ⟨fun q hq => ?_, hs.1, hs.2⟩
      rcases List.mem_cons.mp hq with h | h
      · subst h; assumption
      · have := hs.1 q h; omega
    · split
      · rw [CellsSorted, List.pairwise_cons]
        exact ⟨fun q hq => by have := hs.1 q hq; omega, hs.2⟩
      · rw [CellsSorted, List.pairwise_cons]
        refine ⟨fun q hq => ?_, ih hs.2⟩
        rcases mem_cellPut hq with h | h
        · subst h; show b < a; omega
        · exact hs.1 q h

theorem cellDel_sorted {m : List (Nat × α)} (hs : CellsSorted m) (a : Nat) : CellsSorted (cellDel m a) := by
  induction m with
  | nil => simp [cellDel, CellsSorted]
  | cons p m ih =>
    obtain ⟨b, u⟩ := p
    rw [CellsSorted, List.pairwise_cons] at hs
    simp only [cellDel]
    split
    · exact hs.2
    · rw [CellsSorted, List.pairwise_cons]
      exact ⟨fun q hq => hs.1 q (mem_cellDel hq), ih hs.2⟩

/-! ### Output memories -/

@[simp] theorem bufPutAll_nil (b : Buffer α) : bufPutAll b [] = b := rfl

@[simp] theorem bufPutAll_cons (b : Buffer α) (p : Nat × α) (ws : List (Nat × α)) :
    bufPutAll b (p :: ws) = bufPutAll { b with cells := cellPut b.cells p.1 p.2 } ws := rfl

@[simp] theorem bufPutAll_size (b : Buffer α) (ws : List (Nat × α)) : (bufPutAll b ws).size = b.size := by
  induction ws generalizing b with
  | nil => rfl
  | cons p ws ih => simp [ih]

theorem bufPutAll_sorted {b : Buffer α} (hs : CellsSorted b.cells) (ws : List (Nat × α)) :
    CellsSorted (bufPutAll b ws).cells := by
  induction ws generalizing b with
  | nil => exact hs
  | cons p ws ih => exact ih (cellPut_sorted hs _ _)

/-- A place no element is written to reads as before. -/
theorem cellGet_bufPutAll_other (b : Buffer α) (ws : List (Nat × α)) (a : Nat) (h : ∀ p ∈ ws, p.1 ≠ a) :
    cellGet (bufPutAll b ws).cells a = cellGet b.cells a := by
  induction ws generalizing b with
  | nil => rfl
  | cons p ws ih =>
    rw [bufPutAll_cons, ih _ fun q hq => h q (by simp [hq])]
    exact cellGet_cellPut_other _ _ fun e => h p (by simp) e.symm

/-- A place written once reads as what was written there. -/
theorem cellGet_bufPutAll_mem (b : Buffer α) (ws : List (Nat × α)) (hn : (ws.map Prod.fst).Nodup)
    {a : Nat} {v : α} (h : (a, v) ∈ ws) : cellGet (bufPutAll b ws).cells a = some v := by
  induction ws generalizing b with
  | nil => simp at h
  | cons p ws ih =>
    rw [List.map_cons, List.nodup_cons] at hn
    rw [bufPutAll_cons]
    rcases List.mem_cons.mp h with e | h'
    · cases e
      have hne : ∀ q ∈ ws, q.1 ≠ a := fun q hq e => hn.1 (List.mem_map.mpr ⟨q, hq, e⟩)
      rw [cellGet_bufPutAll_other _ _ _ hne]
      simp
    · exact ih _ hn.2 h'

theorem rowCells_nodup (r : Nat) (row : Row) : ((rowCells r row).map Prod.fst).Nodup := by
  simp [rowCells]

theorem pixelCells_nodup (r : Nat) (row : Row) : ((pixelCells r row).map Prod.fst).Nodup := by
  rw [pixelCells, List.map_map]
  exact (List.nodup_range (n := 8)).map fun a b h => by simpa using h

theorem mem_pixelCells (r : Nat) (row : Row) {p : Nat} (h : p < 8) :
    (8 * r + p, rowPixel row p) ∈ pixelCells r row :=
  List.mem_map.mpr ⟨p, List.mem_range.mpr h, rfl⟩

theorem pixelCells_address {r : Nat} {row : Row} {q : Nat × Pixel} (h : q ∈ pixelCells r row) :
    8 * r ≤ q.1 ∧ q.1 < 8 * r + 8 := by
  obtain ⟨p, hp, rfl⟩ := List.mem_map.mp h
  have := List.mem_range.mp hp
  constructor <;> dsimp only <;> omega

theorem rowCells_address {r : Nat} {row : Row} {q : Nat × Byte} (h : q ∈ rowCells r row) :
    4 * r ≤ q.1 ∧ q.1 < 4 * r + 4 := by
  simp only [rowCells, List.mem_cons, List.not_mem_nil, or_false] at h
  rcases h with rfl | rfl | rfl | rfl <;> dsimp only <;> omega

/-! ### Host regions -/

@[simp] theorem regionPut_size (b : Buffer Byte) (a : Nat) (v : Byte) : (regionPut b a v).size = b.size := rfl

@[simp] theorem regionPutAll_size (b : Buffer Byte) (a : Nat) (vs : List Byte) :
    (regionPutAll b a vs).size = b.size := by
  induction vs generalizing a b with
  | nil => rfl
  | cons v vs ih => simp [regionPutAll, ih]

theorem regionByte_regionPut {b : Buffer Byte} (hs : CellsSorted b.cells) (a c : Nat) (v : Byte) :
    regionByte (regionPut b a v) c = if c = a then v else regionByte b c := by
  unfold regionByte regionPut
  by_cases hv : v = unlistedByte
  · by_cases hc : c = a <;> simp [hv, cellGet_cellDel hs, hc]
  · by_cases hc : c = a <;> simp [hv, cellGet_cellPut, hc]

theorem regionPut_sorted {b : Buffer Byte} (hs : CellsSorted b.cells) (a : Nat) (v : Byte) :
    CellsSorted (regionPut b a v).cells := by
  unfold regionPut
  split
  · exact cellDel_sorted hs a
  · exact cellPut_sorted hs a v

theorem regionPut_canonical {b : Buffer Byte} (h : RegionCanonical b) {a : Nat} (ha : a < b.size) (v : Byte) :
    RegionCanonical (regionPut b a v) := by
  refine ⟨regionPut_sorted h.1 a v, fun p hp => ?_⟩
  unfold regionPut at hp ⊢
  by_cases hv : v = unlistedByte
  · simp only [hv, if_true] at hp
    exact h.2 p (mem_cellDel hp)
  · simp only [hv, if_false] at hp
    rcases mem_cellPut hp with rfl | hp
    · exact ⟨ha, hv⟩
    · exact h.2 p hp

theorem regionPutAll_canonical {b : Buffer Byte} (h : RegionCanonical b) (a : Nat) (vs : List Byte)
    (ha : a + vs.length ≤ b.size) : RegionCanonical (regionPutAll b a vs) := by
  induction vs generalizing a b with
  | nil => exact h
  | cons v vs ih =>
    rw [List.length_cons] at ha
    exact ih (regionPut_canonical h (by omega) v) (a + 1) (by simp; omega)

theorem regionByte_regionPutAll {b : Buffer Byte} (hs : CellsSorted b.cells) (a : Nat) (vs : List Byte) (c : Nat) :
    regionByte (regionPutAll b a vs) c =
      if a ≤ c ∧ c < a + vs.length then vs.getD (c - a) 0 else regionByte b c := by
  induction vs generalizing a b with
  | nil => simp [regionPutAll]
  | cons v vs ih =>
    rw [regionPutAll, ih (regionPut_sorted hs a v), regionByte_regionPut hs, List.length_cons]
    by_cases h1 : a + 1 ≤ c ∧ c < a + 1 + vs.length
    · have h2 : c - a = (c - (a + 1)) + 1 := by omega
      rw [if_pos h1, if_pos (by omega), h2, List.getD_cons_succ]
    · rw [if_neg h1]
      by_cases h2 : c = a
      · subst h2
        simp
      · rw [if_neg h2, if_neg (by omega)]

/-- The region of given bytes is canonical and holds them. -/
theorem regionOf_canonical (bytes : List Byte) : RegionCanonical (regionOf bytes) :=
  regionPutAll_canonical ⟨by simp, by simp⟩ 0 bytes (by simp)

theorem regionByte_regionOf (bytes : List Byte) (a : Nat) (h : a < bytes.length) :
    regionByte (regionOf bytes) a = bytes.getD a 0 := by
  rw [regionOf, regionByte_regionPutAll (by simp)]
  simp [h]

end Sys2Proof.Machine
end

