-- ==== Sys2Proof/Laws/State.lean ====
section
/-! SUPPORT. One lemma per field per named update of the state, and one per view, so that no proof unfolds a record
update. -/

namespace Sys2Proof.Machine

section raiseFault

@[simp] theorem raiseFault_win (e : Raise) (s : State) : (raiseFault e s).win = s.win := rfl
@[simp] theorem raiseFault_magic (e : Raise) (s : State) : (raiseFault e s).magic = s.magic := rfl
@[simp] theorem raiseFault_pending (e : Raise) (s : State) : (raiseFault e s).pending = s.pending := rfl
@[simp] theorem raiseFault_dupOff (e : Raise) (s : State) : (raiseFault e s).dupOff = s.dupOff := rfl
@[simp] theorem raiseFault_artOff (e : Raise) (s : State) : (raiseFault e s).artOff = s.artOff := rfl
@[simp] theorem raiseFault_rowCount (e : Raise) (s : State) : (raiseFault e s).rowCount = s.rowCount := rfl
@[simp] theorem raiseFault_bsCur (e : Raise) (s : State) : (raiseFault e s).bsCur = s.bsCur := rfl
@[simp] theorem raiseFault_artCur (e : Raise) (s : State) : (raiseFault e s).artCur = s.artCur := rfl
@[simp] theorem raiseFault_dupCur (e : Raise) (s : State) : (raiseFault e s).dupCur = s.dupCur := rfl
@[simp] theorem raiseFault_ctrl (e : Raise) (s : State) : (raiseFault e s).ctrl = s.ctrl := rfl
@[simp] theorem raiseFault_rowIdx (e : Raise) (s : State) : (raiseFault e s).rowIdx = s.rowIdx := rfl
@[simp] theorem raiseFault_row (e : Raise) (s : State) : (raiseFault e s).row = s.row := rfl
@[simp] theorem raiseFault_rawCnt (e : Raise) (s : State) : (raiseFault e s).rawCnt = s.rawCnt := rfl
@[simp] theorem raiseFault_dupCnt (e : Raise) (s : State) : (raiseFault e s).dupCnt = s.dupCnt := rfl
@[simp] theorem raiseFault_extent (e : Raise) (s : State) : (raiseFault e s).extent = s.extent := rfl
@[simp] theorem raiseFault_modeReg (e : Raise) (s : State) : (raiseFault e s).modeReg = s.modeReg := rfl
@[simp] theorem raiseFault_widthReg (e : Raise) (s : State) : (raiseFault e s).widthReg = s.widthReg := rfl
@[simp] theorem raiseFault_phase (e : Raise) (s : State) : (raiseFault e s).phase = .fault := rfl
@[simp] theorem raiseFault_errCode (e : Raise) (s : State) : (raiseFault e s).errCode = errCodeOf e.cause := rfl
@[simp] theorem raiseFault_errCause (e : Raise) (s : State) : (raiseFault e s).errCause = e.cause := rfl
@[simp] theorem raiseFault_errAddr (e : Raise) (s : State) : (raiseFault e s).errAddr = e.addr := rfl
@[simp] theorem raiseFault_p2cIdx (e : Raise) (s : State) : (raiseFault e s).p2cIdx = s.p2cIdx := rfl
@[simp] theorem raiseFault_tilesPerRow (e : Raise) (s : State) : (raiseFault e s).tilesPerRow = s.tilesPerRow := rfl
@[simp] theorem raiseFault_height (e : Raise) (s : State) : (raiseFault e s).height = s.height := rfl
@[simp] theorem raiseFault_placeIdx (e : Raise) (s : State) : (raiseFault e s).placeIdx = s.placeIdx := rfl
@[simp] theorem raiseFault_db (e : Raise) (s : State) : (raiseFault e s).db = s.db := rfl
@[simp] theorem raiseFault_pxs (e : Raise) (s : State) : (raiseFault e s).pxs = s.pxs := rfl
@[simp] theorem raiseFault_grid (e : Raise) (s : State) : (raiseFault e s).grid = s.grid := rfl
@[simp] theorem raiseFault_palIn (e : Raise) (s : State) : (raiseFault e s).palIn = s.palIn := rfl
@[simp] theorem raiseFault_palOut (e : Raise) (s : State) : (raiseFault e s).palOut = s.palOut := rfl
@[simp] theorem rows_raiseFault (e : Raise) (s : State) : rows (raiseFault e s) = rows s := rfl
@[simp] theorem tileCount_raiseFault (e : Raise) (s : State) : tileCount (raiseFault e s) = tileCount s := rfl
@[simp] theorem bitIdx_raiseFault (e : Raise) (s : State) : bitIdx (raiseFault e s) = bitIdx s := rfl
@[simp] theorem controlBit_raiseFault (e : Raise) (s : State) : controlBit (raiseFault e s) = controlBit s := rfl
@[simp] theorem inByte_raiseFault (e : Raise) (s : State) (a : Nat) : inByte (raiseFault e s) a = inByte s a := rfl
@[simp] theorem rowAt_raiseFault (e : Raise) (s : State) (a : Nat) : rowAt (raiseFault e s) a = rowAt s a := rfl
@[simp] theorem dupAddress_raiseFault (e : Raise) (s : State) (i : Nat) : dupAddress (raiseFault e s) i = dupAddress s i := rfl
@[simp] theorem dbByte_raiseFault (e : Raise) (s : State) (a : Nat) : dbByte (raiseFault e s) a = dbByte s a := rfl
@[simp] theorem pxsPixel_raiseFault (e : Raise) (s : State) (a : Nat) : pxsPixel (raiseFault e s) a = pxsPixel s a := rfl

end raiseFault

section latchInputs

@[simp] theorem latchInputs_win (m : Mode) (w : Nat) (s : State) : (latchInputs m w s).win = s.win := rfl
@[simp] theorem latchInputs_magic (m : Mode) (w : Nat) (s : State) : (latchInputs m w s).magic = s.magic := rfl
@[simp] theorem latchInputs_pending (m : Mode) (w : Nat) (s : State) : (latchInputs m w s).pending = s.pending := rfl
@[simp] theorem latchInputs_dupOff (m : Mode) (w : Nat) (s : State) : (latchInputs m w s).dupOff = s.dupOff := rfl
@[simp] theorem latchInputs_artOff (m : Mode) (w : Nat) (s : State) : (latchInputs m w s).artOff = s.artOff := rfl
@[simp] theorem latchInputs_rowCount (m : Mode) (w : Nat) (s : State) : (latchInputs m w s).rowCount = s.rowCount := rfl
@[simp] theorem latchInputs_bsCur (m : Mode) (w : Nat) (s : State) : (latchInputs m w s).bsCur = s.bsCur := rfl
@[simp] theorem latchInputs_artCur (m : Mode) (w : Nat) (s : State) : (latchInputs m w s).artCur = s.artCur := rfl
@[simp] theorem latchInputs_dupCur (m : Mode) (w : Nat) (s : State) : (latchInputs m w s).dupCur = s.dupCur := rfl
@[simp] theorem latchInputs_ctrl (m : Mode) (w : Nat) (s : State) : (latchInputs m w s).ctrl = s.ctrl := rfl
@[simp] theorem latchInputs_rowIdx (m : Mode) (w : Nat) (s : State) : (latchInputs m w s).rowIdx = s.rowIdx := rfl
@[simp] theorem latchInputs_row (m : Mode) (w : Nat) (s : State) : (latchInputs m w s).row = s.row := rfl
@[simp] theorem latchInputs_rawCnt (m : Mode) (w : Nat) (s : State) : (latchInputs m w s).rawCnt = s.rawCnt := rfl
@[simp] theorem latchInputs_dupCnt (m : Mode) (w : Nat) (s : State) : (latchInputs m w s).dupCnt = s.dupCnt := rfl
@[simp] theorem latchInputs_extent (m : Mode) (w : Nat) (s : State) : (latchInputs m w s).extent = s.extent := rfl
@[simp] theorem latchInputs_modeReg (m : Mode) (w : Nat) (s : State) : (latchInputs m w s).modeReg = m := rfl
@[simp] theorem latchInputs_widthReg (m : Mode) (w : Nat) (s : State) : (latchInputs m w s).widthReg = w := rfl
@[simp] theorem latchInputs_phase (m : Mode) (w : Nat) (s : State) : (latchInputs m w s).phase = s.phase := rfl
@[simp] theorem latchInputs_errCode (m : Mode) (w : Nat) (s : State) : (latchInputs m w s).errCode = .none := rfl
@[simp] theorem latchInputs_errCause (m : Mode) (w : Nat) (s : State) : (latchInputs m w s).errCause = .none := rfl
@[simp] theorem latchInputs_errAddr (m : Mode) (w : Nat) (s : State) : (latchInputs m w s).errAddr = 0 := rfl
@[simp] theorem latchInputs_p2cIdx (m : Mode) (w : Nat) (s : State) : (latchInputs m w s).p2cIdx = s.p2cIdx := rfl
@[simp] theorem latchInputs_tilesPerRow (m : Mode) (w : Nat) (s : State) : (latchInputs m w s).tilesPerRow = s.tilesPerRow := rfl
@[simp] theorem latchInputs_height (m : Mode) (w : Nat) (s : State) : (latchInputs m w s).height = s.height := rfl
@[simp] theorem latchInputs_placeIdx (m : Mode) (w : Nat) (s : State) : (latchInputs m w s).placeIdx = s.placeIdx := rfl
@[simp] theorem latchInputs_db (m : Mode) (w : Nat) (s : State) : (latchInputs m w s).db = .empty := rfl
@[simp] theorem latchInputs_pxs (m : Mode) (w : Nat) (s : State) : (latchInputs m w s).pxs = .empty := rfl
@[simp] theorem latchInputs_grid (m : Mode) (w : Nat) (s : State) : (latchInputs m w s).grid = .empty := rfl
@[simp] theorem latchInputs_palIn (m : Mode) (w : Nat) (s : State) : (latchInputs m w s).palIn = s.palIn := rfl
@[simp] theorem latchInputs_palOut (m : Mode) (w : Nat) (s : State) : (latchInputs m w s).palOut = s.palOut := rfl
@[simp] theorem rows_latchInputs (m : Mode) (w : Nat) (s : State) : rows (latchInputs m w s) = rows s := rfl
@[simp] theorem tileCount_latchInputs (m : Mode) (w : Nat) (s : State) : tileCount (latchInputs m w s) = tileCount s := rfl
@[simp] theorem bitIdx_latchInputs (m : Mode) (w : Nat) (s : State) : bitIdx (latchInputs m w s) = bitIdx s := rfl
@[simp] theorem busy_latchInputs (m : Mode) (w : Nat) (s : State) : busy (latchInputs m w s) = busy s := rfl
@[simp] theorem controlBit_latchInputs (m : Mode) (w : Nat) (s : State) : controlBit (latchInputs m w s) = controlBit s := rfl
@[simp] theorem inByte_latchInputs (m : Mode) (w : Nat) (s : State) (a : Nat) : inByte (latchInputs m w s) a = inByte s a := rfl
@[simp] theorem rowAt_latchInputs (m : Mode) (w : Nat) (s : State) (a : Nat) : rowAt (latchInputs m w s) a = rowAt s a := rfl
@[simp] theorem dupAddress_latchInputs (m : Mode) (w : Nat) (s : State) (i : Nat) : dupAddress (latchInputs m w s) i = dupAddress s i := rfl

end latchInputs

section loadHeader

@[simp] theorem loadHeader_win (h : Header) (s : State) : (loadHeader h s).win = s.win := rfl
@[simp] theorem loadHeader_magic (h : Header) (s : State) : (loadHeader h s).magic = s.magic := rfl
@[simp] theorem loadHeader_pending (h : Header) (s : State) : (loadHeader h s).pending = s.pending := rfl
@[simp] theorem loadHeader_dupOff (h : Header) (s : State) : (loadHeader h s).dupOff = h.dupOff := rfl
@[simp] theorem loadHeader_artOff (h : Header) (s : State) : (loadHeader h s).artOff = h.artOff := rfl
@[simp] theorem loadHeader_rowCount (h : Header) (s : State) : (loadHeader h s).rowCount = h.rowCount := rfl
@[simp] theorem loadHeader_bsCur (h : Header) (s : State) : (loadHeader h s).bsCur = 8 := rfl
@[simp] theorem loadHeader_artCur (h : Header) (s : State) : (loadHeader h s).artCur = h.artOff.toNat := rfl
@[simp] theorem loadHeader_dupCur (h : Header) (s : State) : (loadHeader h s).dupCur = h.dupOff.toNat := rfl
@[simp] theorem loadHeader_ctrl (h : Header) (s : State) : (loadHeader h s).ctrl = s.ctrl := rfl
@[simp] theorem loadHeader_rowIdx (h : Header) (s : State) : (loadHeader h s).rowIdx = 0 := rfl
@[simp] theorem loadHeader_row (h : Header) (s : State) : (loadHeader h s).row = s.row := rfl
@[simp] theorem loadHeader_rawCnt (h : Header) (s : State) : (loadHeader h s).rawCnt = 0 := rfl
@[simp] theorem loadHeader_dupCnt (h : Header) (s : State) : (loadHeader h s).dupCnt = 0 := rfl
@[simp] theorem loadHeader_extent (h : Header) (s : State) : (loadHeader h s).extent = 0 := rfl
@[simp] theorem loadHeader_modeReg (h : Header) (s : State) : (loadHeader h s).modeReg = s.modeReg := rfl
@[simp] theorem loadHeader_widthReg (h : Header) (s : State) : (loadHeader h s).widthReg = s.widthReg := rfl
@[simp] theorem loadHeader_phase (h : Header) (s : State) : (loadHeader h s).phase = .decode := rfl
@[simp] theorem loadHeader_errCode (h : Header) (s : State) : (loadHeader h s).errCode = s.errCode := rfl
@[simp] theorem loadHeader_errCause (h : Header) (s : State) : (loadHeader h s).errCause = s.errCause := rfl
@[simp] theorem loadHeader_errAddr (h : Header) (s : State) : (loadHeader h s).errAddr = s.errAddr := rfl
@[simp] theorem loadHeader_p2cIdx (h : Header) (s : State) : (loadHeader h s).p2cIdx = s.p2cIdx := rfl
@[simp] theorem loadHeader_tilesPerRow (h : Header) (s : State) : (loadHeader h s).tilesPerRow = s.tilesPerRow := rfl
@[simp] theorem loadHeader_height (h : Header) (s : State) : (loadHeader h s).height = s.height := rfl
@[simp] theorem loadHeader_placeIdx (h : Header) (s : State) : (loadHeader h s).placeIdx = s.placeIdx := rfl
@[simp] theorem loadHeader_db (h : Header) (s : State) : (loadHeader h s).db = ⟨4 * h.rowCount.toNat, []⟩ := rfl
@[simp] theorem loadHeader_pxs (h : Header) (s : State) : (loadHeader h s).pxs = s.pxs := rfl
@[simp] theorem loadHeader_grid (h : Header) (s : State) : (loadHeader h s).grid = s.grid := rfl
@[simp] theorem loadHeader_palIn (h : Header) (s : State) : (loadHeader h s).palIn = s.palIn := rfl
@[simp] theorem loadHeader_palOut (h : Header) (s : State) : (loadHeader h s).palOut = s.palOut := rfl
@[simp] theorem inByte_loadHeader (h : Header) (s : State) (a : Nat) : inByte (loadHeader h s) a = inByte s a := rfl
@[simp] theorem rowAt_loadHeader (h : Header) (s : State) (a : Nat) : rowAt (loadHeader h s) a = rowAt s a := rfl
@[simp] theorem pxsPixel_loadHeader (h : Header) (s : State) (a : Nat) : pxsPixel (loadHeader h s) a = pxsPixel s a := rfl

end loadHeader

section storeRow

@[simp] theorem storeRow_win (r : Row) (s : State) : (storeRow r s).win = s.win := rfl
@[simp] theorem storeRow_magic (r : Row) (s : State) : (storeRow r s).magic = s.magic := rfl
@[simp] theorem storeRow_pending (r : Row) (s : State) : (storeRow r s).pending = s.pending := rfl
@[simp] theorem storeRow_dupOff (r : Row) (s : State) : (storeRow r s).dupOff = s.dupOff := rfl
@[simp] theorem storeRow_artOff (r : Row) (s : State) : (storeRow r s).artOff = s.artOff := rfl
@[simp] theorem storeRow_rowCount (r : Row) (s : State) : (storeRow r s).rowCount = s.rowCount := rfl
@[simp] theorem storeRow_bsCur (r : Row) (s : State) : (storeRow r s).bsCur = s.bsCur := rfl
@[simp] theorem storeRow_artCur (r : Row) (s : State) : (storeRow r s).artCur = s.artCur := rfl
@[simp] theorem storeRow_dupCur (r : Row) (s : State) : (storeRow r s).dupCur = s.dupCur := rfl
@[simp] theorem storeRow_ctrl (r : Row) (s : State) : (storeRow r s).ctrl = s.ctrl := rfl
@[simp] theorem storeRow_rowIdx (r : Row) (s : State) : (storeRow r s).rowIdx = s.rowIdx + 1 := rfl
@[simp] theorem storeRow_row (r : Row) (s : State) : (storeRow r s).row = r := rfl
@[simp] theorem storeRow_rawCnt (r : Row) (s : State) : (storeRow r s).rawCnt = s.rawCnt := rfl
@[simp] theorem storeRow_dupCnt (r : Row) (s : State) : (storeRow r s).dupCnt = s.dupCnt := rfl
@[simp] theorem storeRow_extent (r : Row) (s : State) : (storeRow r s).extent = s.extent := rfl
@[simp] theorem storeRow_modeReg (r : Row) (s : State) : (storeRow r s).modeReg = s.modeReg := rfl
@[simp] theorem storeRow_widthReg (r : Row) (s : State) : (storeRow r s).widthReg = s.widthReg := rfl
@[simp] theorem storeRow_phase (r : Row) (s : State) : (storeRow r s).phase = s.phase := rfl
@[simp] theorem storeRow_errCode (r : Row) (s : State) : (storeRow r s).errCode = s.errCode := rfl
@[simp] theorem storeRow_errCause (r : Row) (s : State) : (storeRow r s).errCause = s.errCause := rfl
@[simp] theorem storeRow_errAddr (r : Row) (s : State) : (storeRow r s).errAddr = s.errAddr := rfl
@[simp] theorem storeRow_p2cIdx (r : Row) (s : State) : (storeRow r s).p2cIdx = s.p2cIdx := rfl
@[simp] theorem storeRow_tilesPerRow (r : Row) (s : State) : (storeRow r s).tilesPerRow = s.tilesPerRow := rfl
@[simp] theorem storeRow_height (r : Row) (s : State) : (storeRow r s).height = s.height := rfl
@[simp] theorem storeRow_placeIdx (r : Row) (s : State) : (storeRow r s).placeIdx = s.placeIdx := rfl
@[simp] theorem storeRow_db (r : Row) (s : State) : (storeRow r s).db = bufPutAll s.db (rowCells s.rowIdx r) := rfl
@[simp] theorem storeRow_pxs (r : Row) (s : State) : (storeRow r s).pxs = s.pxs := rfl
@[simp] theorem storeRow_grid (r : Row) (s : State) : (storeRow r s).grid = s.grid := rfl
@[simp] theorem storeRow_palIn (r : Row) (s : State) : (storeRow r s).palIn = s.palIn := rfl
@[simp] theorem storeRow_palOut (r : Row) (s : State) : (storeRow r s).palOut = s.palOut := rfl
@[simp] theorem rows_storeRow (r : Row) (s : State) : rows (storeRow r s) = rows s := rfl
@[simp] theorem tileCount_storeRow (r : Row) (s : State) : tileCount (storeRow r s) = tileCount s := rfl
@[simp] theorem busy_storeRow (r : Row) (s : State) : busy (storeRow r s) = busy s := rfl
@[simp] theorem inByte_storeRow (r : Row) (s : State) (a : Nat) : inByte (storeRow r s) a = inByte s a := rfl
@[simp] theorem rowAt_storeRow (r : Row) (s : State) (a : Nat) : rowAt (storeRow r s) a = rowAt s a := rfl
@[simp] theorem dupAddress_storeRow (r : Row) (s : State) (i : Nat) : dupAddress (storeRow r s) i = dupAddress s i := rfl
@[simp] theorem pxsPixel_storeRow (r : Row) (s : State) (a : Nat) : pxsPixel (storeRow r s) a = pxsPixel s a := rfl

end storeRow

section latchControl

@[simp] theorem latchControl_win (c : Byte) (s : State) : (latchControl c s).win = s.win := rfl
@[simp] theorem latchControl_magic (c : Byte) (s : State) : (latchControl c s).magic = s.magic := rfl
@[simp] theorem latchControl_pending (c : Byte) (s : State) : (latchControl c s).pending = s.pending := rfl
@[simp] theorem latchControl_dupOff (c : Byte) (s : State) : (latchControl c s).dupOff = s.dupOff := rfl
@[simp] theorem latchControl_artOff (c : Byte) (s : State) : (latchControl c s).artOff = s.artOff := rfl
@[simp] theorem latchControl_rowCount (c : Byte) (s : State) : (latchControl c s).rowCount = s.rowCount := rfl
@[simp] theorem latchControl_bsCur (c : Byte) (s : State) : (latchControl c s).bsCur = s.bsCur + 1 := rfl
@[simp] theorem latchControl_artCur (c : Byte) (s : State) : (latchControl c s).artCur = s.artCur := rfl
@[simp] theorem latchControl_dupCur (c : Byte) (s : State) : (latchControl c s).dupCur = s.dupCur := rfl
@[simp] theorem latchControl_ctrl (c : Byte) (s : State) : (latchControl c s).ctrl = c := rfl
@[simp] theorem latchControl_rowIdx (c : Byte) (s : State) : (latchControl c s).rowIdx = s.rowIdx := rfl
@[simp] theorem latchControl_row (c : Byte) (s : State) : (latchControl c s).row = s.row := rfl
@[simp] theorem latchControl_rawCnt (c : Byte) (s : State) : (latchControl c s).rawCnt = s.rawCnt := rfl
@[simp] theorem latchControl_dupCnt (c : Byte) (s : State) : (latchControl c s).dupCnt = s.dupCnt := rfl
@[simp] theorem latchControl_extent (c : Byte) (s : State) : (latchControl c s).extent = s.extent := rfl
@[simp] theorem latchControl_modeReg (c : Byte) (s : State) : (latchControl c s).modeReg = s.modeReg := rfl
@[simp] theorem latchControl_widthReg (c : Byte) (s : State) : (latchControl c s).widthReg = s.widthReg := rfl
@[simp] theorem latchControl_phase (c : Byte) (s : State) : (latchControl c s).phase = s.phase := rfl
@[simp] theorem latchControl_errCode (c : Byte) (s : State) : (latchControl c s).errCode = s.errCode := rfl
@[simp] theorem latchControl_errCause (c : Byte) (s : State) : (latchControl c s).errCause = s.errCause := rfl
@[simp] theorem latchControl_errAddr (c : Byte) (s : State) : (latchControl c s).errAddr = s.errAddr := rfl
@[simp] theorem latchControl_p2cIdx (c : Byte) (s : State) : (latchControl c s).p2cIdx = s.p2cIdx := rfl
@[simp] theorem latchControl_tilesPerRow (c : Byte) (s : State) : (latchControl c s).tilesPerRow = s.tilesPerRow := rfl
@[simp] theorem latchControl_height (c : Byte) (s : State) : (latchControl c s).height = s.height := rfl
@[simp] theorem latchControl_placeIdx (c : Byte) (s : State) : (latchControl c s).placeIdx = s.placeIdx := rfl
@[simp] theorem latchControl_db (c : Byte) (s : State) : (latchControl c s).db = s.db := rfl
@[simp] theorem latchControl_pxs (c : Byte) (s : State) : (latchControl c s).pxs = s.pxs := rfl
@[simp] theorem latchControl_grid (c : Byte) (s : State) : (latchControl c s).grid = s.grid := rfl
@[simp] theorem latchControl_palIn (c : Byte) (s : State) : (latchControl c s).palIn = s.palIn := rfl
@[simp] theorem latchControl_palOut (c : Byte) (s : State) : (latchControl c s).palOut = s.palOut := rfl
@[simp] theorem rows_latchControl (c : Byte) (s : State) : rows (latchControl c s) = rows s := rfl
@[simp] theorem tileCount_latchControl (c : Byte) (s : State) : tileCount (latchControl c s) = tileCount s := rfl
@[simp] theorem bitIdx_latchControl (c : Byte) (s : State) : bitIdx (latchControl c s) = bitIdx s := rfl
@[simp] theorem busy_latchControl (c : Byte) (s : State) : busy (latchControl c s) = busy s := rfl
@[simp] theorem inByte_latchControl (c : Byte) (s : State) (a : Nat) : inByte (latchControl c s) a = inByte s a := rfl
@[simp] theorem rowAt_latchControl (c : Byte) (s : State) (a : Nat) : rowAt (latchControl c s) a = rowAt s a := rfl
@[simp] theorem dupAddress_latchControl (c : Byte) (s : State) (i : Nat) : dupAddress (latchControl c s) i = dupAddress s i := rfl
@[simp] theorem dbByte_latchControl (c : Byte) (s : State) (a : Nat) : dbByte (latchControl c s) a = dbByte s a := rfl
@[simp] theorem pxsPixel_latchControl (c : Byte) (s : State) (a : Nat) : pxsPixel (latchControl c s) a = pxsPixel s a := rfl

end latchControl

section countRaw

@[simp] theorem countRaw_win (s : State) : (countRaw s).win = s.win := rfl
@[simp] theorem countRaw_magic (s : State) : (countRaw s).magic = s.magic := rfl
@[simp] theorem countRaw_pending (s : State) : (countRaw s).pending = s.pending := rfl
@[simp] theorem countRaw_dupOff (s : State) : (countRaw s).dupOff = s.dupOff := rfl
@[simp] theorem countRaw_artOff (s : State) : (countRaw s).artOff = s.artOff := rfl
@[simp] theorem countRaw_rowCount (s : State) : (countRaw s).rowCount = s.rowCount := rfl
@[simp] theorem countRaw_bsCur (s : State) : (countRaw s).bsCur = s.bsCur := rfl
@[simp] theorem countRaw_artCur (s : State) : (countRaw s).artCur = s.artCur + 4 := rfl
@[simp] theorem countRaw_dupCur (s : State) : (countRaw s).dupCur = s.dupCur := rfl
@[simp] theorem countRaw_ctrl (s : State) : (countRaw s).ctrl = s.ctrl := rfl
@[simp] theorem countRaw_rowIdx (s : State) : (countRaw s).rowIdx = s.rowIdx := rfl
@[simp] theorem countRaw_row (s : State) : (countRaw s).row = s.row := rfl
@[simp] theorem countRaw_rawCnt (s : State) : (countRaw s).rawCnt = s.rawCnt + 1 := rfl
@[simp] theorem countRaw_dupCnt (s : State) : (countRaw s).dupCnt = s.dupCnt := rfl
@[simp] theorem countRaw_extent (s : State) : (countRaw s).extent = s.extent := rfl
@[simp] theorem countRaw_modeReg (s : State) : (countRaw s).modeReg = s.modeReg := rfl
@[simp] theorem countRaw_widthReg (s : State) : (countRaw s).widthReg = s.widthReg := rfl
@[simp] theorem countRaw_phase (s : State) : (countRaw s).phase = s.phase := rfl
@[simp] theorem countRaw_errCode (s : State) : (countRaw s).errCode = s.errCode := rfl
@[simp] theorem countRaw_errCause (s : State) : (countRaw s).errCause = s.errCause := rfl
@[simp] theorem countRaw_errAddr (s : State) : (countRaw s).errAddr = s.errAddr := rfl
@[simp] theorem countRaw_p2cIdx (s : State) : (countRaw s).p2cIdx = s.p2cIdx := rfl
@[simp] theorem countRaw_tilesPerRow (s : State) : (countRaw s).tilesPerRow = s.tilesPerRow := rfl
@[simp] theorem countRaw_height (s : State) : (countRaw s).height = s.height := rfl
@[simp] theorem countRaw_placeIdx (s : State) : (countRaw s).placeIdx = s.placeIdx := rfl
@[simp] theorem countRaw_db (s : State) : (countRaw s).db = s.db := rfl
@[simp] theorem countRaw_pxs (s : State) : (countRaw s).pxs = s.pxs := rfl
@[simp] theorem countRaw_grid (s : State) : (countRaw s).grid = s.grid := rfl
@[simp] theorem countRaw_palIn (s : State) : (countRaw s).palIn = s.palIn := rfl
@[simp] theorem countRaw_palOut (s : State) : (countRaw s).palOut = s.palOut := rfl
@[simp] theorem rows_countRaw (s : State) : rows (countRaw s) = rows s := rfl
@[simp] theorem tileCount_countRaw (s : State) : tileCount (countRaw s) = tileCount s := rfl
@[simp] theorem bitIdx_countRaw (s : State) : bitIdx (countRaw s) = bitIdx s := rfl
@[simp] theorem busy_countRaw (s : State) : busy (countRaw s) = busy s := rfl
@[simp] theorem controlBit_countRaw (s : State) : controlBit (countRaw s) = controlBit s := rfl
@[simp] theorem inByte_countRaw (s : State) (a : Nat) : inByte (countRaw s) a = inByte s a := rfl
@[simp] theorem rowAt_countRaw (s : State) (a : Nat) : rowAt (countRaw s) a = rowAt s a := rfl
@[simp] theorem dupAddress_countRaw (s : State) (i : Nat) : dupAddress (countRaw s) i = dupAddress s i := rfl
@[simp] theorem dbByte_countRaw (s : State) (a : Nat) : dbByte (countRaw s) a = dbByte s a := rfl
@[simp] theorem pxsPixel_countRaw (s : State) (a : Nat) : pxsPixel (countRaw s) a = pxsPixel s a := rfl

end countRaw

section countDup

@[simp] theorem countDup_win (n : Nat) (s : State) : (countDup n s).win = s.win := rfl
@[simp] theorem countDup_magic (n : Nat) (s : State) : (countDup n s).magic = s.magic := rfl
@[simp] theorem countDup_pending (n : Nat) (s : State) : (countDup n s).pending = s.pending := rfl
@[simp] theorem countDup_dupOff (n : Nat) (s : State) : (countDup n s).dupOff = s.dupOff := rfl
@[simp] theorem countDup_artOff (n : Nat) (s : State) : (countDup n s).artOff = s.artOff := rfl
@[simp] theorem countDup_rowCount (n : Nat) (s : State) : (countDup n s).rowCount = s.rowCount := rfl
@[simp] theorem countDup_bsCur (n : Nat) (s : State) : (countDup n s).bsCur = s.bsCur := rfl
@[simp] theorem countDup_artCur (n : Nat) (s : State) : (countDup n s).artCur = s.artCur := rfl
@[simp] theorem countDup_dupCur (n : Nat) (s : State) : (countDup n s).dupCur = s.dupCur + n := rfl
@[simp] theorem countDup_ctrl (n : Nat) (s : State) : (countDup n s).ctrl = s.ctrl := rfl
@[simp] theorem countDup_rowIdx (n : Nat) (s : State) : (countDup n s).rowIdx = s.rowIdx := rfl
@[simp] theorem countDup_row (n : Nat) (s : State) : (countDup n s).row = s.row := rfl
@[simp] theorem countDup_rawCnt (n : Nat) (s : State) : (countDup n s).rawCnt = s.rawCnt := rfl
@[simp] theorem countDup_dupCnt (n : Nat) (s : State) : (countDup n s).dupCnt = s.dupCnt + 1 := rfl
@[simp] theorem countDup_extent (n : Nat) (s : State) : (countDup n s).extent = s.extent := rfl
@[simp] theorem countDup_modeReg (n : Nat) (s : State) : (countDup n s).modeReg = s.modeReg := rfl
@[simp] theorem countDup_widthReg (n : Nat) (s : State) : (countDup n s).widthReg = s.widthReg := rfl
@[simp] theorem countDup_phase (n : Nat) (s : State) : (countDup n s).phase = s.phase := rfl
@[simp] theorem countDup_errCode (n : Nat) (s : State) : (countDup n s).errCode = s.errCode := rfl
@[simp] theorem countDup_errCause (n : Nat) (s : State) : (countDup n s).errCause = s.errCause := rfl
@[simp] theorem countDup_errAddr (n : Nat) (s : State) : (countDup n s).errAddr = s.errAddr := rfl
@[simp] theorem countDup_p2cIdx (n : Nat) (s : State) : (countDup n s).p2cIdx = s.p2cIdx := rfl
@[simp] theorem countDup_tilesPerRow (n : Nat) (s : State) : (countDup n s).tilesPerRow = s.tilesPerRow := rfl
@[simp] theorem countDup_height (n : Nat) (s : State) : (countDup n s).height = s.height := rfl
@[simp] theorem countDup_placeIdx (n : Nat) (s : State) : (countDup n s).placeIdx = s.placeIdx := rfl
@[simp] theorem countDup_db (n : Nat) (s : State) : (countDup n s).db = s.db := rfl
@[simp] theorem countDup_pxs (n : Nat) (s : State) : (countDup n s).pxs = s.pxs := rfl
@[simp] theorem countDup_grid (n : Nat) (s : State) : (countDup n s).grid = s.grid := rfl
@[simp] theorem countDup_palIn (n : Nat) (s : State) : (countDup n s).palIn = s.palIn := rfl
@[simp] theorem countDup_palOut (n : Nat) (s : State) : (countDup n s).palOut = s.palOut := rfl
@[simp] theorem rows_countDup (n : Nat) (s : State) : rows (countDup n s) = rows s := rfl
@[simp] theorem tileCount_countDup (n : Nat) (s : State) : tileCount (countDup n s) = tileCount s := rfl
@[simp] theorem bitIdx_countDup (n : Nat) (s : State) : bitIdx (countDup n s) = bitIdx s := rfl
@[simp] theorem busy_countDup (n : Nat) (s : State) : busy (countDup n s) = busy s := rfl
@[simp] theorem controlBit_countDup (n : Nat) (s : State) : controlBit (countDup n s) = controlBit s := rfl
@[simp] theorem inByte_countDup (n : Nat) (s : State) (a : Nat) : inByte (countDup n s) a = inByte s a := rfl
@[simp] theorem rowAt_countDup (n : Nat) (s : State) (a : Nat) : rowAt (countDup n s) a = rowAt s a := rfl
@[simp] theorem dupAddress_countDup (n : Nat) (s : State) (i : Nat) : dupAddress (countDup n s) i = dupAddress s i := rfl
@[simp] theorem dbByte_countDup (n : Nat) (s : State) (a : Nat) : dbByte (countDup n s) a = dbByte s a := rfl
@[simp] theorem pxsPixel_countDup (n : Nat) (s : State) (a : Nat) : pxsPixel (countDup n s) a = pxsPixel s a := rfl

end countDup

section reportExtent

@[simp] theorem reportExtent_win (s : State) : (reportExtent s).win = s.win := rfl
@[simp] theorem reportExtent_magic (s : State) : (reportExtent s).magic = s.magic := rfl
@[simp] theorem reportExtent_pending (s : State) : (reportExtent s).pending = s.pending := rfl
@[simp] theorem reportExtent_dupOff (s : State) : (reportExtent s).dupOff = s.dupOff := rfl
@[simp] theorem reportExtent_artOff (s : State) : (reportExtent s).artOff = s.artOff := rfl
@[simp] theorem reportExtent_rowCount (s : State) : (reportExtent s).rowCount = s.rowCount := rfl
@[simp] theorem reportExtent_bsCur (s : State) : (reportExtent s).bsCur = s.bsCur := rfl
@[simp] theorem reportExtent_artCur (s : State) : (reportExtent s).artCur = s.artCur := rfl
@[simp] theorem reportExtent_dupCur (s : State) : (reportExtent s).dupCur = s.dupCur := rfl
@[simp] theorem reportExtent_ctrl (s : State) : (reportExtent s).ctrl = s.ctrl := rfl
@[simp] theorem reportExtent_rowIdx (s : State) : (reportExtent s).rowIdx = s.rowIdx := rfl
@[simp] theorem reportExtent_row (s : State) : (reportExtent s).row = s.row := rfl
@[simp] theorem reportExtent_rawCnt (s : State) : (reportExtent s).rawCnt = s.rawCnt := rfl
@[simp] theorem reportExtent_dupCnt (s : State) : (reportExtent s).dupCnt = s.dupCnt := rfl
@[simp] theorem reportExtent_extent (s : State) : (reportExtent s).extent = max s.artCur s.dupCur := rfl
@[simp] theorem reportExtent_modeReg (s : State) : (reportExtent s).modeReg = s.modeReg := rfl
@[simp] theorem reportExtent_widthReg (s : State) : (reportExtent s).widthReg = s.widthReg := rfl
@[simp] theorem reportExtent_phase (s : State) : (reportExtent s).phase = s.phase := rfl
@[simp] theorem reportExtent_errCode (s : State) : (reportExtent s).errCode = s.errCode := rfl
@[simp] theorem reportExtent_errCause (s : State) : (reportExtent s).errCause = s.errCause := rfl
@[simp] theorem reportExtent_errAddr (s : State) : (reportExtent s).errAddr = s.errAddr := rfl
@[simp] theorem reportExtent_p2cIdx (s : State) : (reportExtent s).p2cIdx = s.p2cIdx := rfl
@[simp] theorem reportExtent_tilesPerRow (s : State) : (reportExtent s).tilesPerRow = s.tilesPerRow := rfl
@[simp] theorem reportExtent_height (s : State) : (reportExtent s).height = s.height := rfl
@[simp] theorem reportExtent_placeIdx (s : State) : (reportExtent s).placeIdx = s.placeIdx := rfl
@[simp] theorem reportExtent_db (s : State) : (reportExtent s).db = s.db := rfl
@[simp] theorem reportExtent_pxs (s : State) : (reportExtent s).pxs = s.pxs := rfl
@[simp] theorem reportExtent_grid (s : State) : (reportExtent s).grid = s.grid := rfl
@[simp] theorem reportExtent_palIn (s : State) : (reportExtent s).palIn = s.palIn := rfl
@[simp] theorem reportExtent_palOut (s : State) : (reportExtent s).palOut = s.palOut := rfl
@[simp] theorem rows_reportExtent (s : State) : rows (reportExtent s) = rows s := rfl
@[simp] theorem tileCount_reportExtent (s : State) : tileCount (reportExtent s) = tileCount s := rfl
@[simp] theorem bitIdx_reportExtent (s : State) : bitIdx (reportExtent s) = bitIdx s := rfl
@[simp] theorem busy_reportExtent (s : State) : busy (reportExtent s) = busy s := rfl
@[simp] theorem controlBit_reportExtent (s : State) : controlBit (reportExtent s) = controlBit s := rfl
@[simp] theorem inByte_reportExtent (s : State) (a : Nat) : inByte (reportExtent s) a = inByte s a := rfl
@[simp] theorem rowAt_reportExtent (s : State) (a : Nat) : rowAt (reportExtent s) a = rowAt s a := rfl
@[simp] theorem dupAddress_reportExtent (s : State) (i : Nat) : dupAddress (reportExtent s) i = dupAddress s i := rfl
@[simp] theorem dbByte_reportExtent (s : State) (a : Nat) : dbByte (reportExtent s) a = dbByte s a := rfl
@[simp] theorem pxsPixel_reportExtent (s : State) (a : Nat) : pxsPixel (reportExtent s) a = pxsPixel s a := rfl

end reportExtent

section setPhase

@[simp] theorem setPhase_win (p : Phase) (s : State) : (setPhase p s).win = s.win := rfl
@[simp] theorem setPhase_magic (p : Phase) (s : State) : (setPhase p s).magic = s.magic := rfl
@[simp] theorem setPhase_pending (p : Phase) (s : State) : (setPhase p s).pending = s.pending := rfl
@[simp] theorem setPhase_dupOff (p : Phase) (s : State) : (setPhase p s).dupOff = s.dupOff := rfl
@[simp] theorem setPhase_artOff (p : Phase) (s : State) : (setPhase p s).artOff = s.artOff := rfl
@[simp] theorem setPhase_rowCount (p : Phase) (s : State) : (setPhase p s).rowCount = s.rowCount := rfl
@[simp] theorem setPhase_bsCur (p : Phase) (s : State) : (setPhase p s).bsCur = s.bsCur := rfl
@[simp] theorem setPhase_artCur (p : Phase) (s : State) : (setPhase p s).artCur = s.artCur := rfl
@[simp] theorem setPhase_dupCur (p : Phase) (s : State) : (setPhase p s).dupCur = s.dupCur := rfl
@[simp] theorem setPhase_ctrl (p : Phase) (s : State) : (setPhase p s).ctrl = s.ctrl := rfl
@[simp] theorem setPhase_rowIdx (p : Phase) (s : State) : (setPhase p s).rowIdx = s.rowIdx := rfl
@[simp] theorem setPhase_row (p : Phase) (s : State) : (setPhase p s).row = s.row := rfl
@[simp] theorem setPhase_rawCnt (p : Phase) (s : State) : (setPhase p s).rawCnt = s.rawCnt := rfl
@[simp] theorem setPhase_dupCnt (p : Phase) (s : State) : (setPhase p s).dupCnt = s.dupCnt := rfl
@[simp] theorem setPhase_extent (p : Phase) (s : State) : (setPhase p s).extent = s.extent := rfl
@[simp] theorem setPhase_modeReg (p : Phase) (s : State) : (setPhase p s).modeReg = s.modeReg := rfl
@[simp] theorem setPhase_widthReg (p : Phase) (s : State) : (setPhase p s).widthReg = s.widthReg := rfl
@[simp] theorem setPhase_phase (p : Phase) (s : State) : (setPhase p s).phase = p := rfl
@[simp] theorem setPhase_errCode (p : Phase) (s : State) : (setPhase p s).errCode = s.errCode := rfl
@[simp] theorem setPhase_errCause (p : Phase) (s : State) : (setPhase p s).errCause = s.errCause := rfl
@[simp] theorem setPhase_errAddr (p : Phase) (s : State) : (setPhase p s).errAddr = s.errAddr := rfl
@[simp] theorem setPhase_p2cIdx (p : Phase) (s : State) : (setPhase p s).p2cIdx = s.p2cIdx := rfl
@[simp] theorem setPhase_tilesPerRow (p : Phase) (s : State) : (setPhase p s).tilesPerRow = s.tilesPerRow := rfl
@[simp] theorem setPhase_height (p : Phase) (s : State) : (setPhase p s).height = s.height := rfl
@[simp] theorem setPhase_placeIdx (p : Phase) (s : State) : (setPhase p s).placeIdx = s.placeIdx := rfl
@[simp] theorem setPhase_db (p : Phase) (s : State) : (setPhase p s).db = s.db := rfl
@[simp] theorem setPhase_pxs (p : Phase) (s : State) : (setPhase p s).pxs = s.pxs := rfl
@[simp] theorem setPhase_grid (p : Phase) (s : State) : (setPhase p s).grid = s.grid := rfl
@[simp] theorem setPhase_palIn (p : Phase) (s : State) : (setPhase p s).palIn = s.palIn := rfl
@[simp] theorem setPhase_palOut (p : Phase) (s : State) : (setPhase p s).palOut = s.palOut := rfl
@[simp] theorem rows_setPhase (p : Phase) (s : State) : rows (setPhase p s) = rows s := rfl
@[simp] theorem tileCount_setPhase (p : Phase) (s : State) : tileCount (setPhase p s) = tileCount s := rfl
@[simp] theorem bitIdx_setPhase (p : Phase) (s : State) : bitIdx (setPhase p s) = bitIdx s := rfl
@[simp] theorem controlBit_setPhase (p : Phase) (s : State) : controlBit (setPhase p s) = controlBit s := rfl
@[simp] theorem inByte_setPhase (p : Phase) (s : State) (a : Nat) : inByte (setPhase p s) a = inByte s a := rfl
@[simp] theorem rowAt_setPhase (p : Phase) (s : State) (a : Nat) : rowAt (setPhase p s) a = rowAt s a := rfl
@[simp] theorem dupAddress_setPhase (p : Phase) (s : State) (i : Nat) : dupAddress (setPhase p s) i = dupAddress s i := rfl
@[simp] theorem dbByte_setPhase (p : Phase) (s : State) (a : Nat) : dbByte (setPhase p s) a = dbByte s a := rfl
@[simp] theorem pxsPixel_setPhase (p : Phase) (s : State) (a : Nat) : pxsPixel (setPhase p s) a = pxsPixel s a := rfl

end setPhase

section beginConvert

@[simp] theorem beginConvert_win (s : State) : (beginConvert s).win = s.win := rfl
@[simp] theorem beginConvert_magic (s : State) : (beginConvert s).magic = s.magic := rfl
@[simp] theorem beginConvert_pending (s : State) : (beginConvert s).pending = s.pending := rfl
@[simp] theorem beginConvert_dupOff (s : State) : (beginConvert s).dupOff = s.dupOff := rfl
@[simp] theorem beginConvert_artOff (s : State) : (beginConvert s).artOff = s.artOff := rfl
@[simp] theorem beginConvert_rowCount (s : State) : (beginConvert s).rowCount = s.rowCount := rfl
@[simp] theorem beginConvert_bsCur (s : State) : (beginConvert s).bsCur = s.bsCur := rfl
@[simp] theorem beginConvert_artCur (s : State) : (beginConvert s).artCur = s.artCur := rfl
@[simp] theorem beginConvert_dupCur (s : State) : (beginConvert s).dupCur = s.dupCur := rfl
@[simp] theorem beginConvert_ctrl (s : State) : (beginConvert s).ctrl = s.ctrl := rfl
@[simp] theorem beginConvert_rowIdx (s : State) : (beginConvert s).rowIdx = s.rowIdx := rfl
@[simp] theorem beginConvert_row (s : State) : (beginConvert s).row = s.row := rfl
@[simp] theorem beginConvert_rawCnt (s : State) : (beginConvert s).rawCnt = s.rawCnt := rfl
@[simp] theorem beginConvert_dupCnt (s : State) : (beginConvert s).dupCnt = s.dupCnt := rfl
@[simp] theorem beginConvert_extent (s : State) : (beginConvert s).extent = s.extent := rfl
@[simp] theorem beginConvert_modeReg (s : State) : (beginConvert s).modeReg = s.modeReg := rfl
@[simp] theorem beginConvert_widthReg (s : State) : (beginConvert s).widthReg = s.widthReg := rfl
@[simp] theorem beginConvert_phase (s : State) : (beginConvert s).phase = .convert := rfl
@[simp] theorem beginConvert_errCode (s : State) : (beginConvert s).errCode = s.errCode := rfl
@[simp] theorem beginConvert_errCause (s : State) : (beginConvert s).errCause = s.errCause := rfl
@[simp] theorem beginConvert_errAddr (s : State) : (beginConvert s).errAddr = s.errAddr := rfl
@[simp] theorem beginConvert_p2cIdx (s : State) : (beginConvert s).p2cIdx = 0 := rfl
@[simp] theorem beginConvert_tilesPerRow (s : State) : (beginConvert s).tilesPerRow = s.tilesPerRow := rfl
@[simp] theorem beginConvert_height (s : State) : (beginConvert s).height = s.height := rfl
@[simp] theorem beginConvert_placeIdx (s : State) : (beginConvert s).placeIdx = s.placeIdx := rfl
@[simp] theorem beginConvert_db (s : State) : (beginConvert s).db = s.db := rfl
@[simp] theorem beginConvert_pxs (s : State) : (beginConvert s).pxs = ⟨8 * s.rowCount.toNat, []⟩ := rfl
@[simp] theorem beginConvert_grid (s : State) : (beginConvert s).grid = s.grid := rfl
@[simp] theorem beginConvert_palIn (s : State) : (beginConvert s).palIn = s.palIn := rfl
@[simp] theorem beginConvert_palOut (s : State) : (beginConvert s).palOut = s.palOut := rfl
@[simp] theorem rows_beginConvert (s : State) : rows (beginConvert s) = rows s := rfl
@[simp] theorem tileCount_beginConvert (s : State) : tileCount (beginConvert s) = tileCount s := rfl
@[simp] theorem bitIdx_beginConvert (s : State) : bitIdx (beginConvert s) = bitIdx s := rfl
@[simp] theorem controlBit_beginConvert (s : State) : controlBit (beginConvert s) = controlBit s := rfl
@[simp] theorem inByte_beginConvert (s : State) (a : Nat) : inByte (beginConvert s) a = inByte s a := rfl
@[simp] theorem rowAt_beginConvert (s : State) (a : Nat) : rowAt (beginConvert s) a = rowAt s a := rfl
@[simp] theorem dupAddress_beginConvert (s : State) (i : Nat) : dupAddress (beginConvert s) i = dupAddress s i := rfl
@[simp] theorem dbByte_beginConvert (s : State) (a : Nat) : dbByte (beginConvert s) a = dbByte s a := rfl

end beginConvert

section storePixels

@[simp] theorem storePixels_win (ws : List (Nat × Pixel)) (s : State) : (storePixels ws s).win = s.win := rfl
@[simp] theorem storePixels_magic (ws : List (Nat × Pixel)) (s : State) : (storePixels ws s).magic = s.magic := rfl
@[simp] theorem storePixels_pending (ws : List (Nat × Pixel)) (s : State) : (storePixels ws s).pending = s.pending := rfl
@[simp] theorem storePixels_dupOff (ws : List (Nat × Pixel)) (s : State) : (storePixels ws s).dupOff = s.dupOff := rfl
@[simp] theorem storePixels_artOff (ws : List (Nat × Pixel)) (s : State) : (storePixels ws s).artOff = s.artOff := rfl
@[simp] theorem storePixels_rowCount (ws : List (Nat × Pixel)) (s : State) : (storePixels ws s).rowCount = s.rowCount := rfl
@[simp] theorem storePixels_bsCur (ws : List (Nat × Pixel)) (s : State) : (storePixels ws s).bsCur = s.bsCur := rfl
@[simp] theorem storePixels_artCur (ws : List (Nat × Pixel)) (s : State) : (storePixels ws s).artCur = s.artCur := rfl
@[simp] theorem storePixels_dupCur (ws : List (Nat × Pixel)) (s : State) : (storePixels ws s).dupCur = s.dupCur := rfl
@[simp] theorem storePixels_ctrl (ws : List (Nat × Pixel)) (s : State) : (storePixels ws s).ctrl = s.ctrl := rfl
@[simp] theorem storePixels_rowIdx (ws : List (Nat × Pixel)) (s : State) : (storePixels ws s).rowIdx = s.rowIdx := rfl
@[simp] theorem storePixels_row (ws : List (Nat × Pixel)) (s : State) : (storePixels ws s).row = s.row := rfl
@[simp] theorem storePixels_rawCnt (ws : List (Nat × Pixel)) (s : State) : (storePixels ws s).rawCnt = s.rawCnt := rfl
@[simp] theorem storePixels_dupCnt (ws : List (Nat × Pixel)) (s : State) : (storePixels ws s).dupCnt = s.dupCnt := rfl
@[simp] theorem storePixels_extent (ws : List (Nat × Pixel)) (s : State) : (storePixels ws s).extent = s.extent := rfl
@[simp] theorem storePixels_modeReg (ws : List (Nat × Pixel)) (s : State) : (storePixels ws s).modeReg = s.modeReg := rfl
@[simp] theorem storePixels_widthReg (ws : List (Nat × Pixel)) (s : State) : (storePixels ws s).widthReg = s.widthReg := rfl
@[simp] theorem storePixels_phase (ws : List (Nat × Pixel)) (s : State) : (storePixels ws s).phase = s.phase := rfl
@[simp] theorem storePixels_errCode (ws : List (Nat × Pixel)) (s : State) : (storePixels ws s).errCode = s.errCode := rfl
@[simp] theorem storePixels_errCause (ws : List (Nat × Pixel)) (s : State) : (storePixels ws s).errCause = s.errCause := rfl
@[simp] theorem storePixels_errAddr (ws : List (Nat × Pixel)) (s : State) : (storePixels ws s).errAddr = s.errAddr := rfl
@[simp] theorem storePixels_p2cIdx (ws : List (Nat × Pixel)) (s : State) : (storePixels ws s).p2cIdx = s.p2cIdx + 1 := rfl
@[simp] theorem storePixels_tilesPerRow (ws : List (Nat × Pixel)) (s : State) : (storePixels ws s).tilesPerRow = s.tilesPerRow := rfl
@[simp] theorem storePixels_height (ws : List (Nat × Pixel)) (s : State) : (storePixels ws s).height = s.height := rfl
@[simp] theorem storePixels_placeIdx (ws : List (Nat × Pixel)) (s : State) : (storePixels ws s).placeIdx = s.placeIdx := rfl
@[simp] theorem storePixels_db (ws : List (Nat × Pixel)) (s : State) : (storePixels ws s).db = s.db := rfl
@[simp] theorem storePixels_pxs (ws : List (Nat × Pixel)) (s : State) : (storePixels ws s).pxs = bufPutAll s.pxs ws := rfl
@[simp] theorem storePixels_grid (ws : List (Nat × Pixel)) (s : State) : (storePixels ws s).grid = s.grid := rfl
@[simp] theorem storePixels_palIn (ws : List (Nat × Pixel)) (s : State) : (storePixels ws s).palIn = s.palIn := rfl
@[simp] theorem storePixels_palOut (ws : List (Nat × Pixel)) (s : State) : (storePixels ws s).palOut = s.palOut := rfl
@[simp] theorem rows_storePixels (ws : List (Nat × Pixel)) (s : State) : rows (storePixels ws s) = rows s := rfl
@[simp] theorem tileCount_storePixels (ws : List (Nat × Pixel)) (s : State) : tileCount (storePixels ws s) = tileCount s := rfl
@[simp] theorem bitIdx_storePixels (ws : List (Nat × Pixel)) (s : State) : bitIdx (storePixels ws s) = bitIdx s := rfl
@[simp] theorem busy_storePixels (ws : List (Nat × Pixel)) (s : State) : busy (storePixels ws s) = busy s := rfl
@[simp] theorem controlBit_storePixels (ws : List (Nat × Pixel)) (s : State) : controlBit (storePixels ws s) = controlBit s := rfl
@[simp] theorem inByte_storePixels (ws : List (Nat × Pixel)) (s : State) (a : Nat) : inByte (storePixels ws s) a = inByte s a := rfl
@[simp] theorem rowAt_storePixels (ws : List (Nat × Pixel)) (s : State) (a : Nat) : rowAt (storePixels ws s) a = rowAt s a := rfl
@[simp] theorem dupAddress_storePixels (ws : List (Nat × Pixel)) (s : State) (i : Nat) : dupAddress (storePixels ws s) i = dupAddress s i := rfl
@[simp] theorem dbByte_storePixels (ws : List (Nat × Pixel)) (s : State) (a : Nat) : dbByte (storePixels ws s) a = dbByte s a := rfl

end storePixels

section beginAssemble

@[simp] theorem beginAssemble_win (n h : Nat) (s : State) : (beginAssemble n h s).win = s.win := rfl
@[simp] theorem beginAssemble_magic (n h : Nat) (s : State) : (beginAssemble n h s).magic = s.magic := rfl
@[simp] theorem beginAssemble_pending (n h : Nat) (s : State) : (beginAssemble n h s).pending = s.pending := rfl
@[simp] theorem beginAssemble_dupOff (n h : Nat) (s : State) : (beginAssemble n h s).dupOff = s.dupOff := rfl
@[simp] theorem beginAssemble_artOff (n h : Nat) (s : State) : (beginAssemble n h s).artOff = s.artOff := rfl
@[simp] theorem beginAssemble_rowCount (n h : Nat) (s : State) : (beginAssemble n h s).rowCount = s.rowCount := rfl
@[simp] theorem beginAssemble_bsCur (n h : Nat) (s : State) : (beginAssemble n h s).bsCur = s.bsCur := rfl
@[simp] theorem beginAssemble_artCur (n h : Nat) (s : State) : (beginAssemble n h s).artCur = s.artCur := rfl
@[simp] theorem beginAssemble_dupCur (n h : Nat) (s : State) : (beginAssemble n h s).dupCur = s.dupCur := rfl
@[simp] theorem beginAssemble_ctrl (n h : Nat) (s : State) : (beginAssemble n h s).ctrl = s.ctrl := rfl
@[simp] theorem beginAssemble_rowIdx (n h : Nat) (s : State) : (beginAssemble n h s).rowIdx = s.rowIdx := rfl
@[simp] theorem beginAssemble_row (n h : Nat) (s : State) : (beginAssemble n h s).row = s.row := rfl
@[simp] theorem beginAssemble_rawCnt (n h : Nat) (s : State) : (beginAssemble n h s).rawCnt = s.rawCnt := rfl
@[simp] theorem beginAssemble_dupCnt (n h : Nat) (s : State) : (beginAssemble n h s).dupCnt = s.dupCnt := rfl
@[simp] theorem beginAssemble_extent (n h : Nat) (s : State) : (beginAssemble n h s).extent = s.extent := rfl
@[simp] theorem beginAssemble_modeReg (n h : Nat) (s : State) : (beginAssemble n h s).modeReg = s.modeReg := rfl
@[simp] theorem beginAssemble_widthReg (n h : Nat) (s : State) : (beginAssemble n h s).widthReg = s.widthReg := rfl
@[simp] theorem beginAssemble_phase (n h : Nat) (s : State) : (beginAssemble n h s).phase = .assemble := rfl
@[simp] theorem beginAssemble_errCode (n h : Nat) (s : State) : (beginAssemble n h s).errCode = s.errCode := rfl
@[simp] theorem beginAssemble_errCause (n h : Nat) (s : State) : (beginAssemble n h s).errCause = s.errCause := rfl
@[simp] theorem beginAssemble_errAddr (n h : Nat) (s : State) : (beginAssemble n h s).errAddr = s.errAddr := rfl
@[simp] theorem beginAssemble_p2cIdx (n h : Nat) (s : State) : (beginAssemble n h s).p2cIdx = s.p2cIdx := rfl
@[simp] theorem beginAssemble_tilesPerRow (n h : Nat) (s : State) : (beginAssemble n h s).tilesPerRow = n := rfl
@[simp] theorem beginAssemble_height (n h : Nat) (s : State) : (beginAssemble n h s).height = h := rfl
@[simp] theorem beginAssemble_placeIdx (n h : Nat) (s : State) : (beginAssemble n h s).placeIdx = 0 := rfl
@[simp] theorem beginAssemble_db (n h : Nat) (s : State) : (beginAssemble n h s).db = s.db := rfl
@[simp] theorem beginAssemble_pxs (n h : Nat) (s : State) : (beginAssemble n h s).pxs = s.pxs := rfl
@[simp] theorem beginAssemble_grid (n h : Nat) (s : State) : (beginAssemble n h s).grid = ⟨s.widthReg * h, []⟩ := rfl
@[simp] theorem beginAssemble_palIn (n h : Nat) (s : State) : (beginAssemble n h s).palIn = s.palIn := rfl
@[simp] theorem beginAssemble_palOut (n h : Nat) (s : State) : (beginAssemble n h s).palOut = s.palOut := rfl
@[simp] theorem rows_beginAssemble (n h : Nat) (s : State) : rows (beginAssemble n h s) = rows s := rfl
@[simp] theorem tileCount_beginAssemble (n h : Nat) (s : State) : tileCount (beginAssemble n h s) = tileCount s := rfl
@[simp] theorem bitIdx_beginAssemble (n h : Nat) (s : State) : bitIdx (beginAssemble n h s) = bitIdx s := rfl
@[simp] theorem controlBit_beginAssemble (n h : Nat) (s : State) : controlBit (beginAssemble n h s) = controlBit s := rfl
@[simp] theorem inByte_beginAssemble (n h : Nat) (s : State) (a : Nat) : inByte (beginAssemble n h s) a = inByte s a := rfl
@[simp] theorem rowAt_beginAssemble (n h : Nat) (s : State) (a : Nat) : rowAt (beginAssemble n h s) a = rowAt s a := rfl
@[simp] theorem dupAddress_beginAssemble (n h : Nat) (s : State) (i : Nat) : dupAddress (beginAssemble n h s) i = dupAddress s i := rfl
@[simp] theorem dbByte_beginAssemble (n h : Nat) (s : State) (a : Nat) : dbByte (beginAssemble n h s) a = dbByte s a := rfl
@[simp] theorem pxsPixel_beginAssemble (n h : Nat) (s : State) (a : Nat) : pxsPixel (beginAssemble n h s) a = pxsPixel s a := rfl

end beginAssemble

section storeTile

@[simp] theorem storeTile_win (ws : List (Nat × Pixel)) (s : State) : (storeTile ws s).win = s.win := rfl
@[simp] theorem storeTile_magic (ws : List (Nat × Pixel)) (s : State) : (storeTile ws s).magic = s.magic := rfl
@[simp] theorem storeTile_pending (ws : List (Nat × Pixel)) (s : State) : (storeTile ws s).pending = s.pending := rfl
@[simp] theorem storeTile_dupOff (ws : List (Nat × Pixel)) (s : State) : (storeTile ws s).dupOff = s.dupOff := rfl
@[simp] theorem storeTile_artOff (ws : List (Nat × Pixel)) (s : State) : (storeTile ws s).artOff = s.artOff := rfl
@[simp] theorem storeTile_rowCount (ws : List (Nat × Pixel)) (s : State) : (storeTile ws s).rowCount = s.rowCount := rfl
@[simp] theorem storeTile_bsCur (ws : List (Nat × Pixel)) (s : State) : (storeTile ws s).bsCur = s.bsCur := rfl
@[simp] theorem storeTile_artCur (ws : List (Nat × Pixel)) (s : State) : (storeTile ws s).artCur = s.artCur := rfl
@[simp] theorem storeTile_dupCur (ws : List (Nat × Pixel)) (s : State) : (storeTile ws s).dupCur = s.dupCur := rfl
@[simp] theorem storeTile_ctrl (ws : List (Nat × Pixel)) (s : State) : (storeTile ws s).ctrl = s.ctrl := rfl
@[simp] theorem storeTile_rowIdx (ws : List (Nat × Pixel)) (s : State) : (storeTile ws s).rowIdx = s.rowIdx := rfl
@[simp] theorem storeTile_row (ws : List (Nat × Pixel)) (s : State) : (storeTile ws s).row = s.row := rfl
@[simp] theorem storeTile_rawCnt (ws : List (Nat × Pixel)) (s : State) : (storeTile ws s).rawCnt = s.rawCnt := rfl
@[simp] theorem storeTile_dupCnt (ws : List (Nat × Pixel)) (s : State) : (storeTile ws s).dupCnt = s.dupCnt := rfl
@[simp] theorem storeTile_extent (ws : List (Nat × Pixel)) (s : State) : (storeTile ws s).extent = s.extent := rfl
@[simp] theorem storeTile_modeReg (ws : List (Nat × Pixel)) (s : State) : (storeTile ws s).modeReg = s.modeReg := rfl
@[simp] theorem storeTile_widthReg (ws : List (Nat × Pixel)) (s : State) : (storeTile ws s).widthReg = s.widthReg := rfl
@[simp] theorem storeTile_phase (ws : List (Nat × Pixel)) (s : State) : (storeTile ws s).phase = s.phase := rfl
@[simp] theorem storeTile_errCode (ws : List (Nat × Pixel)) (s : State) : (storeTile ws s).errCode = s.errCode := rfl
@[simp] theorem storeTile_errCause (ws : List (Nat × Pixel)) (s : State) : (storeTile ws s).errCause = s.errCause := rfl
@[simp] theorem storeTile_errAddr (ws : List (Nat × Pixel)) (s : State) : (storeTile ws s).errAddr = s.errAddr := rfl
@[simp] theorem storeTile_p2cIdx (ws : List (Nat × Pixel)) (s : State) : (storeTile ws s).p2cIdx = s.p2cIdx := rfl
@[simp] theorem storeTile_tilesPerRow (ws : List (Nat × Pixel)) (s : State) : (storeTile ws s).tilesPerRow = s.tilesPerRow := rfl
@[simp] theorem storeTile_height (ws : List (Nat × Pixel)) (s : State) : (storeTile ws s).height = s.height := rfl
@[simp] theorem storeTile_placeIdx (ws : List (Nat × Pixel)) (s : State) : (storeTile ws s).placeIdx = s.placeIdx + 1 := rfl
@[simp] theorem storeTile_db (ws : List (Nat × Pixel)) (s : State) : (storeTile ws s).db = s.db := rfl
@[simp] theorem storeTile_pxs (ws : List (Nat × Pixel)) (s : State) : (storeTile ws s).pxs = s.pxs := rfl
@[simp] theorem storeTile_grid (ws : List (Nat × Pixel)) (s : State) : (storeTile ws s).grid = bufPutAll s.grid ws := rfl
@[simp] theorem storeTile_palIn (ws : List (Nat × Pixel)) (s : State) : (storeTile ws s).palIn = s.palIn := rfl
@[simp] theorem storeTile_palOut (ws : List (Nat × Pixel)) (s : State) : (storeTile ws s).palOut = s.palOut := rfl
@[simp] theorem rows_storeTile (ws : List (Nat × Pixel)) (s : State) : rows (storeTile ws s) = rows s := rfl
@[simp] theorem tileCount_storeTile (ws : List (Nat × Pixel)) (s : State) : tileCount (storeTile ws s) = tileCount s := rfl
@[simp] theorem bitIdx_storeTile (ws : List (Nat × Pixel)) (s : State) : bitIdx (storeTile ws s) = bitIdx s := rfl
@[simp] theorem busy_storeTile (ws : List (Nat × Pixel)) (s : State) : busy (storeTile ws s) = busy s := rfl
@[simp] theorem controlBit_storeTile (ws : List (Nat × Pixel)) (s : State) : controlBit (storeTile ws s) = controlBit s := rfl
@[simp] theorem inByte_storeTile (ws : List (Nat × Pixel)) (s : State) (a : Nat) : inByte (storeTile ws s) a = inByte s a := rfl
@[simp] theorem rowAt_storeTile (ws : List (Nat × Pixel)) (s : State) (a : Nat) : rowAt (storeTile ws s) a = rowAt s a := rfl
@[simp] theorem dupAddress_storeTile (ws : List (Nat × Pixel)) (s : State) (i : Nat) : dupAddress (storeTile ws s) i = dupAddress s i := rfl
@[simp] theorem dbByte_storeTile (ws : List (Nat × Pixel)) (s : State) (a : Nat) : dbByte (storeTile ws s) a = dbByte s a := rfl
@[simp] theorem pxsPixel_storeTile (ws : List (Nat × Pixel)) (s : State) (a : Nat) : pxsPixel (storeTile ws s) a = pxsPixel s a := rfl

end storeTile

section storeColour

@[simp] theorem storeColour_win (k : Nat) (c : Rgb) (s : State) : (storeColour k c s).win = s.win := rfl
@[simp] theorem storeColour_magic (k : Nat) (c : Rgb) (s : State) : (storeColour k c s).magic = s.magic := rfl
@[simp] theorem storeColour_pending (k : Nat) (c : Rgb) (s : State) : (storeColour k c s).pending = s.pending := rfl
@[simp] theorem storeColour_dupOff (k : Nat) (c : Rgb) (s : State) : (storeColour k c s).dupOff = s.dupOff := rfl
@[simp] theorem storeColour_artOff (k : Nat) (c : Rgb) (s : State) : (storeColour k c s).artOff = s.artOff := rfl
@[simp] theorem storeColour_rowCount (k : Nat) (c : Rgb) (s : State) : (storeColour k c s).rowCount = s.rowCount := rfl
@[simp] theorem storeColour_bsCur (k : Nat) (c : Rgb) (s : State) : (storeColour k c s).bsCur = s.bsCur := rfl
@[simp] theorem storeColour_artCur (k : Nat) (c : Rgb) (s : State) : (storeColour k c s).artCur = s.artCur := rfl
@[simp] theorem storeColour_dupCur (k : Nat) (c : Rgb) (s : State) : (storeColour k c s).dupCur = s.dupCur := rfl
@[simp] theorem storeColour_ctrl (k : Nat) (c : Rgb) (s : State) : (storeColour k c s).ctrl = s.ctrl := rfl
@[simp] theorem storeColour_rowIdx (k : Nat) (c : Rgb) (s : State) : (storeColour k c s).rowIdx = s.rowIdx := rfl
@[simp] theorem storeColour_row (k : Nat) (c : Rgb) (s : State) : (storeColour k c s).row = s.row := rfl
@[simp] theorem storeColour_rawCnt (k : Nat) (c : Rgb) (s : State) : (storeColour k c s).rawCnt = s.rawCnt := rfl
@[simp] theorem storeColour_dupCnt (k : Nat) (c : Rgb) (s : State) : (storeColour k c s).dupCnt = s.dupCnt := rfl
@[simp] theorem storeColour_extent (k : Nat) (c : Rgb) (s : State) : (storeColour k c s).extent = s.extent := rfl
@[simp] theorem storeColour_modeReg (k : Nat) (c : Rgb) (s : State) : (storeColour k c s).modeReg = s.modeReg := rfl
@[simp] theorem storeColour_widthReg (k : Nat) (c : Rgb) (s : State) : (storeColour k c s).widthReg = s.widthReg := rfl
@[simp] theorem storeColour_phase (k : Nat) (c : Rgb) (s : State) : (storeColour k c s).phase = s.phase := rfl
@[simp] theorem storeColour_errCode (k : Nat) (c : Rgb) (s : State) : (storeColour k c s).errCode = s.errCode := rfl
@[simp] theorem storeColour_errCause (k : Nat) (c : Rgb) (s : State) : (storeColour k c s).errCause = s.errCause := rfl
@[simp] theorem storeColour_errAddr (k : Nat) (c : Rgb) (s : State) : (storeColour k c s).errAddr = s.errAddr := rfl
@[simp] theorem storeColour_p2cIdx (k : Nat) (c : Rgb) (s : State) : (storeColour k c s).p2cIdx = s.p2cIdx := rfl
@[simp] theorem storeColour_tilesPerRow (k : Nat) (c : Rgb) (s : State) : (storeColour k c s).tilesPerRow = s.tilesPerRow := rfl
@[simp] theorem storeColour_height (k : Nat) (c : Rgb) (s : State) : (storeColour k c s).height = s.height := rfl
@[simp] theorem storeColour_placeIdx (k : Nat) (c : Rgb) (s : State) : (storeColour k c s).placeIdx = s.placeIdx := rfl
@[simp] theorem storeColour_db (k : Nat) (c : Rgb) (s : State) : (storeColour k c s).db = s.db := rfl
@[simp] theorem storeColour_pxs (k : Nat) (c : Rgb) (s : State) : (storeColour k c s).pxs = s.pxs := rfl
@[simp] theorem storeColour_grid (k : Nat) (c : Rgb) (s : State) : (storeColour k c s).grid = s.grid := rfl
@[simp] theorem storeColour_palIn (k : Nat) (c : Rgb) (s : State) : (storeColour k c s).palIn = s.palIn := rfl
@[simp] theorem storeColour_palOut (k : Nat) (c : Rgb) (s : State) : (storeColour k c s).palOut = bufPutAll s.palOut [(k, c)] := rfl
@[simp] theorem rows_storeColour (k : Nat) (c : Rgb) (s : State) : rows (storeColour k c s) = rows s := rfl
@[simp] theorem tileCount_storeColour (k : Nat) (c : Rgb) (s : State) : tileCount (storeColour k c s) = tileCount s := rfl
@[simp] theorem bitIdx_storeColour (k : Nat) (c : Rgb) (s : State) : bitIdx (storeColour k c s) = bitIdx s := rfl
@[simp] theorem busy_storeColour (k : Nat) (c : Rgb) (s : State) : busy (storeColour k c s) = busy s := rfl
@[simp] theorem controlBit_storeColour (k : Nat) (c : Rgb) (s : State) : controlBit (storeColour k c s) = controlBit s := rfl
@[simp] theorem inByte_storeColour (k : Nat) (c : Rgb) (s : State) (a : Nat) : inByte (storeColour k c s) a = inByte s a := rfl
@[simp] theorem rowAt_storeColour (k : Nat) (c : Rgb) (s : State) (a : Nat) : rowAt (storeColour k c s) a = rowAt s a := rfl
@[simp] theorem dupAddress_storeColour (k : Nat) (c : Rgb) (s : State) (i : Nat) : dupAddress (storeColour k c s) i = dupAddress s i := rfl
@[simp] theorem dbByte_storeColour (k : Nat) (c : Rgb) (s : State) (a : Nat) : dbByte (storeColour k c s) a = dbByte s a := rfl
@[simp] theorem pxsPixel_storeColour (k : Nat) (c : Rgb) (s : State) (a : Nat) : pxsPixel (storeColour k c s) a = pxsPixel s a := rfl

end storeColour

section setPending

@[simp] theorem setPending_win (cs : List Command) (s : State) : (setPending cs s).win = s.win := rfl
@[simp] theorem setPending_magic (cs : List Command) (s : State) : (setPending cs s).magic = s.magic := rfl
@[simp] theorem setPending_pending (cs : List Command) (s : State) : (setPending cs s).pending = cs := rfl
@[simp] theorem setPending_dupOff (cs : List Command) (s : State) : (setPending cs s).dupOff = s.dupOff := rfl
@[simp] theorem setPending_artOff (cs : List Command) (s : State) : (setPending cs s).artOff = s.artOff := rfl
@[simp] theorem setPending_rowCount (cs : List Command) (s : State) : (setPending cs s).rowCount = s.rowCount := rfl
@[simp] theorem setPending_bsCur (cs : List Command) (s : State) : (setPending cs s).bsCur = s.bsCur := rfl
@[simp] theorem setPending_artCur (cs : List Command) (s : State) : (setPending cs s).artCur = s.artCur := rfl
@[simp] theorem setPending_dupCur (cs : List Command) (s : State) : (setPending cs s).dupCur = s.dupCur := rfl
@[simp] theorem setPending_ctrl (cs : List Command) (s : State) : (setPending cs s).ctrl = s.ctrl := rfl
@[simp] theorem setPending_rowIdx (cs : List Command) (s : State) : (setPending cs s).rowIdx = s.rowIdx := rfl
@[simp] theorem setPending_row (cs : List Command) (s : State) : (setPending cs s).row = s.row := rfl
@[simp] theorem setPending_rawCnt (cs : List Command) (s : State) : (setPending cs s).rawCnt = s.rawCnt := rfl
@[simp] theorem setPending_dupCnt (cs : List Command) (s : State) : (setPending cs s).dupCnt = s.dupCnt := rfl
@[simp] theorem setPending_extent (cs : List Command) (s : State) : (setPending cs s).extent = s.extent := rfl
@[simp] theorem setPending_modeReg (cs : List Command) (s : State) : (setPending cs s).modeReg = s.modeReg := rfl
@[simp] theorem setPending_widthReg (cs : List Command) (s : State) : (setPending cs s).widthReg = s.widthReg := rfl
@[simp] theorem setPending_phase (cs : List Command) (s : State) : (setPending cs s).phase = s.phase := rfl
@[simp] theorem setPending_errCode (cs : List Command) (s : State) : (setPending cs s).errCode = s.errCode := rfl
@[simp] theorem setPending_errCause (cs : List Command) (s : State) : (setPending cs s).errCause = s.errCause := rfl
@[simp] theorem setPending_errAddr (cs : List Command) (s : State) : (setPending cs s).errAddr = s.errAddr := rfl
@[simp] theorem setPending_p2cIdx (cs : List Command) (s : State) : (setPending cs s).p2cIdx = s.p2cIdx := rfl
@[simp] theorem setPending_tilesPerRow (cs : List Command) (s : State) : (setPending cs s).tilesPerRow = s.tilesPerRow := rfl
@[simp] theorem setPending_height (cs : List Command) (s : State) : (setPending cs s).height = s.height := rfl
@[simp] theorem setPending_placeIdx (cs : List Command) (s : State) : (setPending cs s).placeIdx = s.placeIdx := rfl
@[simp] theorem setPending_db (cs : List Command) (s : State) : (setPending cs s).db = s.db := rfl
@[simp] theorem setPending_pxs (cs : List Command) (s : State) : (setPending cs s).pxs = s.pxs := rfl
@[simp] theorem setPending_grid (cs : List Command) (s : State) : (setPending cs s).grid = s.grid := rfl
@[simp] theorem setPending_palIn (cs : List Command) (s : State) : (setPending cs s).palIn = s.palIn := rfl
@[simp] theorem setPending_palOut (cs : List Command) (s : State) : (setPending cs s).palOut = s.palOut := rfl
@[simp] theorem rows_setPending (cs : List Command) (s : State) : rows (setPending cs s) = rows s := rfl
@[simp] theorem tileCount_setPending (cs : List Command) (s : State) : tileCount (setPending cs s) = tileCount s := rfl
@[simp] theorem bitIdx_setPending (cs : List Command) (s : State) : bitIdx (setPending cs s) = bitIdx s := rfl
@[simp] theorem busy_setPending (cs : List Command) (s : State) : busy (setPending cs s) = busy s := rfl
@[simp] theorem controlBit_setPending (cs : List Command) (s : State) : controlBit (setPending cs s) = controlBit s := rfl
@[simp] theorem inByte_setPending (cs : List Command) (s : State) (a : Nat) : inByte (setPending cs s) a = inByte s a := rfl
@[simp] theorem rowAt_setPending (cs : List Command) (s : State) (a : Nat) : rowAt (setPending cs s) a = rowAt s a := rfl
@[simp] theorem dupAddress_setPending (cs : List Command) (s : State) (i : Nat) : dupAddress (setPending cs s) i = dupAddress s i := rfl
@[simp] theorem dbByte_setPending (cs : List Command) (s : State) (a : Nat) : dbByte (setPending cs s) a = dbByte s a := rfl
@[simp] theorem pxsPixel_setPending (cs : List Command) (s : State) (a : Nat) : pxsPixel (setPending cs s) a = pxsPixel s a := rfl

end setPending

section clearRegisters

@[simp] theorem clearRegisters_win (s : State) : (clearRegisters s).win = s.win := rfl
@[simp] theorem clearRegisters_magic (s : State) : (clearRegisters s).magic = s.magic := rfl
@[simp] theorem clearRegisters_pending (s : State) : (clearRegisters s).pending = s.pending := rfl
@[simp] theorem clearRegisters_dupOff (s : State) : (clearRegisters s).dupOff = 0 := rfl
@[simp] theorem clearRegisters_artOff (s : State) : (clearRegisters s).artOff = 0 := rfl
@[simp] theorem clearRegisters_rowCount (s : State) : (clearRegisters s).rowCount = 0 := rfl
@[simp] theorem clearRegisters_bsCur (s : State) : (clearRegisters s).bsCur = 0 := rfl
@[simp] theorem clearRegisters_artCur (s : State) : (clearRegisters s).artCur = 0 := rfl
@[simp] theorem clearRegisters_dupCur (s : State) : (clearRegisters s).dupCur = 0 := rfl
@[simp] theorem clearRegisters_ctrl (s : State) : (clearRegisters s).ctrl = 0 := rfl
@[simp] theorem clearRegisters_rowIdx (s : State) : (clearRegisters s).rowIdx = 0 := rfl
@[simp] theorem clearRegisters_row (s : State) : (clearRegisters s).row = ⟨0, 0, 0, 0⟩ := rfl
@[simp] theorem clearRegisters_rawCnt (s : State) : (clearRegisters s).rawCnt = 0 := rfl
@[simp] theorem clearRegisters_dupCnt (s : State) : (clearRegisters s).dupCnt = 0 := rfl
@[simp] theorem clearRegisters_extent (s : State) : (clearRegisters s).extent = 0 := rfl
@[simp] theorem clearRegisters_modeReg (s : State) : (clearRegisters s).modeReg = .rawOnly := rfl
@[simp] theorem clearRegisters_widthReg (s : State) : (clearRegisters s).widthReg = 0 := rfl
@[simp] theorem clearRegisters_phase (s : State) : (clearRegisters s).phase = .idle := rfl
@[simp] theorem clearRegisters_errCode (s : State) : (clearRegisters s).errCode = .none := rfl
@[simp] theorem clearRegisters_errCause (s : State) : (clearRegisters s).errCause = .none := rfl
@[simp] theorem clearRegisters_errAddr (s : State) : (clearRegisters s).errAddr = 0 := rfl
@[simp] theorem clearRegisters_p2cIdx (s : State) : (clearRegisters s).p2cIdx = 0 := rfl
@[simp] theorem clearRegisters_tilesPerRow (s : State) : (clearRegisters s).tilesPerRow = 0 := rfl
@[simp] theorem clearRegisters_height (s : State) : (clearRegisters s).height = 0 := rfl
@[simp] theorem clearRegisters_placeIdx (s : State) : (clearRegisters s).placeIdx = 0 := rfl
@[simp] theorem clearRegisters_db (s : State) : (clearRegisters s).db = .empty := rfl
@[simp] theorem clearRegisters_pxs (s : State) : (clearRegisters s).pxs = .empty := rfl
@[simp] theorem clearRegisters_grid (s : State) : (clearRegisters s).grid = .empty := rfl
@[simp] theorem clearRegisters_palIn (s : State) : (clearRegisters s).palIn = s.palIn := rfl
@[simp] theorem clearRegisters_palOut (s : State) : (clearRegisters s).palOut = s.palOut := rfl
@[simp] theorem inByte_clearRegisters (s : State) (a : Nat) : inByte (clearRegisters s) a = inByte s a := rfl
@[simp] theorem rowAt_clearRegisters (s : State) (a : Nat) : rowAt (clearRegisters s) a = rowAt s a := rfl

end clearRegisters

@[simp] theorem rows_loadHeader (h : Header) (s : State) : rows (loadHeader h s) = h.rowCount.toNat := rfl
@[simp] theorem tileCount_loadHeader (h : Header) (s : State) : tileCount (loadHeader h s) = h.rowCount.toNat / 8 := rfl

end Sys2Proof.Machine
end

