-- ==== Sys2Proof/Laws/Ops.lean ====
section
/-! SUPPORT. What each shared operation can do, said once: the end of a step, the bounds check, the row read, the
bytes a fetch sees, and the assembly of fields and indices from bytes. -/

namespace Sys2Proof.Machine

/-! ### The end of a step -/

@[simp] theorem settle_ok (s t : State) : settle s (.ok t) = t := rfl

@[simp] theorem settle_error (s : State) (e : Raise) : settle s (.error e) = raiseFault e s := rfl

theorem settle_cases {s t : State} {r : Except Raise State} (h : settle s r = t) :
    r = .ok t ∨ ∃ e, r = .error e ∧ t = raiseFault e s := by
  cases r with
  | ok u => exact .inl (congrArg _ h)
  | error e => exact .inr ⟨e, rfl, h.symm⟩

/-! ### The bounds check and the row read -/

theorem checkBounds_of_le {c : ErrCause} {a n : Nat} {s : State} (h : a + n ≤ s.win.size) : checkBounds c a n s = .ok () :=
  if_pos h

theorem checkBounds_of_lt {c : ErrCause} {a n : Nat} {s : State} (h : s.win.size < a + n) :
    checkBounds c a n s = .error ⟨c, a⟩ := if_neg (Nat.not_le.mpr h)

theorem readRow_of_le {c : ErrCause} {a : Nat} {s : State} (h : a + 4 ≤ s.win.size) :
    readRow c a s = .ok (rowAt s a) := by simp [readRow, checkBounds_of_le h]

theorem readRow_of_lt {c : ErrCause} {a : Nat} {s : State} (h : s.win.size < a + 4) :
    readRow c a s = .error ⟨c, a⟩ := by simp [readRow, checkBounds_of_lt h]

/-- The row store: the latch, the four bytes, the untouched ones, the count. -/
theorem cellGet_storeRow_other (r : Row) (s : State) {a : Nat} (h : a < 4 * s.rowIdx ∨ 4 * s.rowIdx + 4 ≤ a) :
    cellGet (storeRow r s).db.cells a = cellGet s.db.cells a := by
  rw [storeRow_db, cellGet_bufPutAll_other]
  intro p hp
  have := rowCells_address hp
  omega

theorem cellGet_storeRow_at (r : Row) (s : State) {p : Nat × Byte} (h : p ∈ rowCells s.rowIdx r) :
    cellGet (storeRow r s).db.cells p.1 = some p.2 := by
  rw [storeRow_db]
  exact cellGet_bufPutAll_mem _ _ (rowCells_nodup _ _) h

/-! ### What a fetch sees -/

theorem windowBytes_of_le (s : State) (a n : Nat) (h : s.win.size ≤ a) : windowBytes s a n = [] := by
  cases n with
  | zero => rfl
  | succ n => simp [windowBytes, Nat.not_lt.mpr h]

theorem windowBytes_succ (s : State) (a n : Nat) (h : a < s.win.size) :
    windowBytes s a (n + 1) = inByte s a :: windowBytes s (a + 1) n := by simp [windowBytes, h]

theorem windowBytes_length_le (s : State) (a n : Nat) : (windowBytes s a n).length ≤ s.win.size - a := by
  induction n generalizing a with
  | zero => simp [windowBytes]
  | succ n ih =>
    by_cases h : a < s.win.size
    · rw [windowBytes_succ s a n h, List.length_cons]
      have := ih (a + 1)
      omega
    · rw [windowBytes_of_le s a _ (by omega)]
      simp

theorem windowBytes_congr {s t : State} (h : s.win = t.win) (a n : Nat) : windowBytes s a n = windowBytes t a n := by
  induction n generalizing a with
  | zero => rfl
  | succ n ih => simp only [windowBytes, inByte, h, ih]

/-- The header's eight bytes, when the window holds them. -/
theorem windowBytes_header (s : State) (h : 8 ≤ s.win.size) :
    windowBytes s 0 8 = [inByte s 0, inByte s 1, inByte s 2, inByte s 3, inByte s 4, inByte s 5, inByte s 6,
      inByte s 7] := by
  simp only [windowBytes]
  rw [if_pos (by omega), if_pos (by omega), if_pos (by omega), if_pos (by omega), if_pos (by omega),
    if_pos (by omega), if_pos (by omega), if_pos (by omega)]

theorem decodeHeader_short {bs : List Byte} (h : bs.length < 8) : decodeHeader bs = .error .truncatedHeader := by
  match bs with
  | [] | [_] | [_, _] | [_, _, _] | [_, _, _, _] | [_, _, _, _, _] | [_, _, _, _, _, _] | [_, _, _, _, _, _, _] => rfl
  | _ :: _ :: _ :: _ :: _ :: _ :: _ :: _ :: _ => simp at h; omega

/-! ### Fields and indices -/

theorem le16_toNat (b0 b1 : Byte) : (le16 b0 b1).toNat = b0.toNat ||| b1.toNat <<< 8 := by
  rw [le16, BitVec.toNat_append, Nat.or_comm]

theorem le16_eq_ofNat (b0 b1 : Byte) : le16 b0 b1 = BitVec.ofNat 16 (b0.toNat ||| b1.toNat <<< 8) := by
  rw [← le16_toNat, BitVec.ofNat_toNat]
  simp

theorem index12_toNat (b0 b1 : Byte) : (index12 b0 b1).toNat = (b0.toNat &&& 0x0F) <<< 8 ||| b1.toNat := by
  rw [index12, BitVec.toNat_append, BitVec.toNat_setWidth]
  congr 2
  exact (Nat.and_two_pow_sub_one_eq_mod b0.toNat 4).symm

theorem index12_eq_ofNat (b0 b1 : Byte) :
    index12 b0 b1 = BitVec.ofNat 12 ((b0.toNat &&& 0x0F) <<< 8 ||| b1.toNat) := by
  rw [← index12_toNat, BitVec.ofNat_toNat]
  simp

theorem lt_F0_iff (b : Byte) : b < 0xF0#8 ↔ b.toNat < 0xF0 := by rw [BitVec.lt_def]; rfl

/-- The header decoded from a window that holds one. -/
theorem decodeHeader_window (s : State) (h : 8 ≤ s.win.size) :
    decodeHeader (windowBytes s 0 8) = .ok (⟨BitVec.ofNat 16 (refHalf (inByte s) 0),
      BitVec.ofNat 16 (refHalf (inByte s) 2), BitVec.ofNat 16 (refHalf (inByte s) 4),
      BitVec.ofNat 16 (refHalf (inByte s) 6)⟩, []) := by
  rw [windowBytes_header s h]
  simp [decodeHeader, le16_eq_ofNat, refHalf]

theorem refHalf_lt (inp : Nat → Byte) (a : Nat) : refHalf inp a < 2 ^ 16 := by
  rw [refHalf, ← le16_toNat]
  exact (le16 _ _).isLt

@[simp] theorem toNat_ofNat_refHalf (inp : Nat → Byte) (a : Nat) :
    (BitVec.ofNat 16 (refHalf inp a)).toNat = refHalf inp a := by
  rw [BitVec.toNat_ofNat, Nat.mod_eq_of_lt (refHalf_lt inp a)]

/-- The two results of decoding a duplicated row, and its two rejections. -/
theorem decodeIndex_one {b0 : Byte} (h : b0.toNat < 0xF0) (rest : List Byte) :
    decodeIndex (b0 :: rest) = .ok (.dup1 b0, rest) := by
  simp [decodeIndex, (lt_F0_iff b0).mpr h]

theorem decodeIndex_two {b0 : Byte} (h : 0xF0 ≤ b0.toNat) (b1 : Byte) (rest : List Byte) :
    decodeIndex (b0 :: b1 :: rest) = .ok (.dup2 (index12 b0 b1), rest) := by
  have : ¬ b0 < 0xF0#8 := by rw [lt_F0_iff]; omega
  simp [decodeIndex, this]

theorem decodeIndex_cut {b0 : Byte} (h : 0xF0 ≤ b0.toNat) : decodeIndex [b0] = .error .truncatedIndex2 := by
  have : ¬ b0 < 0xF0#8 := by rw [lt_F0_iff]; omega
  simp [decodeIndex, this]

end Sys2Proof.Machine
end

