-- ==== Sys2Proof/Laws/Exec.lean ====
section
/-! SUPPORT. What each meaning can do: if it answers a next state, then it was enabled and the state is one of these.
Later proofs cite these lemmas and do not unfold a meaning. -/

namespace Sys2Proof.Machine

open Host (Outcome)

theorem execStart_next {m : Mode} {w : Nat} {s t : State} (h : execStart m w s = .next t) :
    (busy s = true ∧ t = s) ∨
    (busy s = false ∧ t = settle s (headerFromWindow (latchInputs m w s))) := by
  unfold execStart at h
  split at h
  · exact .inl ⟨‹_›, (Outcome.next.inj h).symm⟩
  · exact .inr ⟨by simpa using ‹¬ busy s = true›, (Outcome.next.inj h).symm⟩

/-- The whole of the header step, by cases. -/
theorem parseHeader_cases (h : Header) (s : State) :
    (s.win.size < 8 ∧ parseHeader h s = .error ⟨.boundsHeader, 0⟩) ∨
    (8 ≤ s.win.size ∧ h.magic ≠ s.magic ∧ parseHeader h s = .error ⟨.badMagic, 0⟩) ∨
    (8 ≤ s.win.size ∧ h.magic = s.magic ∧ h.rowCount.toNat % 8 ≠ 0 ∧ parseHeader h s = .error ⟨.partialTile, 6⟩) ∨
    (8 ≤ s.win.size ∧ h.magic = s.magic ∧ h.rowCount.toNat % 8 = 0 ∧ parseHeader h s = .ok (loadHeader h s)) := by
  by_cases h1 : s.win.size < 8
  · exact .inl ⟨h1, by simp [parseHeader, checkBounds_of_lt (show s.win.size < 0 + 8 by omega)]⟩
  · have h1' : 0 + 8 ≤ s.win.size := by omega
    by_cases h2 : h.magic = s.magic
    · by_cases h3 : h.rowCount.toNat % 8 = 0
      · exact .inr (.inr (.inr ⟨by omega, h2, h3, by simp [parseHeader, checkBounds_of_le h1', h2, h3]⟩))
      · exact .inr (.inr (.inl ⟨by omega, h2, h3, by simp [parseHeader, checkBounds_of_le h1', h2, h3]⟩))
    · exact .inr (.inl ⟨by omega, h2, by simp [parseHeader, checkBounds_of_le h1', h2]⟩)

/-- The header of the window, as START parses it. -/
def windowHeader (s : State) : Header :=
  ⟨BitVec.ofNat 16 (refHalf (inByte s) 0), BitVec.ofNat 16 (refHalf (inByte s) 2),
    BitVec.ofNat 16 (refHalf (inByte s) 4), BitVec.ofNat 16 (refHalf (inByte s) 6)⟩

theorem headerFromWindow_of_le {s : State} (h : 8 ≤ s.win.size) :
    headerFromWindow s = parseHeader (windowHeader s) s := by
  rw [headerFromWindow, decodeHeader_window s h]
  rfl

theorem headerFromWindow_of_lt {s : State} (h : s.win.size < 8) :
    headerFromWindow s = .error ⟨.boundsHeader, 0⟩ := by
  rw [headerFromWindow, decodeHeader_short]
  exact lt_of_le_of_lt (windowBytes_length_le s 0 8) (by omega)

theorem windowHeader_magic_eq_iff (s : State) :
    (windowHeader s).magic = s.magic ↔ refHalf (inByte s) 0 = s.magic.toNat := by
  rw [← BitVec.toNat_inj, windowHeader, toNat_ofNat_refHalf]

@[simp] theorem windowHeader_latchInputs (m : Mode) (w : Nat) (s : State) :
    windowHeader (latchInputs m w s) = windowHeader s := rfl

theorem execHdr_next {h : Header} {s t : State} (e : execHdr h s = .next t) :
    busy s = false ∧ t = settle s (parseHeader h s) := by
  unfold execHdr at e
  split at e
  · cases e
  · exact ⟨by simpa using ‹¬ busy s = true›, (Outcome.next.inj e).symm⟩

theorem execReset_next {s t : State} (h : execReset s = .next t) : t = clearRegisters s :=
  (Outcome.next.inj h).symm

theorem execCtrl_next {c : Byte} {s t : State} (h : execCtrl c s = .next t) :
    s.phase = .decode ∧ s.rowIdx < rows s ∧ bitIdx s = 0 ∧
    ((s.bsCur + 1 ≤ s.win.size ∧ t = latchControl c s) ∨
     (s.win.size < s.bsCur + 1 ∧ t = raiseFault ⟨.boundsCtrl, s.bsCur⟩ s)) := by
  unfold execCtrl at h
  split at h
  · rename_i he
    obtain ⟨h1, h2, h3⟩ : _ ∧ _ ∧ _ := by simpa [ctrlEnabled] using he
    refine ⟨h1, h2, h3, ?_⟩
    by_cases hb : s.bsCur + 1 ≤ s.win.size
    · rw [checkBounds_of_le hb] at h
      exact .inl ⟨hb, (Outcome.next.inj h).symm⟩
    · rw [checkBounds_of_lt (Nat.not_le.mp hb)] at h
      exact .inr ⟨Nat.not_le.mp hb, (Outcome.next.inj h).symm⟩
  · cases h

theorem execRaw_next {s t : State} (h : execRaw s = .next t) :
    s.phase = .decode ∧ s.rowIdx < rows s ∧
    ((s.artCur + 4 ≤ s.win.size ∧
        t = storeRow (rowAt s s.artCur) (countRaw s)) ∨
     (s.win.size < s.artCur + 4 ∧ t = raiseFault ⟨.boundsRawRow, s.artCur⟩ s)) := by
  unfold execRaw at h
  split at h
  · rename_i he
    obtain ⟨h1, h2⟩ : _ ∧ _ := by simpa [rowEnabled] using he
    refine ⟨h1, h2, ?_⟩
    by_cases hb : s.artCur + 4 ≤ s.win.size
    · rw [rawAddress, readRow_of_le hb] at h
      exact .inl ⟨hb, (Outcome.next.inj h).symm⟩
    · rw [rawAddress, readRow_of_lt (Nat.not_le.mp hb)] at h
      exact .inr ⟨Nat.not_le.mp hb, (Outcome.next.inj h).symm⟩
  · cases h

theorem duplicateRow_cases (index n : Nat) (s : State) :
    (dupAddress s index + 4 ≤ s.win.size ∧ duplicateRow index n s =
        .ok (storeRow (rowAt s (dupAddress s index)) (countDup n s))) ∨
    (s.win.size < dupAddress s index + 4 ∧ duplicateRow index n s = .error ⟨.boundsDupRow, dupAddress s index⟩) := by
  by_cases hb : dupAddress s index + 4 ≤ s.win.size
  · exact .inl ⟨hb, by rw [duplicateRow, readRow_of_le hb]⟩
  · exact .inr ⟨Nat.not_le.mp hb, by rw [duplicateRow, readRow_of_lt (Nat.not_le.mp hb)]⟩

theorem execDup1_next {index : Byte} {s t : State} (h : execDup1 index s = .next t) :
    s.phase = .decode ∧ s.rowIdx < rows s ∧
    ((s.win.size < s.dupCur + 1 ∧ t = raiseFault ⟨.boundsIndex, s.dupCur⟩ s) ∨
     (s.dupCur + 1 ≤ s.win.size ∧ t = settle s (duplicateRow index.toNat 1 s))) := by
  unfold execDup1 at h
  split at h
  · rename_i he
    obtain ⟨h1, h2⟩ : _ ∧ _ := by simpa [rowEnabled] using he
    refine ⟨h1, h2, ?_⟩
    by_cases hb : s.dupCur + 1 ≤ s.win.size
    · rw [checkBounds_of_le hb] at h
      exact .inr ⟨hb, (Outcome.next.inj h).symm⟩
    · rw [checkBounds_of_lt (Nat.not_le.mp hb)] at h
      exact .inl ⟨Nat.not_le.mp hb, (Outcome.next.inj h).symm⟩
  · cases h

theorem execDup2_next {index : BitVec 12} {s t : State} (h : execDup2 index s = .next t) :
    s.phase = .decode ∧ s.rowIdx < rows s ∧
    ((s.win.size < s.dupCur + 1 ∧ t = raiseFault ⟨.boundsIndex, s.dupCur⟩ s) ∨
     (s.win.size = s.dupCur + 1 ∧ t = raiseFault ⟨.boundsIndex2, s.dupCur + 1⟩ s) ∨
     (s.dupCur + 2 ≤ s.win.size ∧ t = settle s (duplicateRow index.toNat 2 s))) := by
  unfold execDup2 at h
  split at h
  · rename_i he
    obtain ⟨h1, h2⟩ : _ ∧ _ := by simpa [rowEnabled] using he
    refine ⟨h1, h2, ?_⟩
    by_cases hb : s.dupCur + 1 ≤ s.win.size
    · rw [checkBounds_of_le hb] at h
      by_cases hc : s.dupCur + 1 + 1 ≤ s.win.size
      · simp only [checkBounds_of_le hc] at h
        exact .inr (.inr ⟨by omega, (Outcome.next.inj h).symm⟩)
      · simp only [checkBounds_of_lt (Nat.not_le.mp hc)] at h
        exact .inr (.inl ⟨by omega, (Outcome.next.inj h).symm⟩)
    · rw [checkBounds_of_lt (Nat.not_le.mp hb)] at h
      exact .inl ⟨Nat.not_le.mp hb, (Outcome.next.inj h).symm⟩
  · cases h

theorem execFin_next {s t : State} (h : execFin s = .next t) :
    s.phase = .decode ∧ s.rowIdx = rows s ∧
    ((s.modeReg = .rawOnly ∧ t = setPhase .done (reportExtent s)) ∨
     (s.modeReg = .raster ∧ t = beginConvert (reportExtent s))) := by
  unfold execFin at h
  split at h
  · rename_i he
    obtain ⟨h1, h2⟩ : _ ∧ _ := by simpa [finEnabled] using he
    refine ⟨h1, h2, ?_⟩
    cases hm : s.modeReg <;> rw [hm] at h
    · exact .inl ⟨rfl, (Outcome.next.inj h).symm⟩
    · exact .inr ⟨rfl, (Outcome.next.inj h).symm⟩
  · cases h

theorem execP2c_next {r : Row} {s t : State} (h : execP2c r s = .next t) :
    s.phase = .convert ∧ s.p2cIdx < rows s ∧
    t = storePixels (pixelCells s.p2cIdx r) s := by
  unfold execP2c at h
  split at h
  · rename_i he
    obtain ⟨h1, h2⟩ : _ ∧ _ := by simpa [p2cEnabled] using he
    exact ⟨h1, h2, (Outcome.next.inj h).symm⟩
  · cases h

theorem checkLayout_cases (s : State) :
    ((s.widthReg = 0 ∨ s.widthReg % 8 ≠ 0) ∧ checkLayout s = .error ⟨.badWidth, 0⟩) ∨
    (s.widthReg ≠ 0 ∧ s.widthReg % 8 = 0 ∧ tileCount s % (s.widthReg / 8) ≠ 0 ∧
      checkLayout s = .error ⟨.tilesNotDivisible, 0⟩) ∨
    (s.widthReg ≠ 0 ∧ s.widthReg % 8 = 0 ∧ tileCount s % (s.widthReg / 8) = 0 ∧
      checkLayout s = .ok (beginAssemble (s.widthReg / 8) (tileCount s / (s.widthReg / 8) * 8) s)) := by
  by_cases h1 : s.widthReg = 0 ∨ s.widthReg % 8 ≠ 0
  · exact .inl ⟨h1, by rw [checkLayout, if_pos h1]⟩
  · have h2 : s.widthReg ≠ 0 ∧ s.widthReg % 8 = 0 := by
      constructor
      · exact fun e => h1 (.inl e)
      · exact Decidable.byContradiction fun e => h1 (.inr e)
    by_cases h3 : tileCount s % (s.widthReg / 8) = 0
    · exact .inr (.inr ⟨h2.1, h2.2, h3, by rw [checkLayout, if_neg h1, if_neg (not_not.mpr h3)]⟩)
    · exact .inr (.inl ⟨h2.1, h2.2, h3, by rw [checkLayout, if_neg h1, if_pos h3]⟩)

theorem execGridchk_next {s t : State} (h : execGridchk s = .next t) :
    s.phase = .convert ∧ s.p2cIdx = rows s ∧ t = settle s (checkLayout s) := by
  unfold execGridchk at h
  split at h
  · rename_i he
    obtain ⟨h1, h2⟩ : _ ∧ _ := by simpa [gridchkEnabled] using he
    exact ⟨h1, h2, (Outcome.next.inj h).symm⟩
  · cases h

theorem execPlace_next {s t : State} (h : execPlace s = .next t) :
    s.phase = .assemble ∧ s.placeIdx < tileCount s ∧ s.tilesPerRow ≠ 0 ∧
    t = storeTile (tileCells s s.placeIdx) s := by
  unfold execPlace at h
  split at h
  · rename_i he
    obtain ⟨h1, h2⟩ : _ ∧ _ := by simpa [placeEnabled] using he
    split at h
    · cases h
    · exact ⟨h1, h2, ‹_›, (Outcome.next.inj h).symm⟩
  · cases h

theorem execAfin_next {s t : State} (h : execAfin s = .next t) :
    s.phase = .assemble ∧ s.placeIdx = tileCount s ∧ t = setPhase .done s := by
  unfold execAfin at h
  split at h
  · rename_i he
    obtain ⟨h1, h2⟩ : _ ∧ _ := by simpa [afinEnabled] using he
    exact ⟨h1, h2, (Outcome.next.inj h).symm⟩
  · cases h

theorem execPalx_next {k : Nat} {b : Byte} {s t : State} (h : execPalx k b s = .next t) :
    k < s.palIn.size ∧ t = storeColour k (expandByte b) s := by
  unfold execPalx at h
  split at h
  · exact ⟨‹_›, (Outcome.next.inj h).symm⟩
  · cases h

/-! ### The sequencer -/

/-- What the row operation can be: RAW, DUP1, DUP2, or a missing index byte. -/
theorem rowOperation_cases (s : State) :
    (controlBit s = false ∧ rowOperation s = execRaw s) ∨
    (controlBit s = true ∧ s.win.size ≤ s.dupCur ∧
      rowOperation s = .next (raiseFault ⟨.boundsIndex, s.dupCur⟩ s)) ∨
    (controlBit s = true ∧ s.dupCur < s.win.size ∧ (inByte s s.dupCur).toNat < 0xF0 ∧
      rowOperation s = execDup1 (inByte s s.dupCur) s) ∨
    (controlBit s = true ∧ s.win.size = s.dupCur + 1 ∧ 0xF0 ≤ (inByte s s.dupCur).toNat ∧
      rowOperation s = .next (raiseFault ⟨.boundsIndex2, s.dupCur + 1⟩ s)) ∨
    (controlBit s = true ∧ s.dupCur + 2 ≤ s.win.size ∧ 0xF0 ≤ (inByte s s.dupCur).toNat ∧
      rowOperation s = execDup2 (index12 (inByte s s.dupCur) (inByte s (s.dupCur + 1))) s) := by
  unfold rowOperation runDecoded
  cases hc : controlBit s
  · exact .inl ⟨rfl, rfl⟩
  · refine .inr ?_
    by_cases h0 : s.win.size ≤ s.dupCur
    · refine .inl ⟨rfl, h0, ?_⟩
      rw [windowBytes_of_le s _ _ h0]
      rfl
    · have h0' : s.dupCur < s.win.size := Nat.not_le.mp h0
      rw [windowBytes_succ s _ _ h0']
      by_cases hb : (inByte s s.dupCur).toNat < 0xF0
      · refine .inr (.inl ⟨rfl, h0', hb, ?_⟩)
        simp only [decode, decodeIndex_one hb]
        rfl
      · have hb' := Nat.not_lt.mp hb
        by_cases h1 : s.win.size ≤ s.dupCur + 1
        · refine .inr (.inr (.inl ⟨rfl, by omega, hb', ?_⟩))
          rw [windowBytes_of_le s _ _ h1]
          simp only [decode, decodeIndex_cut hb']
          rfl
        · refine .inr (.inr (.inr ⟨rfl, by omega, hb', ?_⟩))
          rw [windowBytes_succ s _ _ (Nat.not_le.mp h1)]
          simp only [decode, decodeIndex_two hb']
          rfl

/-- The control-byte fetch: CTRL on the byte at the cursor, or its missing byte. -/
theorem controlFetch_cases (s : State) :
    (s.bsCur < s.win.size ∧ controlFetch s = execCtrl (inByte s s.bsCur) s) ∨
    (s.win.size ≤ s.bsCur ∧ controlFetch s = .next (raiseFault ⟨.boundsCtrl, s.bsCur⟩ s)) := by
  unfold controlFetch runDecoded
  by_cases h : s.bsCur < s.win.size
  · refine .inl ⟨h, ?_⟩
    rw [windowBytes_succ s _ _ h]
    rfl
  · refine .inr ⟨Nat.not_lt.mp h, ?_⟩
    rw [windowBytes_of_le s _ _ (Nat.not_lt.mp h)]
    rfl

/-- What a row operation that answers a next state can have done, whichever it was: one row copied from some address
with one cursor and one count moved, or a fault raised. -/
inductive RowOutcome (s : State) : State → Prop where
  | raw (bit : controlBit s = false) (inside : s.artCur + 4 ≤ s.win.size) :
      RowOutcome s (storeRow (rowAt s s.artCur) (countRaw s))
  | dup (bit : controlBit s = true)
      (present : s.dupCur + (refIndexAt (inByte s) s.dupCur).2 ≤ s.win.size)
      (inside : dupAddress s (refIndexAt (inByte s) s.dupCur).1 + 4 ≤ s.win.size) :
      RowOutcome s (storeRow (rowAt s (dupAddress s (refIndexAt (inByte s) s.dupCur).1))
        (countDup (refIndexAt (inByte s) s.dupCur).2 s))
  | fault (e : Raise) (cause : e.cause ≠ .none) : RowOutcome s (raiseFault e s)

theorem refIndexAt_one {inp : Nat → Byte} {d : Nat} (h : (inp d).toNat < 0xF0) :
    refIndexAt inp d = ((inp d).toNat, 1) := if_neg (by omega)

theorem refIndexAt_two {inp : Nat → Byte} {d : Nat} (h : 0xF0 ≤ (inp d).toNat) :
    refIndexAt inp d = ((index12 (inp d) (inp (d + 1))).toNat, 2) := by
  rw [index12_toNat]
  exact if_pos h

/-- An index takes one or two bytes. -/
theorem refIndexAt_length (inp : Nat → Byte) (d : Nat) : 1 ≤ (refIndexAt inp d).2 ∧ (refIndexAt inp d).2 ≤ 2 := by
  unfold refIndexAt; split <;> simp

theorem rowOperation_next {s t : State} (h : rowOperation s = .next t) : RowOutcome s t := by
  rcases rowOperation_cases s with ⟨hc, e⟩ | ⟨hc, _, e⟩ | ⟨hc, h0, hb, e⟩ | ⟨hc, _, _, e⟩ | ⟨hc, h0, hb, e⟩
  · obtain ⟨_, _, ⟨hi, rfl⟩ | ⟨_, rfl⟩⟩ := execRaw_next (e ▸ h)
    · exact .raw hc hi
    · exact .fault _ nofun
  · cases Outcome.next.inj (e ▸ h)
    exact .fault _ nofun
  · obtain ⟨_, _, ⟨_, rfl⟩ | ⟨_, rfl⟩⟩ := execDup1_next (e ▸ h)
    · exact .fault _ nofun
    · have hr := refIndexAt_one hb
      rcases duplicateRow_cases (inByte s s.dupCur).toNat 1 s with ⟨hi, e'⟩ | ⟨_, e'⟩ <;> rw [e']
      · have := RowOutcome.dup hc (by rw [hr]; exact h0) (by rw [hr]; exact hi)
        rwa [hr] at this
      · exact .fault _ nofun
  · cases Outcome.next.inj (e ▸ h)
    exact .fault _ nofun
  · obtain ⟨_, _, ⟨_, rfl⟩ | ⟨_, rfl⟩ | ⟨_, rfl⟩⟩ := execDup2_next (e ▸ h)
    · exact .fault _ nofun
    · exact .fault _ nofun
    · have hr := refIndexAt_two hb
      rcases duplicateRow_cases (index12 (inByte s s.dupCur) (inByte s (s.dupCur + 1))).toNat 2 s with
        ⟨hi, e'⟩ | ⟨_, e'⟩ <;> rw [e']
      · have := RowOutcome.dup hc (by rw [hr]; exact h0) (by rw [hr]; exact hi)
        rwa [hr] at this
      · exact .fault _ nofun

/-- A row operation where a row is enabled always answers a next state. -/
theorem rowOperation_completes {s : State} (hp : s.phase = .decode) (hr : s.rowIdx < rows s) :
    ∃ t, rowOperation s = .next t := by
  have he : rowEnabled s = true := by simp [rowEnabled, hp, hr]
  rcases rowOperation_cases s with ⟨_, e⟩ | ⟨_, _, e⟩ | ⟨_, _, _, e⟩ | ⟨_, _, _, e⟩ | ⟨_, _, _, e⟩ <;> rw [e]
  · exact ⟨_, if_pos he⟩
  · exact ⟨_, rfl⟩
  · exact ⟨_, if_pos he⟩
  · exact ⟨_, rfl⟩
  · exact ⟨_, if_pos he⟩

/-- The state a row operation starts from: at the first row of a tile, the control byte has been fetched. -/
def rowStart (s : State) : State :=
  if bitIdx s = 0 then latchControl (inByte s s.bsCur) s else s

/-! The control-byte fetch moves the control byte and the bitstream cursor only. -/

@[simp] theorem rowStart_win (s : State) : (rowStart s).win = s.win := by
  unfold rowStart; split <;> rfl

@[simp] theorem rowStart_magic (s : State) : (rowStart s).magic = s.magic := by
  unfold rowStart; split <;> rfl

@[simp] theorem rowStart_pending (s : State) : (rowStart s).pending = s.pending := by
  unfold rowStart; split <;> rfl

@[simp] theorem rowStart_dupOff (s : State) : (rowStart s).dupOff = s.dupOff := by
  unfold rowStart; split <;> rfl

@[simp] theorem rowStart_artOff (s : State) : (rowStart s).artOff = s.artOff := by
  unfold rowStart; split <;> rfl

@[simp] theorem rowStart_rowCount (s : State) : (rowStart s).rowCount = s.rowCount := by
  unfold rowStart; split <;> rfl

@[simp] theorem rowStart_artCur (s : State) : (rowStart s).artCur = s.artCur := by
  unfold rowStart; split <;> rfl

@[simp] theorem rowStart_dupCur (s : State) : (rowStart s).dupCur = s.dupCur := by
  unfold rowStart; split <;> rfl

@[simp] theorem rowStart_rowIdx (s : State) : (rowStart s).rowIdx = s.rowIdx := by
  unfold rowStart; split <;> rfl

@[simp] theorem rowStart_row (s : State) : (rowStart s).row = s.row := by
  unfold rowStart; split <;> rfl

@[simp] theorem rowStart_rawCnt (s : State) : (rowStart s).rawCnt = s.rawCnt := by
  unfold rowStart; split <;> rfl

@[simp] theorem rowStart_dupCnt (s : State) : (rowStart s).dupCnt = s.dupCnt := by
  unfold rowStart; split <;> rfl

@[simp] theorem rowStart_extent (s : State) : (rowStart s).extent = s.extent := by
  unfold rowStart; split <;> rfl

@[simp] theorem rowStart_modeReg (s : State) : (rowStart s).modeReg = s.modeReg := by
  unfold rowStart; split <;> rfl

@[simp] theorem rowStart_widthReg (s : State) : (rowStart s).widthReg = s.widthReg := by
  unfold rowStart; split <;> rfl

@[simp] theorem rowStart_phase (s : State) : (rowStart s).phase = s.phase := by
  unfold rowStart; split <;> rfl

@[simp] theorem rowStart_errCode (s : State) : (rowStart s).errCode = s.errCode := by
  unfold rowStart; split <;> rfl

@[simp] theorem rowStart_errCause (s : State) : (rowStart s).errCause = s.errCause := by
  unfold rowStart; split <;> rfl

@[simp] theorem rowStart_errAddr (s : State) : (rowStart s).errAddr = s.errAddr := by
  unfold rowStart; split <;> rfl

@[simp] theorem rowStart_p2cIdx (s : State) : (rowStart s).p2cIdx = s.p2cIdx := by
  unfold rowStart; split <;> rfl

@[simp] theorem rowStart_tilesPerRow (s : State) : (rowStart s).tilesPerRow = s.tilesPerRow := by
  unfold rowStart; split <;> rfl

@[simp] theorem rowStart_height (s : State) : (rowStart s).height = s.height := by
  unfold rowStart; split <;> rfl

@[simp] theorem rowStart_placeIdx (s : State) : (rowStart s).placeIdx = s.placeIdx := by
  unfold rowStart; split <;> rfl

@[simp] theorem rowStart_db (s : State) : (rowStart s).db = s.db := by
  unfold rowStart; split <;> rfl

@[simp] theorem rowStart_pxs (s : State) : (rowStart s).pxs = s.pxs := by
  unfold rowStart; split <;> rfl

@[simp] theorem rowStart_grid (s : State) : (rowStart s).grid = s.grid := by
  unfold rowStart; split <;> rfl

@[simp] theorem rowStart_palIn (s : State) : (rowStart s).palIn = s.palIn := by
  unfold rowStart; split <;> rfl

@[simp] theorem rowStart_palOut (s : State) : (rowStart s).palOut = s.palOut := by
  unfold rowStart; split <;> rfl

@[simp] theorem rows_rowStart (s : State) : rows (rowStart s) = rows s := by
  unfold rowStart; split <;> rfl

@[simp] theorem inByte_rowStart (s : State) : inByte (rowStart s) = inByte s := by
  unfold rowStart; split <;> rfl

@[simp] theorem rowAt_rowStart (s : State) (a : Nat) : rowAt (rowStart s) a = rowAt s a := by
  unfold rowStart; split <;> rfl

@[simp] theorem dupAddress_rowStart (s : State) (index : Nat) : dupAddress (rowStart s) index = dupAddress s index := by
  unfold rowStart; split <;> rfl

theorem rowStart_bsCur (s : State) : (rowStart s).bsCur = if bitIdx s = 0 then s.bsCur + 1 else s.bsCur := by
  unfold rowStart; split <;> rfl

theorem rowStart_ctrl (s : State) : (rowStart s).ctrl = if bitIdx s = 0 then inByte s s.bsCur else s.ctrl := by
  unfold rowStart; split <;> rfl

/-- The whole row-decode step: the row operation's outcome with its fault committed alone, or the missing control byte. -/
theorem rowDecode_next {s t : State} (hp : s.phase = .decode) (hr : s.rowIdx < rows s) (h : rowDecode s = .next t) :
    (∃ e : Raise, e.cause ≠ .none ∧ t = raiseFault e s) ∨
    (t.phase = .decode ∧ (bitIdx s = 0 → s.bsCur < s.win.size) ∧ RowOutcome (rowStart s) t) := by
  unfold rowDecode at h
  by_cases hb : bitIdx s = 0
  · rw [if_pos hb] at h
    have hstart : rowStart s = latchControl (inByte s s.bsCur) s := if_pos hb
    rcases controlFetch_cases s with ⟨hw, e⟩ | ⟨hw, e⟩
    · have he : execCtrl (inByte s s.bsCur) s = .next (rowStart s) := by
        have h1 : ctrlEnabled s = true := by simp [ctrlEnabled, hp, hr, hb]
        rw [execCtrl, if_pos h1, checkBounds_of_le (show s.bsCur + 1 ≤ s.win.size from hw), hstart]
        rfl
      rw [e, he] at h
      have hp' : (rowStart s).phase = .decode := by rw [hstart]; exact hp
      have hr' : (rowStart s).rowIdx < rows (rowStart s) := by rw [hstart]; exact hr
      obtain ⟨u, hu⟩ := rowOperation_completes hp' hr'
      simp only [hp', hu, precise, reduceCtorEq, if_false] at h
      split at h
      · rename_i hf
        cases Outcome.next.inj h
        refine .inl ?_
        cases rowOperation_next hu with
        | raw _ _ => exact absurd (hp'.symm.trans hf) nofun
        | dup _ _ _ => exact absurd (hp'.symm.trans hf) nofun
        | fault e' hc => exact ⟨e', hc, rfl⟩
      · rename_i hf
        cases Outcome.next.inj h
        have ho := rowOperation_next hu
        refine .inr ⟨?_, fun _ => hw, ho⟩
        cases ho with
        | raw _ _ => exact hp'
        | dup _ _ _ => exact hp'
        | fault e' _ => exact absurd rfl hf
    · rw [e] at h
      refine .inl ⟨⟨.boundsCtrl, s.bsCur⟩, nofun, ?_⟩
      simpa using (Outcome.next.inj h).symm
  · rw [if_neg hb] at h
    have hstart : rowStart s = s := if_neg hb
    have ho := rowOperation_next h
    cases ho with
    | raw a b => exact .inr ⟨hp, fun h0 => absurd h0 hb, by rw [hstart]; exact .raw a b⟩
    | dup a b c => exact .inr ⟨hp, fun h0 => absurd h0 hb, by rw [hstart]; exact .dup a b c⟩
    | fault e hc => exact .inl ⟨e, hc, rfl⟩

/-- Whether a row enabled is decoded or faults, the row-decode step answers a next state. -/
theorem rowDecode_completes {s : State} (hp : s.phase = .decode) (hr : s.rowIdx < rows s) :
    ∃ t, rowDecode s = .next t := by
  unfold rowDecode
  by_cases hb : bitIdx s = 0
  · rw [if_pos hb]
    rcases controlFetch_cases s with ⟨hw, e⟩ | ⟨hw, e⟩
    · have h1 : ctrlEnabled s = true := by simp [ctrlEnabled, hp, hr, hb]
      have he : execCtrl (inByte s s.bsCur) s = .next (latchControl (inByte s s.bsCur) s) := by
        rw [execCtrl, if_pos h1, checkBounds_of_le (show s.bsCur + 1 ≤ s.win.size from hw)]
        rfl
      rw [e, he]
      obtain ⟨u, hu⟩ := rowOperation_completes
        (s := latchControl (inByte s s.bsCur) s) hp hr
      simp only [hu, precise]
      split
      · exact ⟨_, rfl⟩
      · split <;> exact ⟨_, rfl⟩
    · rw [e]
      exact ⟨_, if_pos rfl⟩
  · rw [if_neg hb]
    exact rowOperation_completes hp hr

/-- Everything a step of the hardware's own can do. -/
inductive Moved (s : State) : State → Prop where
  | rest (at_rest : busy s = false) : Moved s s
  | fault (e : Raise) (running : busy s = true) (cause : e.cause ≠ .none) : Moved s (raiseFault e s)
  | row (phase : s.phase = .decode) (more : s.rowIdx < rows s) (ctrl : bitIdx s = 0 → s.bsCur < s.win.size)
      (t : State) (phase' : t.phase = .decode) (outcome : RowOutcome (rowStart s) t) : Moved s t
  | finRaw (phase : s.phase = .decode) (last : s.rowIdx = rows s) (mode : s.modeReg = .rawOnly) :
      Moved s (setPhase .done (reportExtent s))
  | finRaster (phase : s.phase = .decode) (last : s.rowIdx = rows s) (mode : s.modeReg = .raster) :
      Moved s (beginConvert (reportExtent s))
  | p2c (phase : s.phase = .convert) (more : s.p2cIdx < rows s) :
      Moved s (storePixels (pixelCells s.p2cIdx ⟨dbByte s (4 * s.p2cIdx), dbByte s (4 * s.p2cIdx + 1),
        dbByte s (4 * s.p2cIdx + 2), dbByte s (4 * s.p2cIdx + 3)⟩) s)
  | layout (phase : s.phase = .convert) (last : s.p2cIdx = rows s) (width : s.widthReg ≠ 0)
      (whole : s.widthReg % 8 = 0) (divides : tileCount s % (s.widthReg / 8) = 0) :
      Moved s (beginAssemble (s.widthReg / 8) (tileCount s / (s.widthReg / 8) * 8) s)
  | place (phase : s.phase = .assemble) (more : s.placeIdx < tileCount s) (tpr : s.tilesPerRow ≠ 0) :
      Moved s (storeTile (tileCells s s.placeIdx) s)
  | afin (phase : s.phase = .assemble) (last : s.placeIdx = tileCount s) : Moved s (setPhase .done s)

theorem internalStep_next {s t : State} (h : internalStep s = .next t) : Moved s t := by
  unfold internalStep at h
  cases hp : s.phase <;> simp only [hp] at h
  · cases Outcome.next.inj h
    exact .rest (by simp [busy, hp])
  · split at h
    · rename_i hr
      rcases rowDecode_next hp hr h with ⟨e, hc, rfl⟩ | ⟨hp', hw, ho⟩
      · exact .fault e (by simp [busy, hp]) hc
      · exact .row hp hr hw t hp' ho
    · split at h
      · obtain ⟨_, hl, ⟨hm, rfl⟩ | ⟨hm, rfl⟩⟩ := execFin_next h
        · exact .finRaw hp hl hm
        · exact .finRaster hp hl hm
      · cases h
  · split at h
    · obtain ⟨_, hl, rfl⟩ := execP2c_next h
      exact .p2c hp hl
    · split at h
      · obtain ⟨_, hl, rfl⟩ := execGridchk_next h
        rcases checkLayout_cases s with ⟨_, e⟩ | ⟨_, _, _, e⟩ | ⟨h1, h2, h3, e⟩ <;> rw [e]
        · exact .fault _ (by simp [busy, hp]) nofun
        · exact .fault _ (by simp [busy, hp]) nofun
        · exact .layout hp hl h1 h2 h3
      · cases h
  · split at h
    · obtain ⟨_, hl, ht, rfl⟩ := execPlace_next h
      exact .place hp hl ht
    · split at h
      · obtain ⟨_, hl, rfl⟩ := execAfin_next h
        exact .afin hp hl
      · cases h
  · cases Outcome.next.inj h
    exact .rest (by simp [busy, hp])
  · cases Outcome.next.inj h
    exact .rest (by simp [busy, hp])

/-- Everything a command can do. -/
inductive Commanded (s : State) : State → Prop where
  | ignored (running : busy s = true) : Commanded s s
  | started (m : Mode) (w : Nat) (at_rest : busy s = false) (inside : 8 ≤ s.win.size)
      (magic : (windowHeader s).magic = s.magic) (whole : (windowHeader s).rowCount.toNat % 8 = 0) :
      Commanded s (loadHeader (windowHeader s) (latchInputs m w s))
  | fault (e : Raise) (at_rest : busy s = false) (cause : e.cause ≠ .none) : Commanded s (raiseFault e s)
  | reset : Commanded s (clearRegisters s)
  | palx (k : Nat) (inside : k < s.palIn.size) :
      Commanded s (storeColour k (expandByte (palByte s k)) s)

theorem headerFromWindow_cases (s : State) :
    (∃ e : Raise, e.cause ≠ .none ∧ headerFromWindow s = .error e) ∨
    (8 ≤ s.win.size ∧ (windowHeader s).magic = s.magic ∧ (windowHeader s).rowCount.toNat % 8 = 0 ∧
      headerFromWindow s = .ok (loadHeader (windowHeader s) s)) := by
  by_cases h : s.win.size < 8
  · exact .inl ⟨⟨.boundsHeader, 0⟩, nofun, headerFromWindow_of_lt h⟩
  · rw [headerFromWindow_of_le (Nat.not_lt.mp h)]
    rcases parseHeader_cases (windowHeader s) s with ⟨_, e⟩ | ⟨_, _, e⟩ | ⟨_, _, _, e⟩ | ⟨h1, h2, h3, e⟩
    · exact .inl ⟨⟨.boundsHeader, 0⟩, nofun, e⟩
    · exact .inl ⟨⟨.badMagic, 0⟩, nofun, e⟩
    · exact .inl ⟨⟨.partialTile, 6⟩, nofun, e⟩
    · exact .inr ⟨h1, h2, h3, e⟩

theorem takeCommand_next {c : Command} {s t : State} (h : takeCommand c s = .next t) : Commanded s t := by
  cases c with
  | start m w =>
    rcases execStart_next h with ⟨hb, rfl⟩ | ⟨hb, rfl⟩
    · exact .ignored hb
    · rcases headerFromWindow_cases (latchInputs m w s) with ⟨e, hc, he⟩ | ⟨h1, h2, h3, he⟩ <;> rw [he]
      · exact .fault e hb hc
      · exact .started m w hb h1 h2 h3
  | reset =>
    rw [execReset_next h]
    exact .reset
  | palx k =>
    obtain ⟨hk, rfl⟩ := execPalx_next h
    exact .palx k hk

/-- Everything a step can do: the hardware's own move, or a command's effect on the state whose command is taken. -/
theorem step_next {s t : State} (h : step s = .next t) :
    (s.pending = [] ∧ Moved s t) ∨ (∃ c cs, s.pending = c :: cs ∧ Commanded (setPending cs s) t) := by
  unfold step nextStep at h
  split at h
  · exact .inl ⟨‹_›, internalStep_next h⟩
  · exact .inr ⟨_, _, ‹_›, takeCommand_next h⟩

theorem step_of_pending_nil {s : State} (h : s.pending = []) : step s = internalStep s := by
  unfold step nextStep
  rw [h]

theorem step_of_pending_cons {s : State} {c : Command} {cs : List Command} (h : s.pending = c :: cs) :
    step s = takeCommand c (setPending cs s) := by
  unfold step nextStep
  rw [h]

end Sys2Proof.Machine
end

