-- ==== Sys2Proof/Laws/PerInstr.lean ====
section
/-! SUPPORT. One claim per operation about its encoding as syntax: whether it has bits at all, and how many bytes they
take (30_encoding.md R101, R108). -/

namespace Sys2Proof.Laws.EncodedLength

open Sys2Proof

/-- The bytes an operation's encoding takes: a header 8, a control byte 1, an index 1 or 2, a raw row none, a planar row 4, a
palette byte 1; `none` for the operations that decode no bits. -/
def expected : Instr → Option Nat
  | .hdr _ => some 8
  | .ctrl _ => some 1
  | .raw => some 0
  | .dup1 _ => some 1
  | .dup2 _ => some 2
  | .p2c _ => some 4
  | .palx _ _ => some 1
  | .start _ _ => none
  | .reset => none
  | .fin => none
  | .gridchk => none
  | .place => none
  | .afin => none

/-- The encoder writes exactly that many bytes, or nothing. -/
def Statement (i : Instr) : Prop := (encode i).map (fun p => p.2.length) = expected i

theorem start (mode : Mode) (width : Nat) : Statement (.start mode width) := rfl

theorem reset : Statement .reset := rfl

theorem hdr (h : Header) : Statement (.hdr h) := rfl

theorem ctrl (c : Byte) : Statement (.ctrl c) := rfl

theorem raw : Statement .raw := rfl

theorem dup1 (index : Byte) : Statement (.dup1 index) := rfl

theorem dup2 (index : BitVec 12) : Statement (.dup2 index) := rfl

theorem fin : Statement .fin := rfl

theorem p2c (row : Row) : Statement (.p2c row) := rfl

theorem gridchk : Statement .gridchk := rfl

theorem place : Statement .place := rfl

theorem afin : Statement .afin := rfl

theorem palx (k : Nat) (b : Byte) : Statement (.palx k b) := rfl

end Sys2Proof.Laws.EncodedLength
end

