-- ==== Sys2Proof/Machine/Listing.lean ====
section
/-! DEFINITION. The listing notation of 30_encoding.md R106 and R107: lines of text as data, and the window they expand
to. The notation has no meaning to the hardware; the bytes of `IN` are what count (log 26). -/

namespace Sys2Proof.Machine

/-- One line of a listing. -/
inductive Line where
  /-- `.window W=<n>`. -/
  | window (n : Nat)
  /-- `.header dup=<off> art=<off> rows=<n>`. -/
  | header (dup art rows : Half)
  /-- `.tile <t>`: the next eight row lines' control bits go to the control byte at `8 + t`. -/
  | tile (t : Nat)
  /-- `RAW b0 b1 b2 b3`. -/
  | raw (row : Row)
  /-- `DUP1 <index>`. -/
  | dup1 (index : Byte)
  /-- `DUP2 <index>`. -/
  | dup2 (index : BitVec 12)
  /-- `DUP <index>`: the shortest form (R107). -/
  | dup (index : BitVec 12)
  /-- `.art <k>: b0 b1 b2 b3`. -/
  | art (k : Nat) (row : Row)
  /-- `.byte <addr>: b ...`. -/
  | bytes (a : Nat) (bs : List Byte)
  deriving DecidableEq, Repr

/-- Where the next row line's bytes go. -/
structure ListingVars where
  region : Buffer Byte
  artOff : Nat
  artNext : Nat
  dupNext : Nat
  tile : Nat
  bit : Nat
  deriving DecidableEq, Repr

/-- The four bytes of a row, in address order. -/
def rowBytes (row : Row) : List Byte := [row.plane0, row.plane1, row.plane2, row.plane3]

/-- A row line whose control bit is `c`: the bit joins the tile's control byte, the first row line in bit 0.
DESIGN CHOICE: it joins by OR, so a bit that an earlier line placed at that address stays, under a RAW line too (log 26). -/
def listControl (c : Bool) (v : ListingVars) : ListingVars :=
  let old := regionByte v.region (8 + v.tile)
  { v with
    region := regionPut v.region (8 + v.tile) (old ||| ((BitVec.ofBool c).setWidth 8 <<< v.bit)),
    bit := v.bit + 1 }

/-- A duplicated row with these index bytes at the next index-stream position. -/
def listIndex (bs : List Byte) (v : ListingVars) : ListingVars :=
  let u := listControl true v
  { u with region := regionPutAll u.region u.dupNext bs, dupNext := u.dupNext + bs.length }

/-- What one line does; `none` for a DUP1 index above `0xEF`, which has no one-byte form. -/
def listLine (magic : Half) (v : ListingVars) (l : Line) : Option ListingVars :=
  match l with
  | .window n => some { v with region := { v.region with size := n } }
  | .header dup art rows =>
    some { v with
      region := regionPutAll v.region 0
        (halfBytes magic ++ halfBytes dup ++ halfBytes art ++ halfBytes rows),
      artOff := art.toNat, artNext := art.toNat, dupNext := dup.toNat }
  | .tile t => some { v with tile := t, bit := 0 }
  | .raw row =>
    let u := listControl false v
    some { u with region := regionPutAll u.region u.artNext (rowBytes row), artNext := u.artNext + 4 }
  | .dup1 index => if index < 0xF0#8 then some (listIndex [index] v) else none
  | .dup2 index => some (listIndex [0xF#4 ++ index.extractLsb' 8 4, index.extractLsb' 0 8] v)
  | .dup index =>
    if index < 0xF0#12 then some (listIndex [index.setWidth 8] v)
    else some (listIndex [0xF#4 ++ index.extractLsb' 8 4, index.extractLsb' 0 8] v)
  | .art k row => some { v with region := regionPutAll v.region (v.artOff + 4 * k) (rowBytes row) }
  | .bytes a bs => some { v with region := regionPutAll v.region a bs }

/-- The lines in order. -/
def listLines (magic : Half) : List Line → ListingVars → Option ListingVars
  | [], v => some v
  | l :: ls, v =>
    match listLine magic v l with
    | some u => listLines magic ls u
    | none => none

/-- The window a listing expands to, for a machine with this magic (30_encoding.md R106). DESIGN CHOICE: an address that no
line places holds 0; until a `.window` line the size is 0, until a `.header` line `ART_OFF` and the next art-data and
index-stream positions are 0, and until a `.tile` line the tile is 0 (log 26). -/
def listing (magic : Half) (ls : List Line) : Option (Buffer Byte) :=
  match listLines magic ls ⟨.empty, 0, 0, 0, 0, 0⟩ with
  | some v => some v.region
  | none => none

end Sys2Proof.Machine
end

