-- ==== Sys2Proof/Tests/Slice0.lean ====
section
/-! SUPPORT. Tests. Expected results are the spec's: the vectors V1.1 to V6.11 and the programs P1, P2 of
95_test_vectors.md, named in each comment. Then, for each statement that has hypotheses, a state and operands that meet them. -/

namespace Sys2Proof.Tests

open Sys2Proof Sys2Proof.Machine

/-! ### Helpers -/

/-- The reset state with a concrete magic marker; every vector holds for every value of it. -/
def blank : State := { State.reset with magic := 0x1234#16 }

/-- The next state, if the outcome is one. -/
def ran {σ φ ρ : Type} (o : Host.Outcome σ φ ρ) : Option σ :=
  match o with
  | .next t => some t
  | .fault _ => none
  | .refused _ => none

/-- Fields of the next state. -/
def view {α : Type} (f : State → α) (o : Host.Outcome State Fault Refusal) : Option α := (ran o).map f

/-- The phase and the fault record. -/
def record (s : State) : Phase × ErrCode × ErrCause × Nat := (s.phase, s.errCode, s.errCause, s.errAddr)

/-- What the header loads. -/
def headerRegs (s : State) : List Nat := [s.dupOff.toNat, s.artOff.toNat, s.rowCount.toNat, s.bsCur, s.artCur, s.dupCur]

/-- A window of `n` bytes that starts with these and holds 0 after them. -/
def window (n : Nat) (bytes : List Byte) : Buffer Byte := regionPutAll ⟨n, []⟩ 0 bytes

/-- `blank` with START issued on a window. -/
def starting (n : Nat) (bytes : List Byte) : State := { blank with win := window n bytes, pending := [.start .rawOnly 0] }

/-- V2.2, before its step. -/
def firstRow : State :=
  { blank with
    win := ⟨13, [(9, 0x11#8), (10, 0x22#8), (11, 0x33#8), (12, 0x44#8)]⟩,
    phase := .decode, rowCount := 8, bsCur := 8, artOff := 9, artCur := 9, dupOff := 13, dupCur := 13, db := ⟨32, []⟩ }

/-- V2.4, before its step. -/
def duplicated : State :=
  { blank with
    win := ⟨0x100, [(0x18, 0xA1#8), (0x19, 0xA2#8), (0x1A, 0xA3#8), (0x1B, 0xA4#8), (0x40, 0x02#8)]⟩,
    phase := .decode, rowCount := 8, rowIdx := 3, ctrl := 0x08#8, artOff := 0x10, dupCur := 0x40, db := ⟨32, []⟩ }

/-- V2.5 to V2.7, before their step: these index bytes at `0x40`, a window of `n` bytes. -/
def atLimit (n : Nat) (index : List Byte) : State :=
  { blank with
    win := regionPutAll ⟨n, [(0x3CC, 0xB1#8), (0x3CD, 0xB2#8), (0x3CE, 0xB3#8), (0x3CF, 0xB4#8)]⟩ 0x40 index,
    phase := .decode, rowCount := 8, rowIdx := 1, ctrl := 0x02#8, artOff := 0x10, dupCur := 0x40, db := ⟨32, []⟩ }

/-- V2.10, V2.11, before their step: a first row whose control byte is 1, index stream at 13. -/
def atStreamEnd (n : Nat) (index : List Byte) : State :=
  { blank with
    win := regionPutAll ⟨n, [(8, 0x01#8)]⟩ 13 index,
    phase := .decode, rowCount := 8, bsCur := 8, artOff := 9, artCur := 9, dupOff := 13, dupCur := 13, db := ⟨32, []⟩ }

/-- V2.13, before its step. -/
def farRow (n : Nat) : State :=
  { blank with
    win := ⟨n, [(0x20, 0xFF#8), (0x21, 0xFF#8), (0x13FFB, 0xE1#8), (0x13FFE, 0xE4#8)]⟩,
    phase := .decode, rowCount := 8, rowIdx := 1, ctrl := 0xFF#8, artOff := 0xFFFF, dupCur := 0x20, db := ⟨32, []⟩ }

/-- A memory of `size` elements whose first `n` are written, element `a` with `f a`. -/
def filled {α : Type} (size n : Nat) (f : Nat → α) : Buffer α :=
  bufPutAll ⟨size, []⟩ ((List.range n).map fun a => (a, f a))

theorem cellGet_filled {α : Type} (size n : Nat) (f : Nat → α) (a : Nat) :
    cellGet (filled size n f).cells a = if a < n then some (f a) else none := by
  unfold filled
  split
  · apply cellGet_bufPutAll_mem
    · rw [List.map_map]
      exact (List.nodup_range (n := n)).map fun a b h => by simpa using h
    · exact List.mem_map.mpr ⟨a, List.mem_range.mpr ‹_›, rfl⟩
  · rw [cellGet_bufPutAll_other, cellGet_nil]
    intro p hp
    obtain ⟨b, hb, rfl⟩ := List.mem_map.mp hp
    have := List.mem_range.mp hb
    dsimp only
    omega

/-- The bytes of P1's art data. -/
def p1Art (a : Nat) : Byte := BitVec.ofNat 8 (37 * a + 11)

/-- P1 in RASTER mode, width 8, after its last row. -/
def p1Decoded : State :=
  { blank with
    phase := .decode, modeReg := .raster, widthReg := 8, rowCount := 8, artOff := 9, dupOff := 41,
    bsCur := 9, artCur := 41, dupCur := 41, rowIdx := 8, rawCnt := 8,
    db := filled 32 32 p1Art }

/-- P1 with `n` rows converted. -/
def p1Converting (n : Nat) : State :=
  { p1Decoded with
    phase := .convert, extent := 41, p2cIdx := n,
    pxs := filled 64 (8 * n) fun j => BitVec.ofNat 4 (convertAt p1Art j) }

/-- P1 after GRIDCHK, at tile `n`. -/
def p1Assembling (n : Nat) : State :=
  { p1Converting 8 with phase := .assemble, tilesPerRow := 1, height := 8, grid := ⟨64, []⟩, placeIdx := n }

/-- P1 after AFIN. -/
def p1Done : State :=
  { p1Assembling 1 with
    phase := .done,
    grid := filled 64 64 fun j => BitVec.ofNat 4 (convertAt p1Art j) }

/-- `TILE_COUNT` tiles converted, with a width: the vectors of GRIDCHK. -/
def gridCase (tiles width : Nat) : State :=
  { blank with
    phase := .convert, modeReg := .raster, rowCount := BitVec.ofNat 16 (8 * tiles), rowIdx := 8 * tiles,
    p2cIdx := 8 * tiles, widthReg := width }

/-- V5.12, tile 4: only the pixel the vector names is written. -/
def placing : State :=
  { gridCase 6 24 with
    phase := .assemble, tilesPerRow := 3, height := 16, grid := ⟨384, []⟩, placeIdx := 4, pxs := ⟨384, [(299, 7#4)]⟩ }

/-- A palette of these bytes, handed to the companion unit. -/
def painting (bytes : List Byte) : State := presentPalette bytes blank

/-! ### Well-formedness and encodings -/

/-- 30_encoding.md R93, R103 (d): the one ill-formed operand is a one-byte index above `0xEF`. -/
theorem test_wellFormed_refuses : (Instr.dup1 0xF0#8).wellFormed = false ∧ (Instr.dup1 0xFF#8).wellFormed = false := by
  decide

theorem test_wellFormed_accepts : (Instr.dup1 0xEF#8).wellFormed = true ∧ (Instr.dup2 0xFFF#12).wellFormed = true := by
  decide

/-- V1.1: `34 12` is the magic marker 0x1234, `34 12 78 56 00 00` after it the offsets and the row count. -/
theorem test_decode_header :
    decode .header [0x34#8, 0x12#8, 0x34#8, 0x12#8, 0x78#8, 0x56#8, 0x00#8, 0x00#8] =
      .ok (.hdr ⟨0x1234#16, 0x1234#16, 0x5678#16, 0#16⟩, []) := by rfl

theorem test_decode_control : decode .control [0x6C#8, 0xFF#8] = .ok (.ctrl 0x6C#8, [0xFF#8]) := by rfl

theorem test_decode_raw : decode (.row false) [0xFF#8] = .ok (.raw, [0xFF#8]) := by rfl

/-- S4: `EF` is a one-byte index. -/
theorem test_decode_dup1 : decode (.row true) [0xEF#8, 0x00#8] = .ok (.dup1 0xEF#8, [0x00#8]) := by rfl

/-- S4 and V2.8: `F0 nn` begins a two-byte index; `F1 00` is index 0x100. -/
theorem test_decode_dup2 : decode (.row true) [0xF0#8, 0xEF#8] = .ok (.dup2 0x0EF#12, []) ∧
    decode (.row true) [0xF1#8, 0x00#8, 0x07#8] = .ok (.dup2 0x100#12, [0x07#8]) := ⟨rfl, rfl⟩

/-- V2.11: a two-byte index cut short. -/
theorem test_decode_cut : decode (.row true) [0xF0#8] = .error .truncatedIndex2 ∧
    decode (.row true) [] = .error .truncatedIndex ∧ decode .header [0x34#8] = .error .truncatedHeader := ⟨rfl, rfl, rfl⟩

theorem test_decode_planar : decode .planar [0x0F#8, 0x33#8, 0x55#8, 0xAA#8] =
    .ok (.p2c ⟨0x0F#8, 0x33#8, 0x55#8, 0xAA#8⟩, []) := by rfl

theorem test_decode_palette : decode (.palette 3) [0x06#8] = .ok (.palx 3 0x06#8, []) := by rfl

/-- The words of V1.1, of V2.5 and V2.6 and of V4.9 as the opcode table numbers their bits (log 22). -/
theorem test_decodeTableWord :
    decodeTableWord 64 0x0000567812341234 = some (.hdr ⟨0x1234#16, 0x1234#16, 0x5678#16, 0#16⟩) ∧
    decodeTableWord 8 0xEF = some (.dup1 0xEF#8) ∧ decodeTableWord 16 0xEFF0 = some (.dup2 0x0EF#12) ∧
    decodeTableWord 32 0xAA55330F = some (.p2c ⟨0x0F#8, 0x33#8, 0x55#8, 0xAA#8⟩) ∧
    decodeTableWord 0 0 = none := by decide

/-- A word placed is the operation the next step runs: V4.9's first pixel, V2.6's second index byte, V1.1's offset. -/
theorem test_withFetchWord :
    (view (fun t => cellGet t.pxs.cells 0) (step (State.reset.withFetchWord 32 0xAA55330F)) = some (some 8#4)) ∧
    (view (fun t => (t.dupCur, t.dupCnt)) (step (State.reset.withFetchWord 16 0xEFF0)) = some (2, 1)) ∧
    (view (fun t => t.dupCur) (step (blank.withFetchWord 64 0x0000567812341234)) = some 0x1234) := by decide

/-! ### START, HDR, RESET -/

/-- V1.1. -/
theorem test_start_loads :
    view (fun t => (headerRegs t, t.phase))
      (step (starting 8 [0x34#8, 0x12#8, 0x34#8, 0x12#8, 0x78#8, 0x56#8, 0x00#8, 0x00#8])) =
      some ([0x1234, 0x5678, 0, 8, 0x5678, 0x1234], .decode) := by decide

/-- V1.4, V1.7, V1.8: bounds before magic, magic before the row count. -/
theorem test_start_faults :
    view record (step (starting 8 [0x12#8, 0x34#8])) = some (.fault, .formatError, .badMagic, 0) ∧
    view record (step (starting 7 [0x12#8, 0x34#8])) = some (.fault, .decodeError, .boundsHeader, 0) ∧
    view record (step (starting 8 [0#8, 0#8, 0#8, 0#8, 0#8, 0#8, 0x0C#8, 0#8])) =
      some (.fault, .formatError, .badMagic, 0) := by decide

/-- V1.6. -/
theorem test_hdr_partialTile :
    view record (exec (.hdr ⟨0x1234#16, 8#16, 8#16, 12#16⟩) { blank with win := window 108 [] }) =
      some (.fault, .decodeError, .partialTile, 6) := by decide

/-- V1.9. -/
theorem test_hdr_largest :
    view (fun t => (headerRegs t, tileCount t))
      (exec (.hdr ⟨0x1234#16, 0xFFFF#16, 0xFFFF#16, 0xFFF8#16⟩) { blank with win := window 8 [] }) =
      some ([0xFFFF, 0xFFFF, 0xFFF8, 8, 0xFFFF, 0xFFFF], 8191) := by decide

/-- V7.1. -/
theorem test_reset_clears :
    view (fun t => (t.phase, t.rowIdx, t.ctrl, t.db.size, t.win.size)) (exec .reset { p1Done with win := window 41 [] }) =
      some (.idle, 0, 0#8, 0, 41) := by decide

/-! ### CTRL, RAW, DUP1, DUP2, FIN -/

/-- V2.2: the row whose last byte is the window's last byte. -/
theorem test_raw_copies :
    view (fun t => (t.ctrl, t.db.cells, [t.bsCur, t.artCur, t.rawCnt, t.rowIdx])) (step firstRow) =
      some (0x00#8, [(0, 0x11#8), (1, 0x22#8), (2, 0x33#8), (3, 0x44#8)], [9, 13, 1, 1]) := by decide

/-- V2.3: one byte less, and nothing is committed. -/
theorem test_raw_faults :
    view (fun t => (record t, t.bsCur)) (step { firstRow with win := { firstRow.win with size := 12 } }) =
      some ((.fault, .decodeError, .boundsRawRow, 9), 8) := by decide

/-- V2.1. -/
theorem test_ctrl_faults : view record (step { firstRow with win := window 8 [] }) =
    some (.fault, .decodeError, .boundsCtrl, 8) := by decide

/-- V2.14: control byte `0xA5` makes rows 0, 2, 5, 7 duplicated. -/
theorem test_ctrl_bits : (List.range 8).map (fun i => controlBit { firstRow with ctrl := 0xA5#8, rowIdx := i }) =
    [true, false, true, false, false, true, false, true] := by decide

/-- V2.4: no control-byte fetch inside a tile. -/
theorem test_dup1_copies :
    view (fun t => (t.db.cells, t.dupCur, t.dupCnt, t.rowIdx, t.ctrl)) (step duplicated) =
      some ([(12, 0xA1#8), (13, 0xA2#8), (14, 0xA3#8), (15, 0xA4#8)], 0x41, 1, 4, 0x08#8) := by decide

/-- V2.7. -/
theorem test_dup1_faults : view record (step (atLimit 0x3CF [0xEF#8])) =
    some (.fault, .decodeError, .boundsDupRow, 0x3CC) := by decide

/-- V2.6: two index bytes, one row. -/
theorem test_dup2_copies :
    view (fun t => (t.db.cells, t.dupCur, t.dupCnt)) (step (atLimit 0x3D0 [0xF0#8, 0xEF#8])) =
      some ([(4, 0xB1#8), (5, 0xB2#8), (6, 0xB3#8), (7, 0xB4#8)], 0x42, 1) := by decide

/-- V2.13: no reduction modulo `2^16`. -/
theorem test_dup2_far :
    view (fun t => (t.row.plane0, t.row.plane3)) (step (farRow 0x13FFF)) = some (0xE1#8, 0xE4#8) ∧
    view record (step (farRow 0x13FFE)) = some (.fault, .decodeError, .boundsDupRow, 0x13FFB) := by decide

/-- V2.10, V2.11: an index stream at the end of the window. -/
theorem test_index_missing :
    view record (step (atStreamEnd 13 [])) = some (.fault, .decodeError, .boundsIndex, 13) ∧
    view record (step (atStreamEnd 14 [0xF0#8])) = some (.fault, .decodeError, .boundsIndex2, 14) := by decide

/-- V3.1. -/
theorem test_fin_raw :
    view (fun t => (t.extent, t.phase)) (step { p1Decoded with modeReg := .rawOnly, artCur := 0x24, dupCur := 0x33 }) =
      some (0x33, .done) := by decide

/-- V3.2. -/
theorem test_fin_raster :
    view (fun t => (t.extent, t.pxs.size, t.p2cIdx, t.phase))
      (step { gridCase 2 16 with phase := .decode, artCur := 0x28, dupCur := 0x18 }) = some (0x28, 128, 0, .convert) := by
  decide

/-! ### P2C, GRIDCHK, PLACE, AFIN, PALX -/

/-- V4.8. -/
theorem test_p2c_row : (List.range 8).map (rowPixel ⟨0x81#8, 0x42#8, 0x24#8, 0x18#8⟩) =
    [1#4, 2#4, 4#4, 8#4, 8#4, 4#4, 2#4, 1#4] := by decide

/-- V4.12 through the step: `12 34 56 78` gives `0CAF8650`. -/
theorem test_p2c_step :
    view (fun t => ((List.range 8).map (cellGet t.pxs.cells), t.p2cIdx))
      (exec (.p2c ⟨0x12#8, 0x34#8, 0x56#8, 0x78#8⟩) (p1Converting 0)) =
      some ([some 0x0#4, some 0xC#4, some 0xA#4, some 0xF#4, some 0x8#4, some 0x6#4, some 0x5#4, some 0x0#4], 1) := by
  decide

/-- V5.1, V5.10. -/
theorem test_gridchk_sizes :
    view (fun t => (t.tilesPerRow, t.height, t.grid.size)) (step (gridCase 32 128)) = some (16, 16, 2048) ∧
    view (fun t => (t.tilesPerRow, t.height, t.grid.size)) (step (gridCase 0 128)) = some (16, 0, 0) := by decide

/-- V5.4, V5.7, V5.9. -/
theorem test_gridchk_faults :
    view record (step (gridCase 3 16)) = some (.fault, .layoutError, .tilesNotDivisible, 0) ∧
    view record (step (gridCase 3 0)) = some (.fault, .layoutError, .badWidth, 0) ∧
    view record (step (gridCase 3 4)) = some (.fault, .layoutError, .badWidth, 0) := by decide

/-- V5.12: `PXS[299]` lands at `GRID[323]`. -/
theorem test_place_pixel :
    view (fun t => (cellGet t.grid.cells 323, t.placeIdx)) (step placing) = some (some 7#4, 5) := by decide

theorem test_afin_done : view (fun t => t.phase) (step (p1Assembling 1)) = some .done := by decide

/-- V6.6, V6.10, V6.11. -/
theorem test_palx_colours :
    expandByte 0x1B#8 = ⟨0xFF#8, 0xAA#8, 0x55#8⟩ ∧ expandByte 0xFF#8 = ⟨0xFF#8, 0xFF#8, 0xFF#8⟩ ∧
    expandByte 0x06#8 = ⟨0xAA#8, 0x55#8, 0x00#8⟩ := by decide

theorem test_palx_step :
    view (fun t => t.palOut.cells) (step (issue (.palx 1) (painting [0x00#8, 0x39#8]))) =
      some [(1, ⟨0x55#8, 0xAA#8, 0xFF#8⟩)] := by decide

/-! ### Listings: the bytes of the programs as 95_test_vectors.md prints them, magic `34 12` -/

theorem test_listing_p1 :
    listing 0x1234#16 [.window 41, .header 0x29#16 0x09#16 8#16, .tile 0,
      .raw ⟨0x0B#8, 0x30#8, 0x55#8, 0x7A#8⟩, .raw ⟨0x9F#8, 0xC4#8, 0xE9#8, 0x0E#8⟩,
      .raw ⟨0x33#8, 0x58#8, 0x7D#8, 0xA2#8⟩, .raw ⟨0xC7#8, 0xEC#8, 0x11#8, 0x36#8⟩,
      .raw ⟨0x5B#8, 0x80#8, 0xA5#8, 0xCA#8⟩, .raw ⟨0xEF#8, 0x14#8, 0x39#8, 0x5E#8⟩,
      .raw ⟨0x83#8, 0xA8#8, 0xCD#8, 0xF2#8⟩, .raw ⟨0x17#8, 0x3C#8, 0x61#8, 0x86#8⟩] =
    some (regionOf [0x34#8, 0x12#8, 0x29#8, 0x00#8, 0x09#8, 0x00#8, 0x08#8, 0x00#8, 0x00#8,
      0x0B#8, 0x30#8, 0x55#8, 0x7A#8, 0x9F#8, 0xC4#8, 0xE9#8, 0x0E#8, 0x33#8, 0x58#8, 0x7D#8, 0xA2#8,
      0xC7#8, 0xEC#8, 0x11#8, 0x36#8, 0x5B#8, 0x80#8, 0xA5#8, 0xCA#8, 0xEF#8, 0x14#8, 0x39#8, 0x5E#8,
      0x83#8, 0xA8#8, 0xCD#8, 0xF2#8, 0x17#8, 0x3C#8, 0x61#8, 0x86#8]) := by decide +kernel

theorem test_listing_p2 :
    listing 0x1234#16 [.window 0x2C, .header 0x0A#16 0x18#16 16#16,
      .tile 0, .raw ⟨0xFF#8, 0x00#8, 0xFF#8, 0x00#8⟩, .raw ⟨0x81#8, 0x42#8, 0x24#8, 0x18#8⟩, .dup1 0, .dup 1,
      .raw ⟨0x0F#8, 0x33#8, 0x55#8, 0xAA#8⟩, .dup2 2, .dup1 0, .raw ⟨0x00#8, 0xFF#8, 0x00#8, 0xFF#8⟩,
      .tile 1, .dup1 3, .dup1 2, .dup1 1, .dup1 0, .dup2 0, .dup1 0, .dup1 1, .dup1 4,
      .art 4 ⟨0x80#8, 0x00#8, 0x00#8, 0x01#8⟩] =
    some (regionOf [0x34#8, 0x12#8, 0x0A#8, 0x00#8, 0x18#8, 0x00#8, 0x10#8, 0x00#8, 0x6C#8, 0xFF#8,
      0x00#8, 0x01#8, 0xF0#8, 0x02#8, 0x00#8, 0x03#8, 0x02#8, 0x01#8, 0x00#8, 0xF0#8, 0x00#8, 0x00#8, 0x01#8, 0x04#8,
      0xFF#8, 0x00#8, 0xFF#8, 0x00#8, 0x81#8, 0x42#8, 0x24#8, 0x18#8, 0x0F#8, 0x33#8, 0x55#8, 0xAA#8,
      0x00#8, 0xFF#8, 0x00#8, 0xFF#8, 0x80#8, 0x00#8, 0x00#8, 0x01#8]) := by decide +kernel

/-- 30_encoding.md R107: `DUP` takes the shortest form; a one-byte form of a larger index does not exist. -/
theorem test_listing_dup :
    listing 0x1234#16 [.window 12, .header 9#16 0#16 8#16, .tile 0, .dup 0xF0#12, .dup 0xEF#12] =
      some (regionOf [0x34#8, 0x12#8, 0x09#8, 0x00#8, 0x00#8, 0x00#8, 0x08#8, 0x00#8, 0x03#8, 0xF0#8, 0xF0#8, 0xEF#8]) ∧
    listing 0x1234#16 [.window 12, .tile 0, .dup1 0xF0#8] = none := by decide

/-! ### The hypotheses of the statements are met

One theorem for each statement that has hypotheses, named after it, with a state and operands for each of its clauses,
at the boundary of a range where there is one. -/

theorem test_meets_DecodeUndoesEncode :
    (Instr.dup1 0xEF#8).wellFormed = true ∧ encode (.dup1 0xEF#8) = some (.row true, [0xEF#8]) ∧
    (Instr.dup2 0xFFF#12).wellFormed = true ∧ encode (.dup2 0xFFF#12) = some (.row true, [0xFF#8, 0xFF#8]) := by decide

theorem test_meets_EncodeUndoesDecode :
    decode (.row true) [0xF0#8, 0x00#8, 0x07#8] = .ok (.dup2 0#12, [0x07#8]) ∧
    decode (.row true) [0xEF#8] = .ok (.dup1 0xEF#8, []) := ⟨rfl, rfl⟩

theorem test_meets_IndexAssembly : (0xEF#8).toNat < 0xF0 ∧ 0xF0 ≤ (0xF0#8).toNat := by decide

/-- The bits of a state that the row-decode statements assume: no command, `DECODE`, a row left. -/
abbrev decoding (s : State) : Prop := s.pending = [] ∧ s.phase = .decode ∧ s.rowIdx < rows s

theorem test_meets_StepRunsDecodedRow :
    decoding duplicated ∧ duplicated.rowIdx % 8 ≠ 0 ∧
    decode (.row (controlBit duplicated)) (windowBytes duplicated duplicated.dupCur 2) =
      .ok (.dup1 0x02#8, [0x00#8]) := ⟨by decide, by decide, rfl⟩

theorem test_meets_StepRunsTileStart :
    decoding firstRow ∧ firstRow.rowIdx % 8 = 0 ∧ firstRow.bsCur < firstRow.win.size ∧
    decode (.row (controlBit { firstRow with ctrl := inByte firstRow firstRow.bsCur, bsCur := firstRow.bsCur + 1 }))
      (windowBytes firstRow firstRow.dupCur 2) = .ok (.raw, []) := ⟨by decide, by decide, by decide, rfl⟩

theorem test_meets_StepRunsStages :
    (p1Decoded.pending = [] ∧ p1Decoded.phase = .decode ∧ p1Decoded.rowIdx = rows p1Decoded) ∧
    ((p1Converting 7).pending = [] ∧ (p1Converting 7).phase = .convert ∧ (p1Converting 7).p2cIdx < rows (p1Converting 7)) ∧
    ((p1Converting 8).phase = .convert ∧ (p1Converting 8).p2cIdx = rows (p1Converting 8)) ∧
    ((p1Assembling 0).phase = .assemble ∧ (p1Assembling 0).placeIdx < tileCount (p1Assembling 0)) ∧
    (∃ s : State, s.pending = [] ∧ s.phase = .assemble ∧ s.placeIdx = tileCount s) :=
  ⟨by decide, by decide, by decide, by decide, (p1Assembling 1), by decide⟩

theorem test_meets_StepTakesCommand :
    (starting 8 []).pending = .start .rawOnly 0 :: [] ∧ (issue .reset p1Done).pending = .reset :: [] ∧
    (issue (.palx 0) p1Done).pending = .palx 0 :: [] := by decide

/-- A raw row; a one-byte index that is the window's last byte; a two-byte index that ends with the window; and the same
three at a tile's first row. -/
theorem test_meets_ControlBitSelectsRow :
    (decoding duplicated ∧ duplicated.rowIdx % 8 ≠ 0 ∧ indexPresent duplicated 0x00#8) ∧
    (decoding (atLimit 0x41 [0xEF#8]) ∧ indexPresent (atLimit 0x41 [0xEF#8]) 0x02#8) ∧
    (decoding (atLimit 0x42 [0xF0#8, 0x00#8]) ∧ indexPresent (atLimit 0x42 [0xF0#8, 0x00#8]) 0x02#8) ∧
    (decoding firstRow ∧ firstRow.rowIdx % 8 = 0 ∧ firstRow.bsCur + 1 ≤ firstRow.win.size ∧
      indexPresent firstRow (inByte firstRow firstRow.bsCur)) ∧
    (decoding (atStreamEnd 14 [0xEF#8]) ∧ indexPresent (atStreamEnd 14 [0xEF#8]) 0x01#8) ∧
    (decoding (atStreamEnd 15 [0xFF#8, 0xFF#8]) ∧ indexPresent (atStreamEnd 15 [0xFF#8, 0xFF#8]) 0x01#8) := by
  unfold indexPresent
  decide

theorem test_meets_MissingEncodingFaults :
    (∃ s : State, decoding s ∧ s.rowIdx % 8 = 0 ∧ s.win.size < s.bsCur + 1) ∧
    (decoding (atStreamEnd 13 []) ∧ (atStreamEnd 13 []).rowIdx % 8 = 0 ∧ (atStreamEnd 13 []).bsCur + 1 ≤ 13 ∧
      inByte (atStreamEnd 13 []) 8 = 0x01#8 ∧ ((0x01#8).toNat >>> (0 % 8)) &&& 1 = 1 ∧
      (atStreamEnd 13 []).win.size < (atStreamEnd 13 []).dupCur + 1) ∧
    (decoding (atLimit 0x41 [0xF0#8]) ∧ (atLimit 0x41 [0xF0#8]).rowIdx % 8 ≠ 0 ∧
      (atLimit 0x41 [0xF0#8]).ctrl = 0x02#8 ∧ ((0x02#8).toNat >>> (1 % 8)) &&& 1 = 1 ∧
      (atLimit 0x41 [0xF0#8]).win.size = (atLimit 0x41 [0xF0#8]).dupCur + 1 ∧
      0xF0 ≤ (inByte (atLimit 0x41 [0xF0#8]) 0x40).toNat) := by
  exact ⟨⟨{ firstRow with win := window 8 [] }, by decide⟩, by decide, by decide⟩

/-- `blank` with a window of the shortest length that holds a header: P5's. -/
def p5 : State := { blank with win := regionOf [0x34#8, 0x12#8, 0x34#8, 0x12#8, 0x78#8, 0x56#8, 0x00#8, 0x00#8] }

theorem test_meets_StartBeginsRun :
    busy p5 = false ∧ 8 ≤ p5.win.size ∧ refHalf (inByte p5) 0 = p5.magic.toNat ∧ refHalf (inByte p5) 6 % 8 = 0 := by
  decide

theorem test_meets_HdrLoadsHeader :
    busy p5 = false ∧ 8 ≤ p5.win.size ∧ (⟨0x1234#16, 0, 0, 0xFFF8#16⟩ : Header).magic = p5.magic ∧
    (⟨0x1234#16, 0, 0, 0xFFF8#16⟩ : Header).rowCount.toNat % 8 = 0 := by decide

/-- A window one byte short; a wrong magic marker; a row count that is not whole tiles. -/
theorem test_meets_HeaderFaultsInOrder :
    (∃ s : State, busy s = false ∧ s.win.size = 7) ∧
    (∃ s : State, busy s = false ∧ s.win.size = 8 ∧ refHalf (inByte s) 0 ≠ s.magic.toNat) ∧
    (⟨0x3412#16, 0, 0, 0⟩ : Header).magic ≠ p5.magic ∧
    (∃ s : State, busy s = false ∧ s.win.size = 8 ∧ refHalf (inByte s) 0 = s.magic.toNat ∧ refHalf (inByte s) 6 % 8 ≠ 0) ∧
    (⟨0x1234#16, 0, 0, 1⟩ : Header).magic = p5.magic ∧ (⟨0x1234#16, 0, 0, 1⟩ : Header).rowCount.toNat % 8 ≠ 0 :=
  ⟨⟨starting 7 [], by decide⟩, ⟨starting 8 [], by decide⟩, by decide,
    ⟨starting 8 [0x34#8, 0x12#8, 0#8, 0#8, 0#8, 0#8, 0x07#8, 0#8], by decide⟩, by decide, by decide⟩

theorem test_meets_BadMagicIsFormatError :
    (∃ t, exec (.hdr ⟨0#16, 0, 0, 0⟩) p5 = .next t ∧ p5.errCause ≠ .badMagic ∧ t.errCause = .badMagic) ∧
    (busy (starting 8 []) = false ∧ 8 ≤ (starting 8 []).win.size ∧
      refHalf (inByte (starting 8 [])) 0 ≠ (starting 8 []).magic.toNat) ∧
    (∃ t, busy p5 = false ∧ refHalf (inByte p5) 0 = p5.magic.toNat ∧ exec (.start .rawOnly 0) p5 = .next t) :=
  ⟨⟨_, rfl, by decide, rfl⟩, by decide, _, by decide, by decide, rfl⟩

theorem test_meets_StartWhileBusyIgnored :
    busy p1Decoded = true ∧ busy (p1Converting 0) = true ∧ busy (p1Assembling 0) = true := by decide

theorem test_meets_ResetStateValues :
    State.reset.win = State.reset.win ∧ State.reset.pending = [] := ⟨rfl, rfl⟩

theorem test_meets_CtrlLatchesByte :
    ∃ s : State, s.phase = .decode ∧ s.rowIdx < rows s ∧ s.rowIdx % 8 = 0 ∧ s.bsCur + 1 = s.win.size :=
  ⟨{ firstRow with win := window 9 [] }, by decide⟩

theorem test_meets_RawCopiesRow :
    firstRow.phase = .decode ∧ firstRow.rowIdx < rows firstRow ∧ firstRow.artCur + 4 = firstRow.win.size := by decide

theorem test_meets_Dup1CopiesRow :
    (atLimit 0x3D0 [0xEF#8]).phase = .decode ∧ (atLimit 0x3D0 [0xEF#8]).rowIdx < rows (atLimit 0x3D0 [0xEF#8]) ∧
    (atLimit 0x3D0 [0xEF#8]).dupCur + 1 ≤ 0x3D0 ∧
    (atLimit 0x3D0 [0xEF#8]).artOff.toNat + 4 * (0xEF#8).toNat + 4 = (atLimit 0x3D0 [0xEF#8]).win.size := by decide

theorem test_meets_Dup2CopiesRow :
    (farRow 0x13FFF).phase = .decode ∧ (farRow 0x13FFF).rowIdx < rows (farRow 0x13FFF) ∧
    (farRow 0x13FFF).dupCur + 2 ≤ 0x13FFF ∧
    (farRow 0x13FFF).artOff.toNat + 4 * (0xFFF#12).toNat + 4 = (farRow 0x13FFF).win.size := by decide

/-- One state for each clause, each one byte short of the access. -/
theorem test_meets_RowFaultsInOrder :
    (∃ s : State, s.phase = .decode ∧ s.rowIdx < rows s ∧ s.rowIdx % 8 = 0 ∧ s.win.size + 1 = s.bsCur + 1) ∧
    (∃ s : State, s.phase = .decode ∧ s.rowIdx < rows s ∧ s.win.size + 1 = s.artCur + 4) ∧
    (∃ s : State, s.phase = .decode ∧ s.rowIdx < rows s ∧ s.win.size + 1 = s.dupCur + 1) ∧
    (∃ s : State, s.phase = .decode ∧ s.rowIdx < rows s ∧ s.dupCur + 1 ≤ s.win.size ∧
      s.win.size + 1 = s.artOff.toNat + 4 * (0xEF#8).toNat + 4) ∧
    (∃ s : State, s.phase = .decode ∧ s.rowIdx < rows s ∧ s.win.size = s.dupCur + 1) ∧
    (∃ s : State, s.phase = .decode ∧ s.rowIdx < rows s ∧ s.dupCur + 2 ≤ s.win.size ∧
      s.win.size + 1 = s.artOff.toNat + 4 * (0xFFF#12).toNat + 4) :=
  ⟨⟨{ firstRow with win := window 8 [] }, by decide⟩, ⟨{ firstRow with win := window 12 [] }, by decide⟩,
    ⟨atStreamEnd 13 [], by decide⟩, ⟨atLimit 0x3CF [], by decide⟩, ⟨atStreamEnd 14 [], by decide⟩,
    ⟨farRow 0x13FFE, by decide⟩⟩

theorem test_meets_FaultEntryIsPrecise :
    ∃ s t : State, s.phase ≠ .fault ∧ exec .raw s = .next t ∧ t.phase = .fault :=
  ⟨{ firstRow with win := window 12 [] }, _, by decide, rfl, rfl⟩

theorem test_meets_StepFaultIsPrecise :
    (∃ t, (starting 7 []).phase ≠ .fault ∧ step (starting 7 []) = .next t ∧ t.phase = .fault) ∧
    (∃ t, (atStreamEnd 14 [0xF0#8]).phase ≠ .fault ∧ step (atStreamEnd 14 [0xF0#8]) = .next t ∧ t.phase = .fault) :=
  ⟨⟨_, by decide, rfl, rfl⟩, ⟨_, by decide, rfl, rfl⟩⟩

theorem test_meets_NothingRunsAtRest :
    (blank.pending = [] ∧ blank.phase = .idle) ∧ (p1Done.pending = [] ∧ p1Done.phase = .done) ∧
    (raiseFault ⟨.badMagic, 0⟩ blank).pending = [] ∧ (raiseFault ⟨.badMagic, 0⟩ blank).phase = .fault := by decide

theorem test_meets_FinEndsDecompression :
    p1Decoded.phase = .decode ∧ p1Decoded.rowIdx = rows p1Decoded ∧ p1Decoded.modeReg = .raster ∧
    ({ p1Decoded with modeReg := .rawOnly } : State).modeReg = .rawOnly := by decide

theorem test_meets_P2cConvertsRow :
    (p1Converting 7).pending = [] ∧ (p1Converting 7).phase = .convert ∧
    (p1Converting 7).p2cIdx + 1 = rows (p1Converting 7) := by decide

/-- `DB` with S5's row, then with the row that does give 10. -/
theorem test_meets_CorrectedPixelVector :
    (∃ s : State, s.pending = [] ∧ s.phase = .convert ∧ s.p2cIdx < rows s ∧ dbRowBytes s = [0xFF#8, 0#8, 0xFF#8, 0#8]) ∧
    (∃ s : State, s.pending = [] ∧ s.phase = .convert ∧ s.p2cIdx < rows s ∧ dbRowBytes s = [0#8, 0xFF#8, 0#8, 0xFF#8]) :=
  ⟨⟨{ p1Converting 0 with db := ⟨32, [(0, 0xFF#8), (1, 0#8), (2, 0xFF#8), (3, 0#8)]⟩ }, by decide⟩,
    ⟨{ p1Converting 0 with db := ⟨32, [(0, 0#8), (1, 0xFF#8), (2, 0#8), (3, 0xFF#8)]⟩ }, by decide⟩⟩

theorem test_meets_GridchkSizesGrid :
    (gridCase 6 24).phase = .convert ∧ (gridCase 6 24).p2cIdx = rows (gridCase 6 24) ∧ (gridCase 6 24).widthReg ≠ 0 ∧
    (gridCase 6 24).widthReg % 8 = 0 ∧ tileCount (gridCase 6 24) % ((gridCase 6 24).widthReg / 8) = 0 := by decide

theorem test_meets_GridchkFaultsInOrder :
    ((gridCase 3 0).p2cIdx = rows (gridCase 3 0) ∧ (gridCase 3 0).widthReg = 0) ∧
    ((gridCase 3 12).p2cIdx = rows (gridCase 3 12) ∧ (gridCase 3 12).widthReg % 8 ≠ 0) ∧
    ((gridCase 3 16).p2cIdx = rows (gridCase 3 16) ∧ (gridCase 3 16).widthReg ≠ 0 ∧ (gridCase 3 16).widthReg % 8 = 0 ∧
      tileCount (gridCase 3 16) % ((gridCase 3 16).widthReg / 8) ≠ 0) := by decide

/-- The last tile of a layout of three tiles per row. -/
theorem test_meets_PlacePutsTile :
    ({ placing with placeIdx := 5 } : State).phase = .assemble ∧
    ({ placing with placeIdx := 5 } : State).placeIdx + 1 = tileCount placing ∧ 0 < placing.tilesPerRow ∧
    placing.widthReg = 8 * placing.tilesPerRow := by decide

theorem test_meets_PlacementIsInvertible : 0 < 1 ∧ 7 < 8 ∧ 7 < 8 * 1 := by decide

theorem test_meets_GridCoveredOnce : 0 < 3 ∧ 6 % 3 = 0 ∧ 5 < 6 ∧ 383 < 8 * 3 * (6 / 3 * 8) := by decide

theorem test_meets_AfinCompletesRun :
    ∃ s : State, s.phase = .assemble ∧ s.placeIdx = tileCount s ∧ s.placeIdx = 1 :=
  ⟨(p1Assembling 1), by decide⟩

theorem test_meets_PalxExpandsByte :
    1 < (painting [0x00#8, 0x39#8]).palIn.size ∧ (issue (.palx 1) (painting [0x00#8, 0x39#8])).pending = .palx 1 :: [] := by
  decide

theorem test_meets_ExtendReplicates : 0 < (painting [0x39#8]).palIn.size := by decide

theorem test_meets_PaletteOrderFree :
    Memory.wf (painting [0x00#8, 0x39#8]) ∧ 0 ≠ 1 ∧ 0 < (painting [0x00#8, 0x39#8]).palIn.size ∧
    1 < (painting [0x00#8, 0x39#8]).palIn.size := by decide

theorem test_meets_PaletteIsApart : ∃ t, exec .raw firstRow = .next t := ⟨_, rfl⟩

theorem test_meets_PhaseMovesAreLegal :
    (∃ t, p1Decoded.pending = [] ∧ step p1Decoded = .next t) ∧
    (∃ t, (starting 8 []).pending = .start .rawOnly 0 :: [] ∧ step (starting 8 []) = .next t) ∧
    (∃ t, (issue (.start .raster 8) p1Decoded).pending = .start .raster 8 :: [] ∧
      step (issue (.start .raster 8) p1Decoded) = .next t) ∧
    (∃ t, (issue .reset p1Done).pending = .reset :: [] ∧ step (issue .reset p1Done) = .next t) ∧
    (∃ t, (issue (.palx 0) (painting [0x39#8])).pending = .palx 0 :: [] ∧
      step (issue (.palx 0) (painting [0x39#8])) = .next t) :=
  ⟨⟨_, rfl, rfl⟩, ⟨_, rfl, rfl⟩, ⟨_, rfl, rfl⟩, ⟨_, rfl, rfl⟩, ⟨_, rfl, rfl⟩⟩

theorem test_meets_WindowNeverWritten : (∃ t, step firstRow = .next t) ∧ busy firstRow = true := ⟨⟨_, rfl⟩, rfl⟩

theorem test_meets_MemoryCanonicalKept : Memory.wf firstRow ∧ ∃ t, step firstRow = .next t := ⟨by decide, _, rfl⟩

/-! ### The invariants hold of P1, phase by phase -/

theorem firstRow_counters : DecodeCounters firstRow :=
  ⟨by decide, by decide, by decide, by decide, by decide, by decide, by decide, by decide⟩

theorem p1Decoded_counters : DecodeCounters p1Decoded :=
  ⟨by decide, by decide, by decide, by decide, by decide, by decide, by decide, by decide⟩

theorem p1Converting_counters (n : Nat) : DecodeCounters (p1Converting n) :=
  ⟨p1Decoded_counters.1, p1Decoded_counters.2, p1Decoded_counters.3, p1Decoded_counters.4, p1Decoded_counters.5,
    p1Decoded_counters.6, p1Decoded_counters.7, p1Decoded_counters.8⟩

theorem p1Converting_inv (n : Nat) (h : n ≤ 8) : Converting (p1Converting n) :=
  ⟨⟨p1Converting_counters n, rfl, rfl⟩, rfl, h, by simp [p1Converting, filled, rows, p1Decoded]⟩

theorem p1Assembling_inv (n : Nat) (h : n ≤ 1) : Assembling (p1Assembling n) :=
  have c := p1Converting_inv 8 (Nat.le_refl 8)
  have d := c.toDecoded
  have t : tileCount (p1Assembling n) = 1 := (by decide : tileCount p1Decoded = 1)
  ⟨⟨⟨⟨d.wholeTiles, d.rowIdx_le, d.counts, d.artCur_eq, d.dupCur_ge, d.dupCur_le, d.bsCur_eq, d.dbSize⟩,
    d.allRows, d.extent_eq⟩, c.mode, c.p2cIdx_le, c.pxsSize⟩, rfl, Nat.succ_pos 7, (by decide : 8 % 8 = 0), (by decide : 1 = 8 / 8),
    Nat.mod_one _, by rw [t]; exact (by decide : 8 = 1 / 1 * 8), rfl, Nat.le_trans h (Nat.le_of_eq t.symm)⟩

theorem p1Done_inv : RunInv p1Done :=
  have a := p1Assembling_inv 1 (Nat.le_refl 1)
  have c := a.toConverting
  have d := c.toDecoded
  have counters : DecodeCounters p1Done :=
    ⟨d.wholeTiles, d.rowIdx_le, d.counts, d.artCur_eq, d.dupCur_ge, d.dupCur_le, d.bsCur_eq, d.dbSize⟩
  ⟨⟨counters, d.allRows, d.extent_eq⟩, fun _ => ⟨⟨⟨⟨counters, d.allRows, d.extent_eq⟩, c.mode, c.p2cIdx_le, c.pxsSize⟩,
    a.allPixels, a.width_pos, a.width_mod, a.tilesPerRow_eq, a.divides, a.height_eq,
    bufPutAll_size _ _, Nat.le_refl 1⟩, rfl⟩⟩

/-- P1 in RAW_ONLY mode, after FIN. -/
def p1RawDone : State := { p1Decoded with modeReg := .rawOnly, extent := 41, phase := .done }

theorem p1RawDone_inv : RunInv p1RawDone :=
  have c := p1Decoded_counters
  ⟨⟨⟨c.wholeTiles, c.rowIdx_le, c.counts, c.artCur_eq, c.dupCur_ge, c.dupCur_le, c.bsCur_eq, c.dbSize⟩, rfl, rfl⟩, nofun⟩

theorem p1_dbWritten : DbWritten p1Decoded := fun a => by
  simp [p1Decoded, cellGet_filled]

theorem p1_pxsWritten : PxsWritten (p1Assembling 0) := by
  refine ⟨fun j => by simp [p1Assembling, p1Converting, cellGet_filled], ?_⟩
  have h : ∀ j, j < 64 → (pxsPixel (p1Assembling 0) j).toNat = convertAt (dbByte (p1Assembling 0)) j := by decide +kernel
  exact h

theorem test_meets_RunInvKept :
    (RunInv firstRow ∧ ∃ t, step firstRow = .next t) ∧ (RunInv (p1Converting 7) ∧ ∃ t, step (p1Converting 7) = .next t) :=
  ⟨⟨firstRow_counters, _, rfl⟩, p1Converting_inv 7 (by decide), _, rfl⟩

theorem test_meets_OutputInvKept :
    RunInv (p1Assembling 0) ∧ OutputInv (p1Assembling 0) ∧ ∃ t, step (p1Assembling 0) = .next t :=
  ⟨p1Assembling_inv 0 (Nat.zero_le 1),
    ⟨p1_dbWritten, p1_pxsWritten, fun _ _ _ h => absurd h (Nat.not_lt_zero _), by simp [p1Assembling]⟩, _, rfl⟩

theorem test_meets_FaultRecordKept :
    (FaultRecordInv firstRow ∧ ∃ t, step firstRow = .next t) ∧
    FaultRecordInv (raiseFault ⟨.badMagic, 0⟩ blank) := ⟨⟨⟨rfl, by decide⟩, _, rfl⟩, rfl, by decide⟩

theorem test_meets_RegistersFitWidths :
    (RunInv firstRow ∧ firstRow.phase = .decode) ∧ (RunInv (p1Converting 7) ∧ (p1Converting 7).phase = .convert) ∧
    (RunInv (p1Assembling 0) ∧ (p1Assembling 0).phase = .assemble ∧ (p1Assembling 0).widthReg < 2 ^ 16) ∧
    (RunInv p1Done ∧ p1Done.phase = .done ∧ p1Done.modeReg = .raster ∧ p1Done.widthReg < 2 ^ 16) ∧
    (RunInv p1RawDone ∧ p1RawDone.phase = .done ∧ p1RawDone.modeReg = .rawOnly) :=
  ⟨⟨firstRow_counters, rfl⟩, ⟨p1Converting_inv 7 (by decide), rfl⟩,
    ⟨p1Assembling_inv 0 (Nat.zero_le 1), rfl, by decide⟩, ⟨p1Done_inv, rfl, rfl, by decide⟩, p1RawDone_inv, rfl, rfl⟩

theorem test_meets_HardwareNeverStuck : RunInv (p1Assembling 0) ∧ (p1Assembling 0).pending = [] :=
  ⟨p1Assembling_inv 0 (Nat.zero_le 1), rfl⟩

theorem test_meets_StepsCountDown :
    (RunInv firstRow ∧ firstRow.pending = [] ∧ busy firstRow = true ∧ ∃ t, step firstRow = .next t ∧ t.phase ≠ .fault) ∧
    (busy p5 = false ∧ ∃ t, exec (.start .raster 8) p5 = .next t ∧ t.phase ≠ .fault) :=
  ⟨⟨firstRow_counters, rfl, rfl, _, rfl, by decide⟩, rfl, _, rfl, by decide⟩

theorem test_meets_RunEnds :
    RunInv (p1Converting 7) ∧ (p1Converting 7).pending = [] ∧ stepsLeft (p1Converting 7) = 4 :=
  ⟨p1Converting_inv 7 (by decide), rfl, by decide⟩

theorem p1Done_output : OutputInv p1Done := by
  refine ⟨p1_dbWritten, fun _ => ⟨p1_pxsWritten, ?_, fun a h => ?_⟩⟩
  · have h : ∀ y, y < 8 → ∀ x, x < 8 →
        cellGet p1Done.grid.cells (gridAddress 8 1 0 x y) = some (pxsPixel p1Done (64 * 0 + 8 * y + x)) := by
      decide +kernel
    intro t x y ht hx hy
    obtain rfl : t = 0 := Nat.lt_one_iff.mp ht
    exact h y hy x hx
  · have hs : p1Done.grid.size = 64 := bufPutAll_size _ _
    have hg := cellGet_filled 64 64 (fun j => (BitVec.ofNat 4 (convertAt p1Art j) : Pixel)) a
    have ha : a < 64 := by
      by_contra hn
      rw [if_neg hn] at hg
      exact absurd h (by rw [show cellGet p1Done.grid.cells a = none from hg]; decide)
    rw [hs]
    refine ⟨ha, 0, a % 8, a / 8, Nat.zero_lt_one, by omega, by omega, ?_⟩
    show a = gridAddress 8 1 0 (a % 8) (a / 8)
    unfold gridAddress
    omega

theorem test_meets_DoneBufferComplete : RunInv p1Done ∧ OutputInv p1Done ∧ p1Done.phase = .done :=
  ⟨p1Done_inv, p1Done_output, rfl⟩

theorem test_meets_DoneGridIsImage :
    RunInv p1Done ∧ OutputInv p1Done ∧ p1Done.phase = .done ∧ p1Done.modeReg = .raster ∧ 7 < p1Done.widthReg ∧
    7 < p1Done.height := ⟨p1Done_inv, p1Done_output, rfl, rfl, by decide, by decide⟩

theorem test_meets_RawRunIsDecompress :
    busy (starting 8 []) = false ∧ (starting 8 []).pending = [.start .rawOnly 0] ∧ 65530 ≤ 65530 := by decide

theorem test_meets_RasterRunIsAssemble :
    busy (issue (.start .raster 8) p5) = false ∧ (issue (.start .raster 8) p5).pending = [.start .raster 8] ∧
    139251 ≤ 139251 := by decide

/-- A window of P3's shape: control byte `0xFF`, eight one-byte indices, art data over the header. -/
def p3 : State :=
  { blank with
    win := regionOf [0x34#8, 0x12#8, 0x09#8, 0x00#8, 0x00#8, 0x00#8, 0x08#8, 0x00#8, 0xFF#8, 0x00#8, 0x01#8, 0x02#8, 0x00#8,
      0x01#8, 0x02#8, 0x00#8, 0x01#8],
    phase := .decode, rowCount := 8, bsCur := 8, dupCur := 9, dupOff := 9, db := ⟨32, []⟩ }

theorem test_meets_DuplicateTileConsumes :
    p3.pending = [] ∧ p3.rowIdx % 8 = 0 ∧ p3.rowIdx + 8 ≤ rows p3 ∧ p3.bsCur < p3.win.size ∧ inByte p3 p3.bsCur = 0xFF#8 ∧
    (match Host.Core.run core 8 p3 with | .next t => decide (t.phase = .decode) | .fault _ => false | .refused _ => false) =
      true := by decide +kernel

theorem test_meets_RunsAreIndependent :
    busy (issue (.start .raster 8) { p1Done with win := p5.win }) = false ∧ busy (issue (.start .raster 8) p5) = false ∧
    (issue (.start .raster 8) { p1Done with win := p5.win }).win = (issue (.start .raster 8) p5).win ∧
    (issue (.start .raster 8) { p1Done with win := p5.win }).magic = (issue (.start .raster 8) p5).magic ∧
    (issue (.start .raster 8) { p1Done with win := p5.win }).pending = [.start .raster 8] := by decide

theorem test_meets_HostReadsAreGated :
    (raiseFault ⟨.badMagic, 0⟩ blank).phase = .fault ∧ (p1Done.phase = .done ∧ 31 < p1Done.db.size) ∧
    (p1Done.modeReg = .raster ∧ 63 < p1Done.grid.size ∧ cellGet p1Done.grid.cells 63 = some 5#4) ∧
    (p1Done.phase ≠ .fault ∧ firstRow.phase ≠ .done ∧ (raiseFault ⟨.badMagic, 0⟩ blank).phase ≠ .done) ∧
    (p1RawDone.phase = .done ∧ p1RawDone.modeReg = .rawOnly) ∧ (p1Done.db.size ≤ 32 ∧ p1Done.grid.size ≤ 64) ∧
    meaningful .extent firstRow = false ∧ meaningful (.dbByte 32) p1Done = false := by decide +kernel

theorem test_meets_WindowPresentedAtRest : busy p1Done = false ∧ busy State.reset = false := by decide

theorem test_meets_FaultNumbers :
    (raiseFault ⟨.tilesNotDivisible, 0⟩ blank).phase = .fault ∧ FaultRecordInv (raiseFault ⟨.tilesNotDivisible, 0⟩ blank) :=
  ⟨rfl, rfl, by decide⟩

end Sys2Proof.Tests
end

section
/-! SUPPORT. The sequencing invariant: what it says in each phase, that every step of the hardware and START keep it, and
that it leaves the hardware no state to be stuck in (41 R151, 70 R274). -/

namespace Sys2Proof.Machine

variable {s t : State}

/-! ### The invariant in each phase -/

theorem runInv_iff_of_decode (hp : s.phase = .decode) : RunInv s ↔ DecodeCounters s := by rw [RunInv, hp]

theorem runInv_iff_of_convert (hp : s.phase = .convert) : RunInv s ↔ Converting s := by rw [RunInv, hp]

theorem runInv_iff_of_assemble (hp : s.phase = .assemble) : RunInv s ↔ Assembling s := by rw [RunInv, hp]

theorem runInv_iff_of_done (hp : s.phase = .done) : RunInv s ↔ Complete s := by rw [RunInv, hp]

/-! Each later phase keeps what the earlier ones established. -/

theorem RunInv.assembling (h : RunInv s) (hp : s.phase = .assemble ∨ (s.phase = .done ∧ s.modeReg = .raster)) :
    Assembling s := by
  rcases hp with hp | ⟨hp, hm⟩
  · exact (runInv_iff_of_assemble hp).mp h
  · exact (((runInv_iff_of_done hp).mp h).raster hm).1

theorem RunInv.converting (h : RunInv s)
    (hp : s.phase = .convert ∨ s.phase = .assemble ∨ (s.phase = .done ∧ s.modeReg = .raster)) : Converting s := by
  rcases hp with hp | hp
  · exact (runInv_iff_of_convert hp).mp h
  · exact (h.assembling hp).toConverting

theorem RunInv.decoded (h : RunInv s) (hp : s.phase = .convert ∨ s.phase = .assemble ∨ s.phase = .done) :
    Decoded s := by
  rcases hp with hp | hp | hp
  · exact (h.converting (.inl hp)).toDecoded
  · exact (h.assembling (.inl hp)).toDecoded
  · exact ((runInv_iff_of_done hp).mp h).toDecoded

theorem RunInv.decodeCounters (h : RunInv s)
    (hp : s.phase = .decode ∨ s.phase = .convert ∨ s.phase = .assemble ∨ s.phase = .done) : DecodeCounters s := by
  rcases hp with hp | hp
  · exact (runInv_iff_of_decode hp).mp h
  · exact (h.decoded hp).toDecodeCounters

/-! ### Every move of the hardware and START keep it -/

/-- One more row decoded, whichever operation copied it. -/
theorem DecodeCounters.row (h : DecodeCounters s) (more : s.rowIdx < rows s) (o : RowOutcome (rowStart s) t)
    (hp : t.phase = .decode) : DecodeCounters t := by
  obtain ⟨whole, _, counts, art, dupGe, dupLe, bs, size⟩ := h
  have hbs : (rowStart s).bsCur = 8 + (s.rowIdx + 1 + 7) / 8 := by
    rw [rowStart_bsCur, bitIdx]
    split <;> omega
  cases o with
  | raw _ _ => constructor <;> simp <;> omega
  | dup _ _ _ =>
    have := refIndexAt_length (inByte (rowStart s)) (rowStart s).dupCur
    simp only [inByte_rowStart, rowStart_dupCur] at this
    constructor <;> simp <;> omega
  | fault _ _ => cases hp

theorem RunInv.moved (h : RunInv s) (m : Moved s t) : RunInv t := by
  cases m with
  | rest _ => exact h
  | fault _ _ _ => trivial
  | row hp more _ _ hp' o =>
    exact (runInv_iff_of_decode hp').mpr (((runInv_iff_of_decode hp).mp h).row more o hp')
  | finRaw hp last mode =>
    have hd := (runInv_iff_of_decode hp).mp h
    exact { hd with allRows := last, extent_eq := rfl, raster := fun e => nomatch mode.symm.trans e }
  | finRaster hp last mode =>
    have hd := (runInv_iff_of_decode hp).mp h
    exact { hd with allRows := last, extent_eq := rfl, mode := mode, p2cIdx_le := Nat.zero_le _, pxsSize := rfl }
  | p2c hp more =>
    have hc := (runInv_iff_of_convert hp).mp h
    exact (runInv_iff_of_convert (s := storePixels _ s) hp).mpr
      { hc with p2cIdx_le := more, pxsSize := (bufPutAll_size _ _).trans hc.pxsSize }
  | layout hp last width whole divides =>
    have hc := (runInv_iff_of_convert hp).mp h
    exact { hc with
      allPixels := last, width_pos := Nat.pos_of_ne_zero width, width_mod := whole, tilesPerRow_eq := rfl,
      divides := divides, height_eq := rfl, gridSize := rfl, placeIdx_le := Nat.zero_le _ }
  | place hp more _ =>
    have ha := (runInv_iff_of_assemble hp).mp h
    exact (runInv_iff_of_assemble (s := storeTile _ s) hp).mpr
      { ha with gridSize := (bufPutAll_size _ _).trans ha.gridSize, placeIdx_le := more }
  | afin hp last =>
    have ha := (runInv_iff_of_assemble hp).mp h
    exact { ha with raster := fun _ => ⟨{ ha with }, last⟩ }

/-- The header's counts are those of a run with no row decoded (40 R121). -/
theorem decodeCounters_loadHeader {h : Header} (whole : h.rowCount.toNat % 8 = 0) (s : State) :
    DecodeCounters (loadHeader h s) := by
  constructor <;> simp [whole]

theorem runInv_of_execStart {m : Mode} {w : Nat} (hb : busy s = false) (h : execStart m w s = .next t) :
    RunInv t := by
  rcases execStart_next h with ⟨hb', _⟩ | ⟨_, rfl⟩
  · cases hb.symm.trans hb'
  · rcases headerFromWindow_cases (latchInputs m w s) with ⟨e, _, he⟩ | ⟨_, _, whole, he⟩ <;> rw [he]
    · trivial
    · exact decodeCounters_loadHeader whole _

/-! ### The hardware is never stuck -/

theorem internalStep_of_rest (hb : busy s = false) : internalStep s = .next s := by
  cases hp : s.phase <;> simp [internalStep, busy, hp] at hb ⊢

/-- In each busy phase the counter selects an operation that its phase enables. -/
theorem RunInv.internalStep_completes (h : RunInv s) : ∃ t, internalStep s = .next t := by
  cases hp : s.phase with
  | idle | done | fault => exact ⟨s, internalStep_of_rest (by simp [busy, hp])⟩
  | decode =>
    have hd := (runInv_iff_of_decode hp).mp h
    rcases hd.rowIdx_le.lt_or_eq with hlt | heq
    · simpa [internalStep, hp, hlt] using rowDecode_completes hp hlt
    · cases hm : s.modeReg <;> simp [internalStep, hp, heq, exec, execFin, finEnabled, hm]
  | convert =>
    have hc := (runInv_iff_of_convert hp).mp h
    rcases hc.p2cIdx_le.lt_or_eq with hlt | heq
    · simp [internalStep, hp, hlt, runDecoded, decode, dbRowBytes, exec, execP2c, p2cEnabled]
    · simp [internalStep, hp, heq, exec, execGridchk, gridchkEnabled]
  | assemble =>
    have ha := (runInv_iff_of_assemble hp).mp h
    have htpr : s.tilesPerRow ≠ 0 := by
      have := ha.tilesPerRow_eq
      have := ha.width_pos
      have := ha.width_mod
      omega
    rcases ha.placeIdx_le.lt_or_eq with hlt | heq
    · simp [internalStep, hp, hlt, exec, execPlace, placeEnabled, htpr]
    · simp [internalStep, hp, heq, exec, execAfin, afinEnabled]

end Sys2Proof.Machine
end

section
/-! SUPPORT. The widths of the cursors and counters (00_scope.md R8, 10_state.md R25 to R39), each bound where the invariant
of its phase gives it. -/

namespace Sys2Proof.Machine

variable {s : State}

theorem rows_lt (s : State) : rows s < 2 ^ 16 := s.rowCount.isLt

theorem artOff_toNat_lt (s : State) : s.artOff.toNat < 2 ^ 16 := s.artOff.isLt

theorem dupOff_toNat_lt (s : State) : s.dupOff.toNat < 2 ^ 16 := s.dupOff.isLt

theorem tileCount_lt (s : State) : tileCount s < 2 ^ 13 := by
  have := rows_lt s
  rw [tileCount]
  omega

/-- `ROW_COUNT` is a multiple of 8, so the longest stream has 65528 rows. -/
theorem DecodeCounters.rowIdx_le_longest (h : DecodeCounters s) : s.rowIdx ≤ 65528 := by
  have := rows_lt s
  have := h.wholeTiles
  have := h.rowIdx_le
  omega

theorem DecodeCounters.cursors_le (h : DecodeCounters s) :
    s.bsCur ≤ 8199 ∧ s.artCur ≤ 327647 ∧ s.dupCur ≤ 196591 := by
  have := h.rowIdx_le_longest
  have := artOff_toNat_lt s
  have := dupOff_toNat_lt s
  obtain ⟨_, _, counts, art, _, dupLe, bs, _⟩ := h
  omega

theorem DecodeCounters.counters_lt (h : DecodeCounters s) :
    s.rowIdx < 2 ^ 16 ∧ s.rawCnt < 2 ^ 16 ∧ s.dupCnt < 2 ^ 16 := by
  have := h.rowIdx_le_longest
  have := h.counts
  omega

theorem Decoded.extent_lt (h : Decoded s) : s.extent < 2 ^ Config.addrW := by
  obtain ⟨_, hart, hdup⟩ := h.cursors_le
  rw [h.extent_eq, Config.addrW]
  omega

/-- The grid's pixels are those of the tiles: 64 for each. -/
theorem Assembling.gridSize_le (h : Assembling s) : s.grid.size ≤ 64 * tileCount s := by
  have hw : s.widthReg = 8 * s.tilesPerRow := by
    have := h.tilesPerRow_eq
    have := h.width_mod
    omega
  calc s.grid.size = 64 * (s.tilesPerRow * (tileCount s / s.tilesPerRow)) := by
        rw [h.gridSize, h.height_eq, hw]; ring
    _ ≤ 64 * tileCount s := Nat.mul_le_mul_left 64 (Nat.mul_div_le _ _)

theorem Assembling.layout_fits (h : Assembling s) (hw : s.widthReg < 2 ^ 16) :
    s.tilesPerRow < 2 ^ 13 ∧ s.placeIdx < 2 ^ 13 ∧ s.height < 2 ^ 16 ∧ s.grid.size ≤ 524224 := by
  have ht := tileCount_lt s
  have hh : tileCount s / s.tilesPerRow ≤ tileCount s := Nat.div_le_self _ _
  have := h.gridSize_le
  have := h.tilesPerRow_eq
  have := h.height_eq
  have := h.placeIdx_le
  omega

/-- Settles O48: each bound from the invariant of the phases that use the register. -/
theorem registersFitWidths : Obligations.RegistersFitWidths := by
  intro s h hidle hfault
  have hp : s.phase = .decode ∨ s.phase = .convert ∨ s.phase = .assemble ∨ s.phase = .done := by
    cases hs : s.phase <;> simp_all
  have hd := h.decodeCounters hp
  obtain ⟨hbs, hart, hdup⟩ := hd.cursors_le
  obtain ⟨hrow, hraw, hdupCnt⟩ := hd.counters_lt
  refine ⟨⟨hbs, hart, hdup, by decide⟩, ⟨hrow, hraw, hdupCnt, tileCount_lt s⟩, fun hnd => ?extent, fun hc => ?p2c,
    fun ha => (h.assembling ha).layout_fits⟩
  case extent => exact (h.decoded (hp.resolve_left hnd)).extent_lt
  case p2c => exact (h.converting hc).p2cIdx_le.trans_lt (rows_lt s)

end Sys2Proof.Machine
end

section
/-! SUPPORT. Noninterference of runs (00_scope.md R12, 70 R262): a step of the hardware depends on the live part of the
state alone, and after START the live part depends on the window, the marker and the command alone. -/

namespace Sys2Proof.Machine

open Host (Outcome)

variable {s s' t u : State}

/-! ### The live part of a state -/

/-- `s` with these values in the registers that outlive the steps that read them, and without the row latch and the
companion unit, which no step of the hardware reads. -/
def setTransient (ctrl : Byte) (p2cIdx tilesPerRow height placeIdx : Nat) (s : State) : State :=
  { s with
    ctrl := ctrl, row := ⟨0, 0, 0, 0⟩, p2cIdx := p2cIdx, tilesPerRow := tilesPerRow, height := height,
    placeIdx := placeIdx, palIn := .empty, palOut := .empty }

/-- What the rest of the run or the host can still read of a state, every other register at 0: the control byte only
inside a tile, `P2C_IDX` only in CONVERT, the layout only in ASSEMBLE, but `HEIGHT` also in DONE after RASTER, and in FAULT
nothing but the fault record. -/
def live (s : State) : State :=
  match s.phase with
  | .idle => s
  | .decode => setTransient (if bitIdx s = 0 then 0 else s.ctrl) 0 0 0 0 s
  | .convert => setTransient 0 s.p2cIdx 0 0 0 s
  | .assemble => setTransient 0 0 s.tilesPerRow s.height s.placeIdx s
  | .done => setTransient 0 0 0 (if s.modeReg = .raster then s.height else 0) 0 s
  | .fault => { State.reset with phase := .fault, errCode := s.errCode, errCause := s.errCause, errAddr := s.errAddr }

/-- An outcome with the live part of the state it answers. -/
def liveOutcome (o : Outcome State Fault Refusal) : Outcome State Fault Refusal :=
  match o with
  | .next t => .next (live t)
  | .fault r => .fault r
  | .refused r => .refused r

theorem live_of_decode (hp : s.phase = .decode) :
    live s = setTransient (if bitIdx s = 0 then 0 else s.ctrl) 0 0 0 0 s := by rw [live, hp]

theorem live_of_convert (hp : s.phase = .convert) : live s = setTransient 0 s.p2cIdx 0 0 0 s := by rw [live, hp]

theorem live_of_assemble (hp : s.phase = .assemble) :
    live s = setTransient 0 0 s.tilesPerRow s.height s.placeIdx s := by rw [live, hp]

theorem live_of_done (hp : s.phase = .done) :
    live s = setTransient 0 0 0 (if s.modeReg = .raster then s.height else 0) 0 s := by rw [live, hp]

@[simp] theorem live_phase (s : State) : (live s).phase = s.phase := by
  cases hp : s.phase <;> simp [live, hp, setTransient]

theorem live_live_of_rest (hb : busy s = false) : live (live s) = live s := by
  cases hp : s.phase with
  | idle | fault => simp [live, hp]
  | done => cases hm : s.modeReg <;> simp [live, hp, hm, setTransient]
  | decode | convert | assemble => simp [busy, hp] at hb

/-! ### Row operations read nothing of the later stages -/

/-- `s` without what no row operation reads. -/
def dropUnread (s : State) : State := setTransient s.ctrl 0 0 0 0 s

theorem live_storeRow_dropUnread (hp : s.phase = .decode) (row : Row) :
    live (storeRow row (dropUnread s)) = live (storeRow row s) := by
  rw [live_of_decode (s := storeRow row (dropUnread s)) hp, live_of_decode (s := storeRow row s) hp]
  rfl

theorem live_duplicateRow_dropUnread (hp : s.phase = .decode) (index n : Nat) :
    live (settle (dropUnread s) (duplicateRow index n (dropUnread s))) = live (settle s (duplicateRow index n s)) := by
  have hread : readRow .boundsDupRow (dupAddress (dropUnread s) index) (dropUnread s) =
      readRow .boundsDupRow (dupAddress s index) s := rfl
  rw [duplicateRow, duplicateRow, hread]
  cases readRow .boundsDupRow (dupAddress s index) s with
  | error e => rfl
  | ok row => exact live_storeRow_dropUnread (s := countDup n s) hp row

theorem liveOutcome_execRaw_dropUnread (he : rowEnabled s = true) (hp : s.phase = .decode) :
    liveOutcome (execRaw (dropUnread s)) = liveOutcome (execRaw s) := by
  have he' : rowEnabled (dropUnread s) = true := he
  have hread : readRow .boundsRawRow (rawAddress (dropUnread s)) (dropUnread s) =
      readRow .boundsRawRow (rawAddress s) s := rfl
  rw [execRaw, execRaw, if_pos he, if_pos he', hread]
  cases readRow .boundsRawRow (rawAddress s) s with
  | error e => rfl
  | ok row => exact congrArg Outcome.next (live_storeRow_dropUnread (s := countRaw s) hp row)

theorem liveOutcome_execDup1_dropUnread (he : rowEnabled s = true) (hp : s.phase = .decode) (index : Byte) :
    liveOutcome (execDup1 index (dropUnread s)) = liveOutcome (execDup1 index s) := by
  have he' : rowEnabled (dropUnread s) = true := he
  have hcheck : checkBounds .boundsIndex (dropUnread s).dupCur 1 (dropUnread s) =
      checkBounds .boundsIndex s.dupCur 1 s := rfl
  rw [execDup1, execDup1, if_pos he, if_pos he', hcheck]
  cases checkBounds .boundsIndex s.dupCur 1 s with
  | error e => rfl
  | ok _ => exact congrArg Outcome.next (live_duplicateRow_dropUnread hp _ _)

theorem liveOutcome_execDup2_dropUnread (he : rowEnabled s = true) (hp : s.phase = .decode) (index : BitVec 12) :
    liveOutcome (execDup2 index (dropUnread s)) = liveOutcome (execDup2 index s) := by
  have he' : rowEnabled (dropUnread s) = true := he
  have hcheck : checkBounds .boundsIndex (dropUnread s).dupCur 1 (dropUnread s) =
      checkBounds .boundsIndex s.dupCur 1 s := rfl
  have hcheck2 : checkBounds .boundsIndex2 ((dropUnread s).dupCur + 1) 1 (dropUnread s) =
      checkBounds .boundsIndex2 (s.dupCur + 1) 1 s := rfl
  rw [execDup2, execDup2, if_pos he, if_pos he', hcheck, hcheck2]
  cases checkBounds .boundsIndex s.dupCur 1 s with
  | error e => rfl
  | ok _ =>
    cases checkBounds .boundsIndex2 (s.dupCur + 1) 1 s with
    | error e => rfl
    | ok _ => exact congrArg Outcome.next (live_duplicateRow_dropUnread hp _ _)

/-- The bits of a row decode to a row operation. -/
theorem decode_row_ok {b : Bool} {bs rest : List Byte} {i : Instr} (h : decode (.row b) bs = .ok (i, rest)) :
    i = .raw ∨ (∃ x, i = .dup1 x) ∨ ∃ x, i = .dup2 x := by
  cases b with
  | false => cases h; exact .inl rfl
  | true =>
    match bs, h with
    | b0 :: rest', h =>
      by_cases hb : b0.toNat < 0xF0
      · rw [decode, decodeIndex_one hb] at h
        cases h
        exact .inr (.inl ⟨_, rfl⟩)
      · match rest', h with
        | [], h => rw [decode, decodeIndex_cut (Nat.not_lt.mp hb)] at h; cases h
        | b1 :: _, h =>
          rw [decode, decodeIndex_two (Nat.not_lt.mp hb)] at h
          cases h
          exact .inr (.inr ⟨_, rfl⟩)

theorem liveOutcome_rowOperation_dropUnread (hp : s.phase = .decode) (hr : s.rowIdx < rows s) :
    liveOutcome (rowOperation (dropUnread s)) = liveOutcome (rowOperation s) := by
  have he : rowEnabled s = true := by simp [rowEnabled, hp, hr]
  have hw : windowBytes (dropUnread s) (dropUnread s).dupCur 2 = windowBytes s s.dupCur 2 := windowBytes_congr rfl _ _
  have hc : controlBit (dropUnread s) = controlBit s := rfl
  simp only [rowOperation, runDecoded, hw, hc]
  cases hd : decode (.row (controlBit s)) (windowBytes s s.dupCur 2) with
  | error r => cases r <;> rfl
  | ok p =>
    rcases decode_row_ok hd with hi | ⟨x, hi⟩ | ⟨x, hi⟩ <;> simp only [hi]
    · exact liveOutcome_execRaw_dropUnread he hp
    · exact liveOutcome_execDup1_dropUnread he hp x
    · exact liveOutcome_execDup2_dropUnread he hp x

/-! ### The row-decode step -/

theorem controlFetch_eq_rowStart (hp : s.phase = .decode) (hr : s.rowIdx < rows s) (hb : bitIdx s = 0)
    (hw : s.bsCur < s.win.size) : controlFetch s = .next (rowStart s) := by
  rcases controlFetch_cases s with ⟨_, e⟩ | ⟨h, _⟩
  · have he : ctrlEnabled s = true := by simp [ctrlEnabled, hp, hr, hb]
    rw [e, execCtrl, if_pos he, checkBounds_of_le (show s.bsCur + 1 ≤ s.win.size from hw), rowStart, if_pos hb]
    rfl
  · omega

theorem liveOutcome_precise (o : RowOutcome u t) (hp : u.phase = .decode) :
    liveOutcome (precise s (.next t)) = .next (live t) := by
  cases o with
  | raw _ _ => simp [precise, hp, liveOutcome]
  | dup _ _ _ => simp [precise, hp, liveOutcome]
  | fault e _ => rfl

/-- The row-decode step as the row operation after the control-byte fetch, or the missing control byte. -/
theorem liveOutcome_rowDecode (hp : s.phase = .decode) (hr : s.rowIdx < rows s) :
    liveOutcome (rowDecode s) =
      if bitIdx s = 0 ∧ s.win.size ≤ s.bsCur then .next (live (raiseFault ⟨.boundsCtrl, s.bsCur⟩ s))
      else liveOutcome (rowOperation (rowStart s)) := by
  unfold rowDecode
  by_cases hb : bitIdx s = 0
  · rcases controlFetch_cases s with ⟨hw, _⟩ | ⟨hw, e⟩
    · have hp' : (rowStart s).phase = .decode := by simpa using hp
      obtain ⟨t, ht⟩ := rowOperation_completes hp' (by simpa using hr)
      rw [if_pos hb, controlFetch_eq_rowStart hp hr hb hw, if_neg (by omega)]
      simp only [hp', reduceCtorEq, if_false, ht]
      exact liveOutcome_precise (rowOperation_next ht) hp'
    · rw [if_pos hb, e, if_pos ⟨hb, hw⟩]
      rfl
  · rw [if_neg hb, if_neg fun h => hb h.1, rowStart, if_neg hb]

/-- The control-byte fetch reads nothing that is not live, and overwrites the control byte where it is not. -/
theorem rowStart_live (hp : s.phase = .decode) : rowStart (live s) = dropUnread (rowStart s) := by
  rw [live_of_decode hp]
  by_cases hb : bitIdx s = 0
  · rw [rowStart, if_pos (show bitIdx (setTransient _ _ _ _ _ s) = 0 from hb), if_pos hb, rowStart, if_pos hb]
    rfl
  · rw [rowStart, if_neg (show bitIdx (setTransient _ _ _ _ _ s) ≠ 0 from hb), rowStart, if_neg hb, if_neg hb]
    rfl

theorem liveOutcome_rowDecode_live (hp : s.phase = .decode) (hr : s.rowIdx < rows s) :
    liveOutcome (rowDecode (live s)) = liveOutcome (rowDecode s) := by
  have hp' : (live s).phase = .decode := by simpa using hp
  have hr' : (live s).rowIdx < rows (live s) := by rw [live_of_decode hp]; exact hr
  rw [liveOutcome_rowDecode hp' hr', liveOutcome_rowDecode hp hr, rowStart_live hp,
    liveOutcome_rowOperation_dropUnread (by simpa using hp) (by simpa using hr), live_of_decode hp]
  rfl

/-! ### The other steps -/

theorem liveOutcome_execFin_live (hp : s.phase = .decode) (hl : s.rowIdx = rows s) :
    liveOutcome (execFin (live s)) = liveOutcome (execFin s) := by
  have he : finEnabled s = true := by simp [finEnabled, hp, hl]
  rw [live_of_decode hp, execFin, execFin, if_pos he, if_pos (show finEnabled (setTransient _ _ _ _ _ s) = true from he)]
  cases hm : s.modeReg <;> simp [setTransient, hm, liveOutcome, live, reportExtent, beginConvert, setPhase]

theorem liveOutcome_execP2c_live (hp : s.phase = .convert) (hr : s.p2cIdx < rows s) (row : Row) :
    liveOutcome (execP2c row (live s)) = liveOutcome (execP2c row s) := by
  have he : p2cEnabled s = true := by simp [p2cEnabled, hp, hr]
  rw [live_of_convert hp, execP2c, execP2c, if_pos he, if_pos (show p2cEnabled (setTransient _ _ _ _ _ s) = true from he)]
  exact congrArg Outcome.next (by
    rw [live_of_convert (s := storePixels _ (setTransient _ _ _ _ _ s)) hp, live_of_convert (s := storePixels _ s) hp]
    rfl)

theorem liveOutcome_execGridchk_live (hp : s.phase = .convert) (hl : s.p2cIdx = rows s) :
    liveOutcome (execGridchk (live s)) = liveOutcome (execGridchk s) := by
  have he : gridchkEnabled s = true := by simp [gridchkEnabled, hp, hl]
  rw [live_of_convert hp, execGridchk, execGridchk, if_pos he,
    if_pos (show gridchkEnabled (setTransient _ _ _ _ _ s) = true from he)]
  have hw : (setTransient 0 s.p2cIdx 0 0 0 s).widthReg = s.widthReg := rfl
  have ht : tileCount (setTransient 0 s.p2cIdx 0 0 0 s) = tileCount s := rfl
  rcases checkLayout_cases s with ⟨h1, e⟩ | ⟨h1, h2, h3, e⟩ | ⟨h1, h2, h3, e⟩
  · rw [e, checkLayout, if_pos (by rwa [hw])]
    rfl
  · rw [e, checkLayout, if_neg (by rw [hw]; tauto), if_pos (by rwa [hw, ht])]
    rfl
  · rw [e, checkLayout, if_neg (by rw [hw]; tauto), if_neg (by rwa [hw, ht, not_not])]
    rfl

theorem liveOutcome_execPlace_live (hp : s.phase = .assemble) (hr : s.placeIdx < tileCount s) :
    liveOutcome (execPlace (live s)) = liveOutcome (execPlace s) := by
  have he : placeEnabled s = true := by simp [placeEnabled, hp, hr]
  rw [live_of_assemble hp, execPlace, execPlace, if_pos he,
    if_pos (show placeEnabled (setTransient _ _ _ _ _ s) = true from he)]
  by_cases h0 : s.tilesPerRow = 0
  · rw [if_pos h0, if_pos (show (setTransient _ _ s.tilesPerRow _ _ s).tilesPerRow = 0 from h0)]
  · rw [if_neg h0, if_neg (show (setTransient _ _ s.tilesPerRow _ _ s).tilesPerRow ≠ 0 from h0)]
    exact congrArg Outcome.next (by
      rw [live_of_assemble (s := storeTile _ (setTransient _ _ _ _ _ s)) hp, live_of_assemble (s := storeTile _ s) hp]
      rfl)

theorem liveOutcome_execAfin_live (hp : s.phase = .assemble) (hl : s.placeIdx = tileCount s) :
    liveOutcome (execAfin (live s)) = liveOutcome (execAfin s) := by
  have he : afinEnabled s = true := by simp [afinEnabled, hp, hl]
  rw [live_of_assemble hp, execAfin, execAfin, if_pos he,
    if_pos (show afinEnabled (setTransient _ _ _ _ _ s) = true from he)]
  rfl

/-- The step of the hardware depends on the live part of the state alone. -/
theorem liveOutcome_internalStep_live (s : State) :
    liveOutcome (internalStep (live s)) = liveOutcome (internalStep s) := by
  cases hp : s.phase with
  | idle | done | fault =>
    have hb : busy s = false := by simp [busy, hp]
    have hb' : busy (live s) = false := by simp [busy, hp]
    rw [internalStep_of_rest hb, internalStep_of_rest hb']
    exact congrArg Outcome.next (live_live_of_rest hb)
  | decode =>
    have hc : (live s).rowIdx = s.rowIdx ∧ rows (live s) = rows s := by rw [live_of_decode hp]; exact ⟨rfl, rfl⟩
    simp only [internalStep, live_phase, hp, hc]
    split
    · exact liveOutcome_rowDecode_live hp ‹_›
    · split
      · exact liveOutcome_execFin_live hp ‹_›
      · rfl
  | convert =>
    have hc : (live s).p2cIdx = s.p2cIdx ∧ rows (live s) = rows s ∧ dbRowBytes (live s) = dbRowBytes s := by
      rw [live_of_convert hp]; exact ⟨rfl, rfl, rfl⟩
    simp only [internalStep, live_phase, hp, hc]
    split
    · exact liveOutcome_execP2c_live hp ‹_› _
    · split
      · exact liveOutcome_execGridchk_live hp ‹_›
      · rfl
  | assemble =>
    have hc : (live s).placeIdx = s.placeIdx ∧ tileCount (live s) = tileCount s := by
      rw [live_of_assemble hp]; exact ⟨rfl, rfl⟩
    simp only [internalStep, live_phase, hp, hc]
    split
    · exact liveOutcome_execPlace_live hp ‹_›
    · split
      · exact liveOutcome_execAfin_live hp ‹_›
      · rfl

/-! ### START -/

theorem parseHeader_of_le {h : Header} (hw : 8 ≤ s.win.size) :
    parseHeader h s =
      if h.magic ≠ s.magic then .error ⟨.badMagic, 0⟩
      else if h.rowCount.toNat % 8 ≠ 0 then .error ⟨.partialTile, 6⟩
      else .ok (loadHeader h s) := by
  rw [parseHeader, checkBounds_of_le (show 0 + 8 ≤ s.win.size from hw)]

/-- Of a state at rest START keeps the window, the marker and the waiting commands; nothing else of it is live after. -/
theorem liveOutcome_execStart_congr {m : Mode} {w : Nat} (hb : busy s = false) (hb' : busy s' = false)
    (hwin : s.win = s'.win) (hmagic : s.magic = s'.magic) (hpend : s.pending = s'.pending) :
    liveOutcome (execStart m w s) = liveOutcome (execStart m w s') := by
  have hheader : windowHeader s = windowHeader s' := by simp only [windowHeader, refHalf, inByte, hwin]
  have hload (h : Header) : live (loadHeader h (latchInputs m w s)) = live (loadHeader h (latchInputs m w s')) := by
    simp [live, setTransient, loadHeader, latchInputs, bitIdx, hwin, hmagic, hpend]
  rw [execStart, execStart, if_neg (by simp [hb]), if_neg (by simp [hb'])]
  by_cases hw : 8 ≤ s'.win.size
  · have hw' : 8 ≤ s.win.size := hwin ▸ hw
    rw [headerFromWindow_of_le (s := latchInputs m w s) hw', headerFromWindow_of_le (s := latchInputs m w s') hw,
      parseHeader_of_le (s := latchInputs m w s) hw', parseHeader_of_le (s := latchInputs m w s') hw,
      windowHeader_latchInputs, windowHeader_latchInputs, latchInputs_magic, latchInputs_magic, hheader, hmagic]
    split
    · rfl
    · split
      · rfl
      · exact congrArg Outcome.next (hload _)
  · have hw' : ¬ 8 ≤ s.win.size := hwin ▸ hw
    rw [headerFromWindow_of_lt (s := latchInputs m w s) (Nat.not_le.mp hw'),
      headerFromWindow_of_lt (s := latchInputs m w s') (Nat.not_le.mp hw)]
    rfl

/-! ### Runs -/

theorem run_succ_of_step {n : Nat} (h : step s = .next t) :
    Host.Core.run core (n + 1) s = Host.Core.run core n t := by
  have h' : core.step s = .next t := h
  simp only [Host.Core.run, h']

theorem Moved.pending_eq (m : Moved s t) : t.pending = s.pending := by
  cases m with
  | row _ _ _ _ _ o => cases o <;> simp
  | rest | fault | finRaw | finRaster | p2c | layout | place | afin => rfl

theorem Commanded.pending_eq (c : Commanded s t) : t.pending = s.pending := by
  cases c <;> rfl

/-- At rest a waiting START is the next step, and it leaves a run begun, or a fault, with no command waiting. -/
theorem step_start {m : Mode} {w : Nat} (hb : busy s = false) (hp : s.pending = [.start m w]) :
    ∃ t, execStart m w (setPending [] s) = .next t ∧ step s = .next t ∧ RunInv t ∧ t.pending = [] := by
  have hrest : busy (setPending [] s) = false := hb
  obtain ⟨t, ht⟩ : ∃ t, execStart m w (setPending [] s) = .next t := ⟨_, if_neg (by simp [hb])⟩
  exact ⟨t, ht, (step_of_pending_cons hp).trans ht, runInv_of_execStart hrest ht,
    (takeCommand_next (c := .start m w) ht).pending_eq⟩

/-- A run of the hardware alone completes, and its live part depends on the live part it starts from. -/
theorem run_live_congr (n : Nat) (h : RunInv s) (h' : RunInv s') (hp : s.pending = []) (hp' : s'.pending = [])
    (hl : live s = live s') :
    ∃ t t' : State, Host.Core.run core n s = .next t ∧ Host.Core.run core n s' = .next t' ∧ live t = live t' := by
  induction n generalizing s s' with
  | zero => exact ⟨s, s', rfl, rfl, hl⟩
  | succ n ih =>
    obtain ⟨u, hu⟩ := h.internalStep_completes
    obtain ⟨u', hu'⟩ := h'.internalStep_completes
    have m := internalStep_next hu
    have m' := internalStep_next hu'
    have hlu : liveOutcome (.next u) = liveOutcome (.next u') := by
      rw [← hu, ← hu', ← liveOutcome_internalStep_live s, hl, liveOutcome_internalStep_live s']
    rw [run_succ_of_step ((step_of_pending_nil hp).trans hu), run_succ_of_step ((step_of_pending_nil hp').trans hu')]
    exact ih (h.moved m) (h'.moved m') (m.pending_eq.trans hp) (m'.pending_eq.trans hp') (Outcome.next.inj hlu)

/-! ### What the host reads -/

@[simp] theorem busy_live (s : State) : busy (live s) = busy s := by simp [busy]

@[simp] theorem isDone_live (s : State) : isDone (live s) = isDone s := by simp [isDone]

@[simp] theorem faulted_live (s : State) : faulted (live s) = faulted s := by simp [faulted]

@[simp] theorem meaningful_live (p : HostPort) (s : State) : meaningful p (live s) = meaningful p s := by
  by_cases hd : s.phase = .done
  · cases p <;> simp [meaningful, live_of_done hd, setTransient, isDone, faulted]
  · cases p <;> simp [meaningful, isDone, hd]

/-- Where a port is meaningful, what it delivers is live. -/
theorem portValue_live {p : HostPort} (h : meaningful p s = true) (k : Nat) :
    portValue k p (live s) = portValue k p s := by
  cases p with
  | phase | busy | done | faulted => simp [portValue]
  | errCode | errCause | errAddr =>
    have hf : s.phase = .fault := by simpa [meaningful, faulted] using h
    simp [portValue, live, hf]
  | dupOff | artOff | rowCount | rawCnt | dupCnt | extent =>
    have hd : s.phase = .done := by simpa [meaningful, isDone] using h
    rw [live_of_done hd]
    rfl
  | height =>
    obtain ⟨hd, hm⟩ : s.phase = .done ∧ s.modeReg = .raster := by simpa [meaningful, isDone] using h
    simp [portValue, live_of_done hd, setTransient, hm]
  | dbByte a =>
    have hd : s.phase = .done := by simp [meaningful, isDone] at h; exact h.1
    rw [live_of_done hd]
    rfl
  | gridPixel a =>
    have hd : s.phase = .done := by simp [meaningful, isDone] at h; exact h.1.1
    rw [live_of_done hd]
    rfl

theorem hostRead_live {p : HostPort} (h : meaningful p s = true) (k : Nat) :
    hostRead k p (live s) = hostRead k p s := by
  rw [hostRead, hostRead, meaningful_live, if_pos h, if_pos h, portValue_live h]

/-- Two states with one live part show the host the same. -/
theorem host_sees_live (h : live s = live s') : s.phase = s'.phase ∧
    ∀ (k : Nat) (p : HostPort), meaningful p s = meaningful p s' ∧
      (meaningful p s = true → hostRead k p s = hostRead k p s') := by
  have hm (p : HostPort) : meaningful p s = meaningful p s' := by rw [← meaningful_live p s, h, meaningful_live]
  refine ⟨by rw [← live_phase s, h, live_phase], fun k p => ⟨hm p, fun hp => ?_⟩⟩
  rw [← hostRead_live hp, h, hostRead_live (hm p ▸ hp)]

/-- Settles O57: START leaves one live part of both states, every step keeps it one, and the host reads nothing else. -/
theorem runsAreIndependent : Obligations.RunsAreIndependent := by
  intro s s' m w n hb hb' hwin hmagic hp hp' hn
  obtain ⟨n, rfl⟩ := Nat.exists_eq_add_of_le' hn
  obtain ⟨u, hu, hstep, hinv, hpend⟩ := step_start hb hp
  obtain ⟨u', hu', hstep', hinv', hpend'⟩ := step_start hb' hp'
  have hstart : liveOutcome (.next u) = liveOutcome (.next u') := by
    rw [← hu, ← hu']
    exact liveOutcome_execStart_congr hb hb' hwin hmagic rfl
  obtain ⟨t, t', ht, ht', hlive⟩ := run_live_congr n hinv hinv' hpend hpend' (Outcome.next.inj hstart)
  exact ⟨t, t', (run_succ_of_step hstep).trans ht, (run_succ_of_step hstep').trans ht', host_sees_live hlive⟩

end Sys2Proof.Machine
end

section
/-! SUPPORT. Phase transitions and the fault record (10_state.md R27, R37): what each move of the hardware and each command
does to `PHASE` and to the record, and the invariants at reset (R45). -/

namespace Sys2Proof.Machine

variable {s t : State}

/-! ### The phase transitions -/

theorem hardwareMove_self_of_rest (hb : busy s = false) : hardwareMove s.phase s.phase = true := by
  cases hp : s.phase <;> simp [busy, hp, hardwareMove] at hb ⊢

/-- Every phase of a run but ASSEMBLE has a transition to FAULT: PLACE and AFIN cannot fault (43 R192, R195). -/
theorem hardwareMove_fault_of_busy (hb : busy s = true) (hp : s.phase ≠ .assemble) :
    hardwareMove s.phase .fault = true := by
  cases h : s.phase <;> simp [busy, h, hardwareMove] at hb hp ⊢

theorem phase_of_internalStep_assemble (hp : s.phase = .assemble) (h : internalStep s = .next t) :
    t.phase = .assemble ∨ t.phase = .done := by
  simp only [internalStep, hp] at h
  split at h
  · obtain ⟨_, _, _, rfl⟩ := execPlace_next h
    exact .inl hp
  · split at h
    · obtain ⟨_, _, rfl⟩ := execAfin_next h
      exact .inr rfl
    · cases h

theorem Moved.hardwareMove_phase (m : Moved s t) (hp : s.phase ≠ .assemble) :
    hardwareMove s.phase t.phase = true := by
  cases m with
  | rest hb => exact hardwareMove_self_of_rest hb
  | fault _ hb _ => exact hardwareMove_fault_of_busy hb hp
  | row hp _ _ _ hp' _ => rw [hp, hp']; rfl
  | finRaw hp _ _ | finRaster hp _ _ | layout hp _ _ _ _ => rw [hp]; rfl
  | p2c hp _ => rw [storePixels_phase, hp]; rfl
  | place hp' _ _ | afin hp' _ => exact absurd hp' hp

theorem hardwareMove_of_internalStep (h : internalStep s = .next t) : hardwareMove s.phase t.phase = true := by
  by_cases hp : s.phase = .assemble
  · rcases phase_of_internalStep_assemble hp h with ht | ht <;> rw [hp, ht] <;> rfl
  · exact (internalStep_next h).hardwareMove_phase hp

/-- START is ignored in a busy phase; elsewhere its header is accepted or raises a fault (40 R120, R126). -/
theorem phase_of_execStart {m : Mode} {w : Nat} (h : execStart m w s = .next t) :
    if busy s = true then t.phase = s.phase else t.phase = .decode ∨ t.phase = .fault := by
  rcases execStart_next h with ⟨hb, rfl⟩ | ⟨hb, rfl⟩
  · rw [if_pos hb]
  · rw [if_neg (by simp [hb])]
    rcases headerFromWindow_cases (latchInputs m w s) with ⟨e, _, he⟩ | ⟨_, _, _, he⟩ <;> rw [he]
    · exact .inr rfl
    · exact .inl rfl

/-- Settles O41: the hardware's moves by cases, and each command by what its meaning answers. -/
theorem phaseMovesAreLegal : Obligations.PhaseMovesAreLegal := by
  refine ⟨fun s t hp h => ?hardware, fun s t cs => ⟨fun m w hp h => ?start, fun hp h => ?reset, fun k hp h => ?palx⟩⟩
  case hardware => exact hardwareMove_of_internalStep ((step_of_pending_nil hp).symm.trans h)
  all_goals rw [step_of_pending_cons hp] at h
  case start => exact phase_of_execStart (s := setPending cs s) h
  case reset => rw [execReset_next h, clearRegisters_phase]
  case palx =>
    obtain ⟨_, rfl⟩ := execPalx_next h
    rfl

/-! ### The fault record -/

/-- Outside `FAULT` the invariant says that the record is clear. -/
theorem faultRecordInv_iff_of_ne_fault (hp : s.phase ≠ .fault) :
    FaultRecordInv s ↔ s.errCode = .none ∧ s.errCause = .none := by
  constructor
  · rintro ⟨hcode, hcause⟩
    have hnone : s.errCause = .none := not_not.mp (mt hcause.mpr hp)
    exact ⟨by rw [hcode, hnone, errCodeOf], hnone⟩
  · rintro ⟨hcode, hcause⟩
    exact ⟨by rw [hcode, hcause, errCodeOf], by simp [hp, hcause]⟩

theorem faultRecordInv_raiseFault {e : Raise} (cause : e.cause ≠ .none) (s : State) :
    FaultRecordInv (raiseFault e s) :=
  ⟨rfl, fun _ => cause, fun _ => rfl⟩

theorem faultRecordInv_clearRegisters (s : State) : FaultRecordInv (clearRegisters s) :=
  (faultRecordInv_iff_of_ne_fault (by simp)).mpr ⟨rfl, rfl⟩

/-- The record goes with a step between two phases other than `FAULT` that does not write it. -/
theorem FaultRecordInv.of_unwritten (h : FaultRecordInv s) (hs : s.phase ≠ .fault) (ht : t.phase ≠ .fault)
    (hcode : t.errCode = s.errCode) (hcause : t.errCause = s.errCause) : FaultRecordInv t := by
  rw [faultRecordInv_iff_of_ne_fault ht, hcode, hcause]
  exact (faultRecordInv_iff_of_ne_fault hs).mp h

/-- A copied row leaves the fault record alone. -/
theorem RowOutcome.record_eq (o : RowOutcome s t) (hp : t.phase ≠ .fault) :
    t.errCode = s.errCode ∧ t.errCause = s.errCause := by
  cases o with
  | raw _ _ | dup _ _ _ => exact ⟨rfl, rfl⟩
  | fault _ _ => exact absurd rfl hp

theorem FaultRecordInv.moved (h : FaultRecordInv s) (m : Moved s t) : FaultRecordInv t := by
  cases m with
  | rest _ => exact h
  | fault _ _ cause => exact faultRecordInv_raiseFault cause s
  | row hp _ _ _ hp' o =>
    have ht : t.phase ≠ .fault := by rw [hp']; nofun
    obtain ⟨hcode, hcause⟩ := o.record_eq ht
    exact h.of_unwritten (by rw [hp]; nofun) ht (hcode.trans (rowStart_errCode s)) (hcause.trans (rowStart_errCause s))
  | finRaw hp _ _ | finRaster hp _ _ | layout hp _ _ _ _ | afin hp _ =>
    exact h.of_unwritten (by rw [hp]; nofun) (by simp) rfl rfl
  | p2c hp _ => exact h.of_unwritten (by rw [hp]; nofun) (by rw [storePixels_phase, hp]; nofun) rfl rfl
  | place hp _ _ => exact h.of_unwritten (by rw [hp]; nofun) (by rw [storeTile_phase, hp]; nofun) rfl rfl

theorem FaultRecordInv.commanded (h : FaultRecordInv s) (c : Commanded s t) : FaultRecordInv t := by
  cases c with
  | ignored _ => exact h
  | started _ _ _ _ _ _ => exact (faultRecordInv_iff_of_ne_fault (by simp)).mpr ⟨rfl, rfl⟩
  | fault _ _ cause => exact faultRecordInv_raiseFault cause s
  | reset => exact faultRecordInv_clearRegisters s
  | palx _ _ => exact h

/-- Settles O46: fault entry writes both parts together, START and RESET clear the record, nothing else writes it. -/
theorem faultRecordKept : Obligations.FaultRecordKept := by
  intro s t h hstep
  rcases step_next hstep with ⟨_, m⟩ | ⟨_, cs, _, c⟩
  · exact h.moved m
  · exact FaultRecordInv.commanded (s := setPending cs s) h c

/-! ### Reset -/

theorem cellsSorted_empty {α : Type} : CellsSorted (Buffer.empty : Buffer α).cells := List.Pairwise.nil

theorem regionCanonical_empty : RegionCanonical Buffer.empty := ⟨cellsSorted_empty, nofun⟩

/-- Settles O47: every memory is of length 0, the phase is `IDLE`, and the record is clear. -/
theorem invariantsAtReset : Obligations.InvariantsAtReset :=
  ⟨⟨regionCanonical_empty, regionCanonical_empty, cellsSorted_empty, cellsSorted_empty, cellsSorted_empty,
      cellsSorted_empty⟩,
    trivial, trivial, faultRecordInv_clearRegisters State.reset⟩

end Sys2Proof.Machine
end

section
/-! SUPPORT. What the host reads (10_state.md R42, R47): where each group of ports is meaningful, and a read there and
elsewhere. -/

namespace Sys2Proof.Machine

variable {s : State}

theorem hostRead_of_meaningful {p : HostPort} (h : meaningful p s = true) (n : Nat) :
    hostRead n p s = portValue n p s := if_pos h

theorem hostRead_of_not_meaningful {p : HostPort} (h : ¬ meaningful p s = true) (n : Nat) :
    hostRead n p s = .number (Config.unspecifiedRead p n) := if_neg h

/-! ### Where the ports are meaningful -/

theorem meaningful_record_iff {p : HostPort} (hp : p ∈ [HostPort.errCode, .errCause, .errAddr]) :
    meaningful p s = true ↔ s.phase = .fault := by
  simp only [List.mem_cons, List.not_mem_nil, or_false] at hp
  obtain rfl | rfl | rfl := hp <;> exact decide_eq_true_iff

theorem meaningful_result_iff {p : HostPort}
    (hp : p ∈ [HostPort.dupOff, .artOff, .rowCount, .rawCnt, .dupCnt, .extent]) :
    meaningful p s = true ↔ s.phase = .done := by
  simp only [List.mem_cons, List.not_mem_nil, or_false] at hp
  obtain rfl | rfl | rfl | rfl | rfl | rfl := hp <;> exact decide_eq_true_iff

theorem meaningful_dbByte_iff {a : Nat} : meaningful (.dbByte a) s = true ↔ s.phase = .done ∧ a < s.db.size := by
  simp [meaningful, isDone]

theorem meaningful_height_iff : meaningful .height s = true ↔ s.phase = .done ∧ s.modeReg = .raster := by
  simp [meaningful, isDone]

theorem meaningful_gridPixel_iff {a : Nat} :
    meaningful (.gridPixel a) s = true ↔ (s.phase = .done ∧ s.modeReg = .raster) ∧ a < s.grid.size := by
  simp [meaningful, isDone]

/-! ### The value a read answers -/

theorem portValue_gridPixel {a : Nat} {v : Pixel} (h : cellGet s.grid.cells a = some v) (n : Nat) :
    portValue n (.gridPixel a) s = .number v.toNat := by simp [portValue, h]

/-- Settles O58: where a port is meaningful it delivers its value, and elsewhere an unspecified one. -/
theorem hostReadsAreGated : Obligations.HostReadsAreGated := by
  intro s n
  refine ⟨rfl, rfl, rfl, rfl, fun hf => ?record, fun hd => ?results, fun hf p hp => ?noRecord,
    fun hd => ⟨fun p hp => ?noResults, fun a => ?noDb⟩, fun h => ⟨?noHeight, fun a => ?noGrid⟩,
    fun a ha => ?dbBeyond, fun a ha => ?gridBeyond, fun p hp => hostRead_of_not_meaningful (by simp [hp]) n⟩
  case record =>
    have value {p : HostPort} (hp : p ∈ [HostPort.errCode, .errCause, .errAddr]) :
        hostRead n p s = portValue n p s :=
      hostRead_of_meaningful ((meaningful_record_iff hp).mpr hf) n
    exact ⟨value (by simp), value (by simp), value (by simp)⟩
  case results =>
    have value {p : HostPort} (hp : p ∈ [HostPort.dupOff, .artOff, .rowCount, .rawCnt, .dupCnt, .extent]) :
        hostRead n p s = portValue n p s :=
      hostRead_of_meaningful ((meaningful_result_iff hp).mpr hd) n
    refine ⟨value (by simp), value (by simp), value (by simp), value (by simp), value (by simp), value (by simp),
      fun a ha => hostRead_of_meaningful (meaningful_dbByte_iff.mpr ⟨hd, ha⟩) n,
      fun hm => ⟨hostRead_of_meaningful (meaningful_height_iff.mpr ⟨hd, hm⟩) n, fun a v ha hv => ?_⟩⟩
    rw [hostRead_of_meaningful (meaningful_gridPixel_iff.mpr ⟨⟨hd, hm⟩, ha⟩), portValue_gridPixel hv]
  case noRecord => exact hostRead_of_not_meaningful (mt (meaningful_record_iff hp).mp hf) n
  case noResults => exact hostRead_of_not_meaningful (mt (meaningful_result_iff hp).mp hd) n
  case noDb => exact hostRead_of_not_meaningful (fun h => hd (meaningful_dbByte_iff.mp h).1) n
  case dbBeyond => exact hostRead_of_not_meaningful (fun h => ha.not_gt (meaningful_dbByte_iff.mp h).2) n
  case gridBeyond => exact hostRead_of_not_meaningful (fun h => ha.not_gt (meaningful_gridPixel_iff.mp h).2) n
  all_goals
    have hraster : ¬ (s.phase = .done ∧ s.modeReg = .raster) := by
      rintro ⟨hd, hm⟩
      simp [hd, hm] at h
  case noHeight => exact hostRead_of_not_meaningful (mt meaningful_height_iff.mp hraster) n
  case noGrid => exact hostRead_of_not_meaningful (fun hg => hraster (meaningful_gridPixel_iff.mp hg).1) n

end Sys2Proof.Machine
end

section
/-! SUPPORT. The memories through a step (20_memory.md R60 to R65): the canonical form of every memory, the parameters that no
step writes, and the window the host presents. -/

namespace Sys2Proof.Machine

variable {s t : State}

/-! ### The canonical form -/

/-- A copied row writes `DB` alone, and in order. -/
theorem RowOutcome.memory_wf (o : RowOutcome s t) (h : Memory.wf s) : Memory.wf t := by
  obtain ⟨win, palIn, db, pxs, grid, palOut⟩ := h
  cases o with
  | raw _ _ | dup _ _ _ => exact ⟨win, palIn, bufPutAll_sorted db _, pxs, grid, palOut⟩
  | fault _ _ => exact ⟨win, palIn, db, pxs, grid, palOut⟩

theorem memory_wf_rowStart (h : Memory.wf s) : Memory.wf (rowStart s) := by
  simpa [Memory.wf] using h

theorem Moved.memory_wf (m : Moved s t) (h : Memory.wf s) : Memory.wf t := by
  have hrow := memory_wf_rowStart h
  obtain ⟨win, palIn, db, pxs, grid, palOut⟩ := h
  cases m with
  | row _ _ _ _ _ o => exact o.memory_wf hrow
  | finRaster _ _ _ => exact ⟨win, palIn, db, .nil, grid, palOut⟩
  | p2c _ _ => exact ⟨win, palIn, db, bufPutAll_sorted pxs _, grid, palOut⟩
  | layout _ _ _ _ _ => exact ⟨win, palIn, db, pxs, .nil, palOut⟩
  | place _ _ _ => exact ⟨win, palIn, db, pxs, bufPutAll_sorted grid _, palOut⟩
  | rest _ | fault _ _ _ | finRaw _ _ _ | afin _ _ => exact ⟨win, palIn, db, pxs, grid, palOut⟩

theorem Commanded.memory_wf (c : Commanded s t) (h : Memory.wf s) : Memory.wf t := by
  obtain ⟨win, palIn, db, pxs, grid, palOut⟩ := h
  cases c with
  | started _ _ _ _ _ _ | reset => exact ⟨win, palIn, .nil, .nil, .nil, palOut⟩
  | palx _ _ => exact ⟨win, palIn, db, pxs, grid, bufPutAll_sorted palOut _⟩
  | ignored _ | fault _ _ _ => exact ⟨win, palIn, db, pxs, grid, palOut⟩

/-- Settles O43: a step empties a memory, puts elements in their places, or leaves it. -/
theorem memoryCanonicalKept : Obligations.MemoryCanonicalKept := by
  intro s t h hstep
  rcases step_next hstep with ⟨_, m⟩ | ⟨_, cs, _, c⟩
  · exact m.memory_wf h
  · exact Commanded.memory_wf (s := setPending cs s) c h

/-! ### The parameters -/

/-- `t` has the window, the marker and the palette bytes of `s`. -/
def SameParameters (s t : State) : Prop := t.win = s.win ∧ t.magic = s.magic ∧ t.palIn = s.palIn

theorem RowOutcome.sameParameters (o : RowOutcome s t) : SameParameters s t := by
  cases o <;> exact ⟨rfl, rfl, rfl⟩

theorem Moved.sameParameters (m : Moved s t) : SameParameters s t := by
  cases m with
  | row _ _ _ _ _ o => simpa [SameParameters] using o.sameParameters
  | rest | fault | finRaw | finRaster | p2c | layout | place | afin => exact ⟨rfl, rfl, rfl⟩

theorem Commanded.sameParameters (c : Commanded s t) : SameParameters s t := by
  cases c <;> exact ⟨rfl, rfl, rfl⟩

theorem presentWindow_of_busy (hb : busy s = true) (bytes : List Byte) :
    presentWindow bytes s = .refused .hostDuty := if_pos hb

theorem presentWindow_of_rest (hb : busy s = false) (bytes : List Byte) :
    presentWindow bytes s = .next { s with win := regionOf bytes } := if_neg (by simp [hb])

/-- Settles O42: no move and no command writes a parameter, and the host's move is refused while busy. -/
theorem windowNeverWritten : Obligations.WindowNeverWritten := by
  refine ⟨fun s t hstep => ?_, fun s bytes hb => presentWindow_of_busy hb bytes⟩
  rcases step_next hstep with ⟨_, m⟩ | ⟨_, cs, _, c⟩
  · exact m.sameParameters
  · exact Commanded.sameParameters (s := setPending cs s) c

@[simp] theorem regionOf_size (bytes : List Byte) : (regionOf bytes).size = bytes.length :=
  regionPutAll_size _ _ _

/-- Settles O59: the window presented is the region of the bytes, and no other field changes. -/
theorem windowPresentedAtRest : Obligations.WindowPresentedAtRest := fun _ bytes hb =>
  ⟨_, presentWindow_of_rest hb bytes, regionOf_size bytes, regionOf_canonical bytes, regionByte_regionOf bytes, rfl⟩

end Sys2Proof.Machine
end

section
/-! SUPPORT. The encodings a window holds or misses (20_memory.md R67, R71): the header's fields, and the fault of each
encoding access of the row-decode step. -/

namespace Sys2Proof.Machine

variable {s : State}

/-- Settles O4: each field is `le16` of its two bytes. -/
theorem headerFieldsLittleEndian : Obligations.HeaderFieldsLittleEndian :=
  fun _ _ _ _ _ _ _ _ => ⟨_, rfl, le16_toNat _ _, le16_toNat _ _, le16_toNat _ _, le16_toNat _ _⟩

/-- A bit of a byte, as the spec's formulas write it: shifted down and masked. -/
theorem toNat_getLsbD (b : Byte) (i : Nat) : (b.getLsbD i).toNat = (b.toNat >>> i) &&& 1 := by
  rw [BitVec.getLsbD, Nat.toNat_testBit, Nat.and_one_is_mod, Nat.shiftRight_eq_div_pow]

@[simp] theorem bitIdx_rowStart (s : State) : bitIdx (rowStart s) = bitIdx s := by simp [bitIdx]

theorem controlBit_eq_true_iff (s : State) :
    controlBit s = true ↔ (s.ctrl.toNat >>> bitIdx s) &&& 1 = 1 := by
  rw [controlBit, ← toNat_getLsbD, Bool.toNat_eq_one]

theorem internalStep_of_row (hp : s.phase = .decode) (hr : s.rowIdx < rows s) : internalStep s = rowDecode s := by
  simp [internalStep, hp, hr]

/-! ### The two forms of the row-decode step -/

theorem rowDecode_inside_tile (hb : bitIdx s ≠ 0) : rowDecode s = rowOperation s := if_neg hb

theorem rowDecode_at_tile_start (hp : s.phase = .decode) (hr : s.rowIdx < rows s) (hb : bitIdx s = 0)
    (hw : s.bsCur < s.win.size) : rowDecode s = precise s (rowOperation (rowStart s)) := by
  rw [rowDecode, if_pos hb, controlFetch_eq_rowStart hp hr hb hw]
  simp [hp]

theorem rowDecode_without_control (hb : bitIdx s = 0) (hw : s.win.size ≤ s.bsCur) :
    rowDecode s = .next (raiseFault ⟨.boundsCtrl, s.bsCur⟩ s) := by
  rcases controlFetch_cases s with ⟨hw', _⟩ | ⟨_, e⟩
  · omega
  · rw [rowDecode, if_pos hb, e]
    rfl

/-- A fault of the row operation is the fault of the step, and undoes the control-byte fetch (41 R149). -/
theorem rowDecode_of_rowOperation_fault {e : Raise} (hp : s.phase = .decode) (hr : s.rowIdx < rows s)
    (hw : bitIdx s = 0 → s.bsCur < s.win.size)
    (h : rowOperation (rowStart s) = .next (raiseFault e (rowStart s))) : rowDecode s = .next (raiseFault e s) := by
  by_cases hb : bitIdx s = 0
  · rw [rowDecode_at_tile_start hp hr hb (hw hb), h]
    rfl
  · have hstart : rowStart s = s := if_neg hb
    rw [rowDecode_inside_tile hb, ← hstart, h, hstart]

/-! ### Missing index bytes -/

theorem rowOperation_without_index (hc : controlBit s = true) (hw : s.win.size ≤ s.dupCur) :
    rowOperation s = .next (raiseFault ⟨.boundsIndex, s.dupCur⟩ s) := by
  rw [rowOperation, runDecoded, hc, windowBytes_of_le s _ _ hw]
  rfl

theorem rowOperation_without_second_index (hc : controlBit s = true) (hw : s.win.size = s.dupCur + 1)
    (hb : 0xF0 ≤ (inByte s s.dupCur).toNat) :
    rowOperation s = .next (raiseFault ⟨.boundsIndex2, s.dupCur + 1⟩ s) := by
  rw [rowOperation, runDecoded, hc, windowBytes_succ s _ _ (by omega), windowBytes_of_le s _ _ hw.le, decode,
    decodeIndex_cut hb]
  rfl

/-- Settles O11: the missing access faults where it is made, and the step leaves nothing but the fault. -/
theorem missingEncodingFaults : Obligations.MissingEncodingFaults := by
  intro s hpend hp hr
  rw [step_of_pending_nil hpend, internalStep_of_row hp hr]
  refine ⟨fun hb hw => rowDecode_without_control hb (by omega), fun c hc hbit => ?_⟩
  have hctrl : bitIdx s = 0 → s.bsCur < s.win.size := fun hb => ((if_pos hb).mp hc).1
  have hlatch : (rowStart s).ctrl = c := by
    rw [rowStart_ctrl, bitIdx]
    by_cases hb : s.rowIdx % 8 = 0
    · rw [if_pos hb] at hc ⊢
      exact hc.2.symm
    · rw [if_neg hb] at hc ⊢
      exact hc.symm
  have hbit' : controlBit (rowStart s) = true := by
    rw [controlBit_eq_true_iff, hlatch, bitIdx_rowStart]
    exact hbit
  constructor
  · intro hw
    have hw' : (rowStart s).win.size ≤ (rowStart s).dupCur := by simpa using Nat.le_of_lt_succ hw
    exact rowDecode_of_rowOperation_fault hp hr hctrl (by rw [rowOperation_without_index hbit' hw', rowStart_dupCur])
  · intro hw hb
    exact rowDecode_of_rowOperation_fault hp hr hctrl (by
      rw [rowOperation_without_second_index hbit' (by simp [hw]) (by simpa using hb), rowStart_dupCur])

end Sys2Proof.Machine
end

section
/-! SUPPORT. Where the grid holds a tile's pixel (43_tile_raster_assembler.md R193, R194), for a width of `TILES_PER_ROW` whole
tiles: the address gives back tile and pixel, and lies in the grid. -/

namespace Sys2Proof.Machine

variable {n t x y t' x' y' : Nat}

/-- The column of a tile's pixel is inside the width. -/
theorem gridColumn_lt (hn : 0 < n) (hx : x < 8) : 8 * (t % n) + x < 8 * n := by
  have := Nat.mod_lt t hn
  omega

theorem gridAddress_div (hn : 0 < n) (hx : x < 8) : gridAddress (8 * n) n t x y / (8 * n) = 8 * (t / n) + y := by
  rw [gridAddress, Nat.add_comm, Nat.add_mul_div_right _ _ (by omega), Nat.div_eq_of_lt (gridColumn_lt hn hx),
    Nat.zero_add]

theorem gridAddress_mod (hn : 0 < n) (hx : x < 8) : gridAddress (8 * n) n t x y % (8 * n) = 8 * (t % n) + x := by
  rw [gridAddress, Nat.add_comm, Nat.add_mul_mod_self_right, Nat.mod_eq_of_lt (gridColumn_lt hn hx)]

theorem gridAddress_injective (hn : 0 < n) (hx : x < 8) (hy : y < 8) (hx' : x' < 8) (hy' : y' < 8)
    (h : gridAddress (8 * n) n t x y = gridAddress (8 * n) n t' x' y') : t = t' ∧ x = x' ∧ y = y' := by
  have hrow : 8 * (t / n) + y = 8 * (t' / n) + y' := by rw [← gridAddress_div hn hx, h, gridAddress_div hn hx']
  have hcol : 8 * (t % n) + x = 8 * (t' % n) + x' := by rw [← gridAddress_mod hn hx, h, gridAddress_mod hn hx']
  have hdiv : t / n = t' / n := by omega
  have hmod : t % n = t' % n := by omega
  exact ⟨by rw [← Nat.div_add_mod t n, hdiv, hmod, Nat.div_add_mod], by omega, by omega⟩

/-- `m` tiles that fill whole rows of tiles have every pixel inside the grid. -/
theorem gridAddress_lt {m : Nat} (hn : 0 < n) (hm : m % n = 0) (ht : t < m) (hx : x < 8) (hy : y < 8) :
    gridAddress (8 * n) n t x y < 8 * n * (m / n * 8) := by
  have htile : t / n < m / n := Nat.div_lt_div_of_lt_of_dvd (Nat.dvd_of_mod_eq_zero hm) ht
  have hrow : gridAddress (8 * n) n t x y / (8 * n) < m / n * 8 := by
    rw [gridAddress_div hn hx]
    omega
  rw [Nat.mul_comm (8 * n)]
  exact (Nat.div_lt_iff_lt_mul (by omega)).mp hrow

end Sys2Proof.Machine
end

section
/-! SUPPORT. The output memories through a run (20_memory.md R62, R63, 42 R181, R183, 43 R193, R194): one law for each stage's
store, and each invariant of Safety through the moves of its stage. -/

namespace Sys2Proof.Machine

variable {s t : State}

/-! ### What a store leaves written -/

/-- The addresses written after a store are those stored to and those written before. -/
theorem isSome_cellGet_bufPutAll {α : Type} (b : Buffer α) (ws : List (Nat × α)) (a : Nat) :
    (cellGet (bufPutAll b ws).cells a).isSome ↔ (∃ p ∈ ws, p.1 = a) ∨ (cellGet b.cells a).isSome := by
  induction ws generalizing b with
  | nil => simp
  | cons p ws ih =>
    rw [bufPutAll_cons, ih, cellGet_cellPut]
    by_cases h : a = p.1
    · simp [h]
    · simp [h, Ne.symm h]

theorem exists_mem_rowCells_iff (r : Nat) (row : Row) (a : Nat) :
    (∃ p ∈ rowCells r row, p.1 = a) ↔ 4 * r ≤ a ∧ a < 4 * r + 4 := by
  simp [rowCells]
  omega

theorem exists_mem_pixelCells_iff (r : Nat) (row : Row) (a : Nat) :
    (∃ p ∈ pixelCells r row, p.1 = a) ↔ 8 * r ≤ a ∧ a < 8 * r + 8 := by
  constructor
  · rintro ⟨p, hp, rfl⟩
    exact pixelCells_address hp
  · rintro ⟨hle, hlt⟩
    exact ⟨_, mem_pixelCells r row (p := a - 8 * r) (by omega), by simp; omega⟩

/-! ### The decompressor writes `DB` row by row -/

theorem DbWritten.row_stored (h : DbWritten s) (row : Row) : DbWritten (storeRow row s) := by
  intro a
  rw [storeRow_db, isSome_cellGet_bufPutAll, exists_mem_rowCells_iff, h a, storeRow_rowIdx]
  omega

theorem DbWritten.row (h : DbWritten s) (o : RowOutcome (rowStart s) t) (hp : t.phase = .decode) : DbWritten t := by
  have hstart : DbWritten (rowStart s) := by simpa [DbWritten] using h
  cases o with
  | raw _ _ => exact DbWritten.row_stored (s := countRaw (rowStart s)) hstart _
  | dup _ _ _ => exact DbWritten.row_stored (s := countDup _ (rowStart s)) hstart _
  | fault _ _ => cases hp

theorem dbWritten_loadHeader (h : Header) (s : State) : DbWritten (loadHeader h s) := by
  intro a
  simp

/-! ### The converter writes `PXS` row by row -/

theorem toNat_planeBit (b : Byte) (p : Nat) : (planeBit b p).toNat = refBit b p := by
  rw [planeBit, BitVec.toNat_ofBool, toNat_getLsbD, refBit]

/-- A pixel of a row is the formula of R181 on the row's four bytes. -/
theorem toNat_rowPixel (row : Row) (p : Nat) :
    (rowPixel row p).toNat =
      refBit row.plane3 p <<< 3 ||| refBit row.plane2 p <<< 2 ||| refBit row.plane1 p <<< 1 ||| refBit row.plane0 p := by
  simp only [rowPixel, BitVec.toNat_append, toNat_planeBit, Nat.shiftLeft_or_distrib, ← Nat.shiftLeft_add]

/-- The row of `DB` that the next P2C step converts. -/
def dbRow (s : State) : Row :=
  ⟨dbByte s (4 * s.p2cIdx), dbByte s (4 * s.p2cIdx + 1), dbByte s (4 * s.p2cIdx + 2), dbByte s (4 * s.p2cIdx + 3)⟩

theorem toNat_rowPixel_dbRow (s : State) {p : Nat} (hp : p < 8) :
    (rowPixel (dbRow s) p).toNat = convertAt (dbByte s) (8 * s.p2cIdx + p) := by
  have hdiv : (8 * s.p2cIdx + p) / 8 = s.p2cIdx := by omega
  have hmod : (8 * s.p2cIdx + p) % 8 = p := by omega
  rw [toNat_rowPixel, convertAt, hdiv, hmod]
  rfl

theorem pxsPixel_storePixels_new (row : Row) (s : State) {p : Nat} (hp : p < 8) :
    pxsPixel (storePixels (pixelCells s.p2cIdx row) s) (8 * s.p2cIdx + p) = rowPixel row p := by
  rw [pxsPixel, storePixels_pxs, cellGet_bufPutAll_mem _ _ (pixelCells_nodup _ _) (mem_pixelCells _ _ hp),
    Option.getD_some]

theorem pxsPixel_storePixels_old (row : Row) (s : State) {j : Nat} (hj : j < 8 * s.p2cIdx) :
    pxsPixel (storePixels (pixelCells s.p2cIdx row) s) j = pxsPixel s j := by
  rw [pxsPixel, storePixels_pxs, cellGet_bufPutAll_other, pxsPixel]
  intro q hq
  have := pixelCells_address hq
  omega

theorem pxsWritten_beginConvert (s : State) : PxsWritten (beginConvert s) :=
  ⟨fun j => by simp, fun j hj => by simp at hj⟩

theorem PxsWritten.row_converted (h : PxsWritten s) :
    PxsWritten (storePixels (pixelCells s.p2cIdx (dbRow s)) s) := by
  obtain ⟨written, formula⟩ := h
  refine ⟨fun j => ?_, fun j hj => ?_⟩
  · rw [storePixels_pxs, isSome_cellGet_bufPutAll, exists_mem_pixelCells_iff, written j, storePixels_p2cIdx]
    omega
  · rw [storePixels_p2cIdx] at hj
    have hdb : dbByte (storePixels (pixelCells s.p2cIdx (dbRow s)) s) = dbByte s := rfl
    rw [hdb]
    by_cases hold : j < 8 * s.p2cIdx
    · rw [pxsPixel_storePixels_old _ _ hold, formula j hold]
    · obtain ⟨p, rfl⟩ := Nat.exists_eq_add_of_le (Nat.not_lt.mp hold)
      have hp : p < 8 := by omega
      rw [pxsPixel_storePixels_new _ _ hp, toNat_rowPixel_dbRow s hp]

/-! ### The assembler writes `GRID` tile by tile -/

/-- The layout of an assembling run is `TILES_PER_ROW` whole tiles wide, at least one. -/
theorem Assembling.width_eq (h : Assembling s) : 0 < s.tilesPerRow ∧ s.widthReg = 8 * s.tilesPerRow := by
  have := h.width_pos
  have := h.width_mod
  have := h.tilesPerRow_eq
  omega

/-- Where pixel `(x, y)` of tile `t` stands in the grid of this state. -/
theorem mem_tileCells (s : State) (t : Nat) {x y : Nat} (hx : x < 8) (hy : y < 8) :
    (gridAddress s.widthReg s.tilesPerRow t x y, pxsPixel s (64 * t + 8 * y + x)) ∈ tileCells s t := by
  have hmod : (8 * y + x) % 8 = x := by omega
  have hdiv : (8 * y + x) / 8 = y := by omega
  refine List.mem_map.mpr ⟨8 * y + x, List.mem_range.mpr (by omega), ?_⟩
  rw [hmod, hdiv, Nat.add_assoc]

/-- Every place a tile is stored to is that of one of its pixels. -/
theorem exists_of_mem_tileCells {t : Nat} {q : Nat × Pixel} (h : q ∈ tileCells s t) :
    ∃ x y, x < 8 ∧ y < 8 ∧ q.1 = gridAddress s.widthReg s.tilesPerRow t x y := by
  obtain ⟨j, hj, rfl⟩ := List.mem_map.mp h
  have := List.mem_range.mp hj
  exact ⟨j % 8, j / 8, by omega, by omega, rfl⟩

theorem Assembling.tileCells_nodup (h : Assembling s) (t : Nat) : ((tileCells s t).map Prod.fst).Nodup := by
  obtain ⟨hn, hw⟩ := h.width_eq
  rw [tileCells, List.map_map]
  refine List.nodup_range.map_on fun j hj k hk e => ?_
  have := List.mem_range.mp hj
  have := List.mem_range.mp hk
  simp only [Function.comp_apply, hw] at e
  obtain ⟨_, hx, hy⟩ := gridAddress_injective hn (by omega) (by omega) (by omega) (by omega) e
  omega

/-- No other tile has a pixel where this one has. -/
theorem Assembling.gridAddress_ne_of_mem_tileCells (h : Assembling s) {t t' x y : Nat} (ht : t' ≠ t) (hx : x < 8)
    (hy : y < 8) {q : Nat × Pixel} (hq : q ∈ tileCells s t) : q.1 ≠ gridAddress s.widthReg s.tilesPerRow t' x y := by
  obtain ⟨hn, hw⟩ := h.width_eq
  obtain ⟨x', y', hx', hy', e⟩ := exists_of_mem_tileCells hq
  rw [e, hw]
  exact fun e' => ht (gridAddress_injective hn hx' hy' hx hy e').1.symm

theorem Assembling.gridAddress_lt_size (h : Assembling s) {t x y : Nat} (ht : t < tileCount s) (hx : x < 8)
    (hy : y < 8) : gridAddress s.widthReg s.tilesPerRow t x y < s.grid.size := by
  obtain ⟨hn, hw⟩ := h.width_eq
  rw [h.gridSize, h.height_eq, hw]
  exact gridAddress_lt hn h.divides ht hx hy

theorem gridWritten_beginAssemble (n h : Nat) (s : State) : GridWritten (beginAssemble n h s) :=
  ⟨fun t x y ht => by simp at ht, fun a ha => by simp at ha⟩

theorem GridWritten.tile_placed (h : GridWritten s) (ha : Assembling s) (more : s.placeIdx < tileCount s) :
    GridWritten (storeTile (tileCells s s.placeIdx) s) := by
  obtain ⟨placed, inside⟩ := h
  refine ⟨fun t x y ht hx hy => ?_, fun a hsome => ?_⟩
  · rw [storeTile_placeIdx] at ht
    rw [storeTile_grid]
    by_cases hnew : t = s.placeIdx
    · rw [hnew]
      exact cellGet_bufPutAll_mem _ _ (ha.tileCells_nodup _) (mem_tileCells s _ hx hy)
    · rw [cellGet_bufPutAll_other]
      · exact placed t x y (by omega) hx hy
      · exact fun q hq => ha.gridAddress_ne_of_mem_tileCells hnew hx hy hq
  · rw [storeTile_grid, isSome_cellGet_bufPutAll] at hsome
    rw [storeTile_grid, bufPutAll_size, storeTile_placeIdx]
    rcases hsome with ⟨q, hq, rfl⟩ | hold
    · obtain ⟨x, y, hx, hy, e⟩ := exists_of_mem_tileCells hq
      exact ⟨e ▸ ha.gridAddress_lt_size more hx hy, s.placeIdx, x, y, by omega, hx, hy, e⟩
    · obtain ⟨hlt, t, x, y, ht, hxya⟩ := inside a hold
      exact ⟨hlt, t, x, y, by omega, hxya⟩

/-! ### The invariant through every step -/

theorem outputInv_iff_of_decode (hp : s.phase = .decode) : OutputInv s ↔ DbWritten s := by rw [OutputInv, hp]

theorem outputInv_iff_of_convert (hp : s.phase = .convert) : OutputInv s ↔ DbWritten s ∧ PxsWritten s := by
  rw [OutputInv, hp]

theorem outputInv_iff_of_assemble (hp : s.phase = .assemble) :
    OutputInv s ↔ DbWritten s ∧ PxsWritten s ∧ GridWritten s := by rw [OutputInv, hp]

theorem OutputInv.moved (h : OutputInv s) (hr : RunInv s) (m : Moved s t) : OutputInv t := by
  cases m with
  | rest _ => exact h
  | fault _ _ _ => trivial
  | row hp _ _ _ hp' o => exact (outputInv_iff_of_decode hp').mpr (((outputInv_iff_of_decode hp).mp h).row o hp')
  | finRaw hp _ mode => exact ⟨(outputInv_iff_of_decode hp).mp h, fun e => nomatch mode.symm.trans e⟩
  | finRaster hp _ _ => exact ⟨(outputInv_iff_of_decode hp).mp h, pxsWritten_beginConvert _⟩
  | p2c hp _ =>
    obtain ⟨hdb, hpxs⟩ := (outputInv_iff_of_convert hp).mp h
    exact (outputInv_iff_of_convert (s := storePixels _ s) hp).mpr ⟨hdb, hpxs.row_converted⟩
  | layout hp _ _ _ _ =>
    obtain ⟨hdb, hpxs⟩ := (outputInv_iff_of_convert hp).mp h
    exact ⟨hdb, hpxs, gridWritten_beginAssemble _ _ s⟩
  | place hp more _ =>
    obtain ⟨hdb, hpxs, hgrid⟩ := (outputInv_iff_of_assemble hp).mp h
    exact (outputInv_iff_of_assemble (s := storeTile _ s) hp).mpr
      ⟨hdb, hpxs, hgrid.tile_placed ((runInv_iff_of_assemble hp).mp hr) more⟩
  | afin hp _ =>
    obtain ⟨hdb, hpxs, hgrid⟩ := (outputInv_iff_of_assemble hp).mp h
    exact ⟨hdb, fun _ => ⟨hpxs, hgrid⟩⟩

theorem OutputInv.commanded (h : OutputInv s) (c : Commanded s t) : OutputInv t := by
  cases c with
  | ignored _ | palx _ _ => exact h
  | started _ _ _ _ _ _ => exact dbWritten_loadHeader _ _
  | fault _ _ _ | reset => trivial

/-- Settles O45: each stage's store extends what its memory holds by one row or tile, and the next stage starts empty. -/
theorem outputInvKept : Obligations.OutputInvKept := by
  intro s t hr h hstep
  rcases step_next hstep with ⟨_, m⟩ | ⟨_, cs, _, c⟩
  · exact h.moved hr m
  · exact OutputInv.commanded (s := setPending cs s) h c

end Sys2Proof.Machine
end

section
/-! SUPPORT. Decoder and encoder as inverses (30_encoding.md R91 to R98, R101, R103): each multi-byte field and its bytes,
then each format's decoder on the bytes the encoder writes, and what an accepted list of bytes must have been. -/

namespace Sys2Proof.Machine

/-! ### A field and its bytes -/

@[simp] theorem le16_of_halves (h : Half) : le16 (h.extractLsb' 0 8) (h.extractLsb' 8 8) = h :=
  BitVec.extractLsb'_append_extractLsb' (w := 8) (len := 8)

@[simp] theorem halfBytes_le16 (b0 b1 : Byte) : halfBytes (le16 b0 b1) = [b0, b1] := by
  rw [halfBytes, le16, BitVec.extractLsb'_append_eq_left, BitVec.extractLsb'_append_eq_right]

/-- The marker in the first byte of the two-byte form is not part of the index (R95). -/
theorem index12_of_parts (x : BitVec 12) : index12 (0xF#4 ++ x.extractLsb' 8 4) (x.extractLsb' 0 8) = x := by
  rw [index12, BitVec.setWidth_append_eq_right]
  exact BitVec.extractLsb'_append_extractLsb' (w := 4) (len := 8)

theorem F0_le_marked (high : BitVec 4) : 0xF0 ≤ (0xF#4 ++ high).toNat := by
  rw [BitVec.toNat_append]
  exact Nat.left_le_or

/-- A byte from `0xF0` on is the marker followed by its low four bits. -/
theorem marked_setWidth_of_F0_le {b : Byte} (h : 0xF0 ≤ b.toNat) : 0xF#4 ++ b.setWidth 4 = b := by
  have hb := b.isLt
  have hlow : b.toNat % 2 ^ 4 < 2 ^ 4 := Nat.mod_lt _ (by decide)
  apply BitVec.eq_of_toNat_eq
  rw [BitVec.toNat_append, BitVec.toNat_setWidth, ← Nat.shiftLeft_add_eq_or_of_lt hlow]
  change 0xF0 + _ = _
  omega

/-- What the encoder writes for an assembled index is the two bytes it was assembled from. -/
theorem encode_dup2_index12 {b0 : Byte} (h : 0xF0 ≤ b0.toNat) (b1 : Byte) :
    encode (.dup2 (index12 b0 b1)) = some (.row true, [b0, b1]) := by
  rw [encode, index12, BitVec.extractLsb'_append_eq_left, BitVec.extractLsb'_append_eq_right,
    marked_setWidth_of_F0_le h]

theorem wellFormed_dup1_iff (index : Byte) : (Instr.dup1 index).wellFormed = true ↔ index.toNat < 0xF0 := by
  rw [Instr.wellFormed, decide_eq_true_iff, lt_F0_iff]

/-! ### Formats of more than one shape or field -/

/-- Format `H` as the encoder writes it (R91). -/
def headerBytes (h : Header) : List Byte :=
  halfBytes h.magic ++ halfBytes h.dupOff ++ halfBytes h.artOff ++ halfBytes h.rowCount

theorem encode_hdr (h : Header) : encode (.hdr h) = some (.header, headerBytes h) := rfl

theorem decodeHeader_headerBytes (h : Header) (rest : List Byte) :
    decodeHeader (headerBytes h ++ rest) = .ok (h, rest) := by
  simp [headerBytes, halfBytes, decodeHeader]

/-- A header is decoded from its eight bytes and no others. -/
theorem eq_headerBytes_append_of_decodeHeader {bs rest : List Byte} {h : Header}
    (hdec : decodeHeader bs = .ok (h, rest)) : bs = headerBytes h ++ rest := by
  unfold decodeHeader at hdec
  split at hdec
  · cases hdec
    simp [headerBytes]
  · cases hdec

/-- What index bytes the decoder accepts: one below `0xF0`, or one from `0xF0` on and the next (R93, R94). -/
theorem decodeIndex_ok_cases {bs rest : List Byte} {i : Instr} (h : decodeIndex bs = .ok (i, rest)) :
    (∃ b0 : Byte, b0.toNat < 0xF0 ∧ i = .dup1 b0 ∧ bs = b0 :: rest) ∨
    (∃ b0 b1 : Byte, 0xF0 ≤ b0.toNat ∧ i = .dup2 (index12 b0 b1) ∧ bs = b0 :: b1 :: rest) := by
  match bs with
  | [] => cases h
  | b0 :: bs =>
    by_cases hb : b0.toNat < 0xF0
    · rw [decodeIndex_one hb] at h
      cases h
      exact .inl ⟨b0, hb, rfl, rfl⟩
    · have hb' := Nat.not_lt.mp hb
      match bs with
      | [] =>
        rw [decodeIndex_cut hb'] at h
        cases h
      | b1 :: bs =>
        rw [decodeIndex_two hb'] at h
        cases h
        exact .inr ⟨b0, b1, hb', rfl, rfl⟩

/-! ### The obligations -/

/-- Settles O1: each field comes back from its bytes, and the first index byte tells the two index forms apart. -/
theorem decodeUndoesEncode : Obligations.DecodeUndoesEncode := by
  intro i f ws rest hwf henc
  cases i with
  | hdr h =>
    cases henc
    change decode .header (headerBytes h ++ rest) = _
    rw [decode, decodeHeader_headerBytes]
  | dup1 index =>
    cases henc
    exact decodeIndex_one ((wellFormed_dup1_iff index).mp hwf) rest
  | dup2 index =>
    cases henc
    exact (decodeIndex_two (F0_le_marked _) _ rest).trans (by rw [index12_of_parts])
  | ctrl _ | raw | p2c _ | palx _ _ =>
    cases henc
    rfl
  | start _ _ | reset | fin | gridchk | place | afin => cases henc

/-- Settles O2: each format's decoder takes off its own bytes and keeps every bit of them. -/
theorem encodeUndoesDecode : Obligations.EncodeUndoesDecode := by
  intro f bs i rest hdec
  match f with
  | .header =>
    cases hh : decodeHeader bs with
    | error r =>
      rw [decode, hh] at hdec
      cases hdec
    | ok p =>
      rw [decode, hh] at hdec
      cases hdec
      exact ⟨rfl, headerBytes p.1, encode_hdr p.1, eq_headerBytes_append_of_decodeHeader hh⟩
  | .control =>
    match bs with
    | [] => cases hdec
    | c :: _ =>
      cases hdec
      exact ⟨rfl, [c], rfl, rfl⟩
  | .row false =>
    cases hdec
    exact ⟨rfl, [], rfl, rfl⟩
  | .row true =>
    rcases decodeIndex_ok_cases hdec with ⟨b0, hb, rfl, rfl⟩ | ⟨b0, b1, hb, rfl, rfl⟩
    · exact ⟨(wellFormed_dup1_iff b0).mpr hb, [b0], rfl, rfl⟩
    · exact ⟨rfl, [b0, b1], encode_dup2_index12 hb b1, rfl⟩
  | .planar =>
    match bs with
    | [] | [_] | [_, _] | [_, _, _] => cases hdec
    | p :: q :: r :: t :: _ =>
      cases hdec
      exact ⟨rfl, [p, q, r, t], rfl, rfl⟩
  | .palette k =>
    match bs with
    | [] => cases hdec
    | b :: _ =>
      cases hdec
      exact ⟨rfl, [b], rfl, rfl⟩

/-- Settles O5: one comparison with `0xF0` selects the form, and the marker is masked off the two-byte one. -/
theorem indexAssembly : Obligations.IndexAssembly := by
  refine ⟨fun b0 rest h => decodeIndex_one h rest, fun b0 b1 rest h => ?_, fun s index => ?_⟩
  · exact ⟨index12 b0 b1, decodeIndex_two h b1 rest, index12_toNat b0 b1⟩
  · rw [dupAddress, Nat.mul_comm]

end Sys2Proof.Machine
end

section
/-! SUPPORT. The header step at rest (40_header_and_start.md R120 to R123, R126). START performs HDR on the header of the
window, so each outcome of the header is said once, of `parseHeader`, for both. The spec's example words follow, the
header's among them. -/

namespace Sys2Proof.Machine

variable {s : State} {h : Header} {m : Mode} {w : Nat}

/-! ### The outcomes of the header -/

theorem parseHeader_of_short (hw : s.win.size < 8) : parseHeader h s = .error ⟨.boundsHeader, 0⟩ := by
  rw [parseHeader, checkBounds_of_lt (show s.win.size < 0 + 8 from hw)]

theorem parseHeader_of_wrong_magic (hw : 8 ≤ s.win.size) (hm : h.magic ≠ s.magic) :
    parseHeader h s = .error ⟨.badMagic, 0⟩ := by
  rw [parseHeader_of_le hw, if_pos hm]

theorem parseHeader_of_partial_tile (hw : 8 ≤ s.win.size) (hm : h.magic = s.magic) (hr : h.rowCount.toNat % 8 ≠ 0) :
    parseHeader h s = .error ⟨.partialTile, 6⟩ := by
  rw [parseHeader_of_le hw, if_neg (not_not.mpr hm), if_pos hr]

theorem parseHeader_of_accepted (hw : 8 ≤ s.win.size) (hm : h.magic = s.magic) (hr : h.rowCount.toNat % 8 = 0) :
    parseHeader h s = .ok (loadHeader h s) := by
  rw [parseHeader_of_le hw, if_neg (not_not.mpr hm), if_neg (not_not.mpr hr)]

/-- A window too short to hold a header faults as HDR does, so START's header step is HDR's in every state. -/
theorem headerFromWindow_eq_parseHeader (s : State) : headerFromWindow s = parseHeader (windowHeader s) s := by
  by_cases hw : s.win.size < 8
  · rw [headerFromWindow_of_lt hw, parseHeader_of_short hw]
  · exact headerFromWindow_of_le (Nat.not_lt.mp hw)

@[simp] theorem windowHeader_rowCount_toNat (s : State) :
    (windowHeader s).rowCount.toNat = refHalf (inByte s) 6 := toNat_ofNat_refHalf _ _

@[simp] theorem windowHeader_artOff_toNat (s : State) :
    (windowHeader s).artOff.toNat = refHalf (inByte s) 4 := toNat_ofNat_refHalf _ _

@[simp] theorem windowHeader_dupOff_toNat (s : State) :
    (windowHeader s).dupOff.toNat = refHalf (inByte s) 2 := toNat_ofNat_refHalf _ _

/-! ### START and HDR at rest -/

theorem exec_start_of_rest (hb : busy s = false) : exec (.start m w) s =
    .next (settle s (parseHeader (windowHeader s) (latchInputs m w s))) := by
  change execStart m w s = _
  rw [execStart, if_neg (by simp [hb]), headerFromWindow_eq_parseHeader, windowHeader_latchInputs]

theorem exec_hdr_of_rest (hb : busy s = false) : exec (.hdr h) s = .next (settle s (parseHeader h s)) := by
  change execHdr h s = _
  rw [execHdr, if_neg (by simp [hb])]

/-- START and HDR end in the one fault of a header both parse; START's latched inputs are undone (60 R228, log 20). -/
theorem exec_start_of_fault {e : Raise} (hb : busy s = false)
    (he : parseHeader (windowHeader s) (latchInputs m w s) = .error e) :
    exec (.start m w) s = .next (raiseFault e s) := by
  rw [exec_start_of_rest hb, he, settle]

theorem exec_hdr_of_fault {e : Raise} (hb : busy s = false) (he : parseHeader h s = .error e) :
    exec (.hdr h) s = .next (raiseFault e s) := by
  rw [exec_hdr_of_rest hb, he, settle]

/-! ### A word that stands alone -/

/-- The decoder's law (O1) for a word with no bytes after it. -/
theorem decode_of_encode {i : Instr} {f : Format} {ws : List Byte} (hwf : i.wellFormed = true)
    (henc : encode i = some (f, ws)) : decode f ws = .ok (i, []) := by
  rw [← decodeUndoesEncode i f ws [] hwf henc, List.append_nil]

/-! ### The obligations -/

/-- Settles O12: the window's header is accepted, so the step is the latched inputs and then the loads. -/
theorem startBeginsRun : Obligations.StartBeginsRun := by
  intro s m w hb hw hmagic hrows
  have haccept : parseHeader (windowHeader s) (latchInputs m w s) =
      .ok (loadHeader (windowHeader s) (latchInputs m w s)) :=
    parseHeader_of_accepted hw ((windowHeader_magic_eq_iff s).mpr hmagic) (by simpa using hrows)
  rw [exec_start_of_rest hb, haccept, settle, loadHeader, windowHeader_artOff_toNat, windowHeader_dupOff_toNat,
    windowHeader_rowCount_toNat]
  rfl

/-- Settles O14: of `parseHeader`'s checks, on the window's header for START and on the operand for HDR, the first that
fails gives the fault. -/
theorem headerFaultsInOrder : Obligations.HeaderFaultsInOrder := by
  intro s m w h hb
  refine ⟨fun hw => ⟨?_, ?_⟩, fun hw => ⟨fun hm => ?_, fun hm => ?_, fun hm hr => ?_, fun hm hr => ?_⟩⟩
  · exact exec_start_of_fault hb (parseHeader_of_short hw)
  · exact exec_hdr_of_fault hb (parseHeader_of_short hw)
  · exact exec_start_of_fault hb (parseHeader_of_wrong_magic hw (mt (windowHeader_magic_eq_iff s).mp hm))
  · exact exec_hdr_of_fault hb (parseHeader_of_wrong_magic hw hm)
  · exact exec_start_of_fault hb
      (parseHeader_of_partial_tile hw ((windowHeader_magic_eq_iff s).mpr hm) (by simpa using hr))
  · exact exec_hdr_of_fault hb (parseHeader_of_partial_tile hw hm hr)

/-- Settles O3: each word is the encoding of the operation beside it, and the decoder undoes the encoder. -/
theorem specWordsDecode : Obligations.SpecWordsDecode := by
  refine ⟨?_, ?_, ?_, ?_, ?_, ?_, ?_⟩ <;> exact decode_of_encode rfl rfl

/-- Settles O13: the header is accepted, so the step is the loads. -/
theorem hdrLoadsHeader : Obligations.HdrLoadsHeader := by
  intro s h hb hw hmagic hrows
  rw [exec_hdr_of_rest hb, parseHeader_of_accepted hw hmagic hrows, settle, loadHeader]

/-- Settles O16: a busy phase fails START's one guard. -/
theorem startWhileBusyIgnored : Obligations.StartWhileBusyIgnored := fun _ _ _ hb => if_pos hb

end Sys2Proof.Machine
end

section
/-! SUPPORT. The sequencing invariant through every step (41 R151): the hardware's moves keep it already, so what is left is
the host's commands, and the number of steps a run has left (70 R272). -/

namespace Sys2Proof.Machine

variable {s t : State}

/-- `s` with these commands waiting and this output of the companion unit, which no step of the hardware reads. -/
def setHostFields (cs : List Command) (out : Buffer Rgb) (s : State) : State := { s with pending := cs, palOut := out }

theorem RunInv.hostFields (h : RunInv s) (cs : List Command) (out : Buffer Rgb) : RunInv (setHostFields cs out s) := by
  cases hp : s.phase with
  | idle | fault => rw [RunInv, show (setHostFields cs out s).phase = _ from hp]; trivial
  | decode =>
    have hd := (runInv_iff_of_decode hp).mp h
    exact (runInv_iff_of_decode (s := setHostFields cs out s) hp).mpr { hd with }
  | convert =>
    have hc := (runInv_iff_of_convert hp).mp h
    exact (runInv_iff_of_convert (s := setHostFields cs out s) hp).mpr { hc with }
  | assemble =>
    have ha := (runInv_iff_of_assemble hp).mp h
    exact (runInv_iff_of_assemble (s := setHostFields cs out s) hp).mpr { ha with }
  | done =>
    have hd := (runInv_iff_of_done hp).mp h
    exact (runInv_iff_of_done (s := setHostFields cs out s) hp).mpr
      { hd with raster := fun hm => ⟨{ (hd.raster hm).1 with }, (hd.raster hm).2⟩ }

theorem RunInv.commanded (h : RunInv s) (c : Commanded s t) : RunInv t := by
  cases c with
  | ignored _ => exact h
  | started m w _ _ _ whole => exact decodeCounters_loadHeader whole _
  | fault _ _ _ | reset => trivial
  | palx _ _ => exact h.hostFields s.pending _

/-- Settles O44: every move of the hardware keeps the invariant, START begins it anew, and no other command touches it. -/
theorem runInvKept : Obligations.RunInvKept := by
  intro s t h hstep
  rcases step_next hstep with ⟨_, m⟩ | ⟨_, cs, _, c⟩
  · exact h.moved m
  · exact (h.hostFields cs s.palOut).commanded c

/-! ### What is left of a run -/

theorem stepsLeft_of_decode_rawOnly (hp : s.phase = .decode) (hm : s.modeReg = .rawOnly) :
    stepsLeft s = (rows s - s.rowIdx) + 1 := by rw [stepsLeft, hp, hm]

theorem stepsLeft_of_decode_raster (hp : s.phase = .decode) (hm : s.modeReg = .raster) :
    stepsLeft s = (rows s - s.rowIdx) + (rows s + tileCount s + 3) := by rw [stepsLeft, hp, hm]

theorem stepsLeft_of_convert (hp : s.phase = .convert) :
    stepsLeft s = (rows s - s.p2cIdx) + (tileCount s + 2) := by rw [stepsLeft, hp]

theorem stepsLeft_of_assemble (hp : s.phase = .assemble) : stepsLeft s = (tileCount s - s.placeIdx) + 1 := by
  rw [stepsLeft, hp]

/-- A copied row moves the row counter by one and no register that tells how long the run is. -/
theorem RowOutcome.counter_eq (o : RowOutcome s t) (hp : t.phase ≠ .fault) :
    t.rowIdx = s.rowIdx + 1 ∧ rows t = rows s ∧ t.modeReg = s.modeReg := by
  cases o with
  | raw _ _ | dup _ _ _ => exact ⟨rfl, rfl, rfl⟩
  | fault _ _ => exact absurd rfl hp

theorem Moved.stepsLeft_succ (m : Moved s t) (hb : busy s = true) (ht : t.phase ≠ .fault) :
    stepsLeft t + 1 = stepsLeft s := by
  cases m with
  | rest hrest => cases hb.symm.trans hrest
  | fault _ _ _ => exact absurd rfl ht
  | row hp more _ _ hp' o =>
    obtain ⟨hrow, hrows, hmode⟩ := o.counter_eq ht
    rw [rowStart_rowIdx] at hrow
    rw [rows_rowStart] at hrows
    rw [rowStart_modeReg] at hmode
    cases hm : s.modeReg with
    | rawOnly =>
      rw [stepsLeft_of_decode_rawOnly hp hm, stepsLeft_of_decode_rawOnly hp' (hmode.trans hm)]
      omega
    | raster =>
      rw [stepsLeft_of_decode_raster hp hm, stepsLeft_of_decode_raster hp' (hmode.trans hm), tileCount, tileCount]
      omega
  | finRaw hp last mode =>
    rw [stepsLeft_of_decode_rawOnly hp mode, last, Nat.sub_self]
    rfl
  | finRaster hp last mode =>
    rw [stepsLeft_of_decode_raster hp mode, stepsLeft_of_convert rfl]
    simp [last]
    omega
  | p2c hp more =>
    rw [stepsLeft_of_convert hp, stepsLeft_of_convert (s := storePixels _ s) hp]
    simp
    omega
  | layout hp last _ _ _ =>
    rw [stepsLeft_of_convert hp, stepsLeft_of_assemble rfl]
    simp [last]
  | place hp more _ =>
    rw [stepsLeft_of_assemble hp, stepsLeft_of_assemble (s := storeTile _ s) hp]
    simp
    omega
  | afin hp last =>
    rw [stepsLeft_of_assemble hp, last, Nat.sub_self]
    rfl

/-- Settles O50: each move takes one from the counter of its phase or enters the next phase with its count full. -/
theorem stepsCountDown : Obligations.StepsCountDown := by
  refine ⟨fun s t _ hpend hb hstep ht => ?hardware, fun s t m w hb hstart ht => ?start⟩
  case hardware => exact (internalStep_next ((step_of_pending_nil hpend).symm.trans hstep)).stepsLeft_succ hb ht
  case start =>
    rcases execStart_next hstart with ⟨hb', _⟩ | ⟨_, rfl⟩
    · cases hb.symm.trans hb'
    · rcases headerFromWindow_cases (latchInputs m w s) with ⟨e, _, he⟩ | ⟨_, _, _, he⟩ <;> rw [he] at ht ⊢
      · exact absurd rfl ht
      · cases m with
        | rawOnly => rw [settle_ok, stepsLeft_of_decode_rawOnly rfl rfl]; simp
        | raster => rw [settle_ok, stepsLeft_of_decode_raster rfl rfl]; simp; omega

/-! ### A step that faults -/

/-- Settles O25: of what a step can do only fault entry leads to FAULT, from the state with the command taken. -/
theorem stepFaultIsPrecise : Obligations.StepFaultIsPrecise := by
  intro s t hs hstep ht
  rcases step_next hstep with ⟨hpend, m⟩ | ⟨c, cs, hpend, k⟩
  · cases m with
    | rest _ => exact absurd ht hs
    | fault e _ cause => exact ⟨cause, rfl, rfl, by simp [hpend]⟩
    | row _ _ _ _ hp _ => cases hp.symm.trans ht
    | p2c hp _ | place hp _ _ => cases hp.symm.trans ht
    | finRaw | finRaster | layout | afin => cases ht
  · cases k with
    | fault e _ cause => exact ⟨cause, rfl, rfl, by simp [hpend]⟩
    | ignored _ | palx _ _ => exact absurd ht hs
    | started | reset => cases ht

end Sys2Proof.Machine
end

section
/-! SUPPORT. The operations of the Decompressor where they are enabled (41 R140 to R150), and which of them a step is: the
control byte, the row the control bit and the index bytes select, and what the phase and the counters select after it. -/

namespace Sys2Proof.Machine

variable {s t : State}

/-! ### The operations where they are enabled -/

theorem ctrlEnabled_iff : ctrlEnabled s = true ↔ s.phase = .decode ∧ s.rowIdx < rows s ∧ s.rowIdx % 8 = 0 :=
  decide_eq_true_iff

theorem rowEnabled_iff : rowEnabled s = true ↔ s.phase = .decode ∧ s.rowIdx < rows s := decide_eq_true_iff

theorem finEnabled_iff : finEnabled s = true ↔ s.phase = .decode ∧ s.rowIdx = rows s := decide_eq_true_iff

theorem execCtrl_of_le (he : ctrlEnabled s = true) (hw : s.bsCur + 1 ≤ s.win.size) (c : Byte) :
    execCtrl c s = .next (latchControl c s) := by
  rw [execCtrl, if_pos he, checkBounds_of_le hw]
  rfl

theorem duplicateRow_of_le {index : Nat} (hw : dupAddress s index + 4 ≤ s.win.size) (n : Nat) :
    duplicateRow index n s = .ok (storeRow (rowAt s (dupAddress s index)) (countDup n s)) := by
  rw [duplicateRow, readRow_of_le hw]

theorem execRaw_of_le (he : rowEnabled s = true) (hw : s.artCur + 4 ≤ s.win.size) :
    execRaw s = .next (storeRow (rowAt s s.artCur) (countRaw s)) := by
  rw [execRaw, if_pos he, rawAddress, readRow_of_le hw]
  rfl

theorem execDup1_of_le (he : rowEnabled s = true) (hw : s.dupCur + 1 ≤ s.win.size) (index : Byte) :
    execDup1 index s = .next (settle s (duplicateRow index.toNat 1 s)) := by
  rw [execDup1, if_pos he, checkBounds_of_le hw]

theorem execDup2_of_le (he : rowEnabled s = true) (hw : s.dupCur + 2 ≤ s.win.size) (index : BitVec 12) :
    execDup2 index s = .next (settle s (duplicateRow index.toNat 2 s)) := by
  rw [execDup2, if_pos he, checkBounds_of_le (show s.dupCur + 1 ≤ s.win.size by omega)]
  simp only [checkBounds_of_le (show s.dupCur + 1 + 1 ≤ s.win.size from hw)]

theorem execFin_of_rawOnly (he : finEnabled s = true) (hm : s.modeReg = .rawOnly) :
    execFin s = .next (setPhase .done (reportExtent s)) := by
  rw [execFin, if_pos he, hm]

theorem execFin_of_raster (he : finEnabled s = true) (hm : s.modeReg = .raster) :
    execFin s = .next (beginConvert (reportExtent s)) := by
  rw [execFin, if_pos he, hm]

/-! ### The row store -/

/-- The row store after the counts, which leave `ROW_IDX` and `DB` alone. -/
theorem rowCopied_storeRow {u : State} (a : Nat) (hrow : u.rowIdx = s.rowIdx) (hdb : u.db = s.db) :
    RowCopied s (storeRow (rowAt s a) u) a where
  latch := rfl
  stored k hk := by
    rw [← hrow]
    refine cellGet_storeRow_at (rowAt s a) u (p := (4 * u.rowIdx + k, inByte s (a + k))) ?_
    obtain rfl | rfl | rfl | rfl : k = 0 ∨ k = 1 ∨ k = 2 ∨ k = 3 := by omega
    all_goals simp [rowCells, rowAt]
  others c hc := by rw [cellGet_storeRow_other _ _ (hrow ▸ hc), hdb]
  size := by simp [hdb]
  rowIdx := by simp [hrow]

/-- Settles O19: CTRL is enabled and its byte is in the window. -/
theorem ctrlLatchesByte : Obligations.CtrlLatchesByte := fun _ c hp hr hb hw =>
  execCtrl_of_le (ctrlEnabled_iff.mpr ⟨hp, hr, hb⟩) hw c

/-- Settles O20: RAW is enabled and its row is in the window. -/
theorem rawCopiesRow : Obligations.RawCopiesRow := fun s hp hr hw =>
  ⟨_, execRaw_of_le (rowEnabled_iff.mpr ⟨hp, hr⟩) hw, rowCopied_storeRow s.artCur rfl rfl, rfl, rfl, rfl⟩

/-- Settles O21: the index byte and the row it names are in the window, and DUP1 moves one index byte further. -/
theorem dup1CopiesRow : Obligations.Dup1CopiesRow := by
  intro s index hp hr hindex hrow
  refine ⟨_, execDup1_of_le (rowEnabled_iff.mpr ⟨hp, hr⟩) hindex index, ?_⟩
  rw [duplicateRow_of_le hrow]
  exact ⟨rowCopied_storeRow _ rfl rfl, rfl, rfl, rfl⟩

/-- Settles O22: both index bytes and the row they name are in the window, and DUP2 moves two index bytes further. -/
theorem dup2CopiesRow : Obligations.Dup2CopiesRow := by
  intro s index hp hr hindex hrow
  refine ⟨_, execDup2_of_le (rowEnabled_iff.mpr ⟨hp, hr⟩) hindex index, ?_⟩
  rw [duplicateRow_of_le hrow]
  exact ⟨rowCopied_storeRow _ rfl rfl, rfl, rfl, rfl⟩

/-- Settles O27: FIN is enabled, and the mode selects what it hands over to. -/
theorem finEndsDecompression : Obligations.FinEndsDecompression := fun _ hp hl =>
  ⟨fun hm => execFin_of_rawOnly (finEnabled_iff.mpr ⟨hp, hl⟩) hm,
    fun hm => execFin_of_raster (finEnabled_iff.mpr ⟨hp, hl⟩) hm⟩

/-! ### The operation a step is -/

theorem step_of_row (hpend : s.pending = []) (hp : s.phase = .decode) (hr : s.rowIdx < rows s) :
    step s = rowDecode s := (step_of_pending_nil hpend).trans (internalStep_of_row hp hr)

theorem rowOperation_of_decode {i : Instr} {rest : List Byte}
    (h : decode (.row (controlBit s)) (windowBytes s s.dupCur 2) = .ok (i, rest)) : rowOperation s = exec i s := by
  rw [rowOperation, runDecoded, h]

theorem rowStart_of_tile_start (hb : bitIdx s = 0) : rowStart s = latchControl (inByte s s.bsCur) s := if_pos hb

theorem rowStart_inside_tile (hb : bitIdx s ≠ 0) : rowStart s = s := if_neg hb

/-- The operation of R142 is the one the decoder finds, when the index bytes it needs are there. -/
theorem rowOperation_eq_selectedRow (hpresent : indexPresent s s.ctrl) :
    rowOperation s = exec (selectedRow s s.ctrl) s := by
  have hbit : (s.ctrl.toNat >>> (s.rowIdx % 8)) &&& 1 = (controlBit s).toNat := (toNat_getLsbD _ _).symm
  rw [indexPresent, hbit] at hpresent
  rw [selectedRow, hbit]
  rcases rowOperation_cases s with ⟨hc, e⟩ | ⟨hc, hw, _⟩ | ⟨hc, _, hb, e⟩ | ⟨hc, hw, hb, _⟩ | ⟨hc, _, hb, e⟩ <;>
    rw [hc] at hpresent ⊢
  · exact e
  · rcases hpresent with h | ⟨h, _⟩
    · cases h
    · omega
  · rw [if_neg (by decide), if_pos hb]
    exact e
  · rcases hpresent with h | ⟨_, h⟩
    · cases h
    · omega
  · rw [if_neg (by decide), if_neg hb.not_gt, ← index12_eq_ofNat]
    exact e

/-- Settles O10: inside a tile the row operation reads `CTRL`, and at its first row the byte just fetched into it. -/
theorem controlBitSelectsRow : Obligations.ControlBitSelectsRow := by
  intro s hpend hp hr
  rw [step_of_row hpend hp hr]
  refine ⟨fun hb hpresent => ?_, fun hb hw hpresent => ?_⟩
  · rw [rowDecode_inside_tile hb, rowOperation_eq_selectedRow hpresent]
  · rw [rowDecode_at_tile_start hp hr hb hw, rowStart_of_tile_start hb]
    exact congrArg (precise s) (rowOperation_eq_selectedRow (s := latchControl (inByte s s.bsCur) s) hpresent)

/-- Settles O6: the row-decode step inside a tile is the row operation. -/
theorem stepRunsDecodedRow : Obligations.StepRunsDecodedRow := by
  intro s i rest hpend hp hr hb hdec
  rw [step_of_row hpend hp hr, rowDecode_inside_tile hb, rowOperation_of_decode hdec]

/-- Settles O7: the row-decode step at a tile's start is the row operation after the control-byte fetch. -/
theorem stepRunsTileStart : Obligations.StepRunsTileStart := by
  rintro s t i rest hpend hp hr hb hw rfl hdec
  refine ⟨ctrlLatchesByte s _ hp hr hb hw, ?_⟩
  rw [step_of_row hpend hp hr, rowDecode_at_tile_start hp hr hb hw, rowStart_of_tile_start hb]
  exact congrArg (precise s) (rowOperation_of_decode (s := latchControl (inByte s s.bsCur) s) hdec)

/-- Settles O8: in each phase the counter is below its end or at it. -/
theorem stepRunsStages : Obligations.StepRunsStages := by
  intro s hpend
  rw [step_of_pending_nil hpend]
  refine ⟨fun hp hl => ?_, fun hp hr => ?_, fun hp hl => ?_, fun hp hr => ?_, fun hp hl => ?_⟩
  · simp [internalStep, hp, hl]
  · simp [internalStep, hp, hr, runDecoded, decode, dbRowBytes]
  · simp [internalStep, hp, hl]
  · simp [internalStep, hp, hr]
  · simp [internalStep, hp, hl]

/-! ### DONE -/

theorem outputInv_iff_of_done (hp : s.phase = .done) :
    OutputInv s ↔ DbWritten s ∧ (s.modeReg = .raster → PxsWritten s ∧ GridWritten s) := by rw [OutputInv, hp]

/-- Settles O52: the invariants give the size and which bytes are written, and in DONE every row is decoded. -/
theorem doneBufferComplete : Obligations.DoneBufferComplete := by
  intro s hr ho hp
  have hd := hr.decoded (.inr (.inr hp))
  have hwritten : DbWritten s := ((outputInv_iff_of_done hp).mp ho).1
  exact ⟨hd.dbSize, fun a ha => Option.isSome_iff_exists.mp ((hwritten a).mpr (hd.allRows ▸ ha))⟩

end Sys2Proof.Machine
end

section
/-! SUPPORT. Runs against computations of the reference functions: what `n` steps answer when a computation answers a value or
a fault, and how runs follow the computation's binds. -/

namespace Sys2Proof.Machine

variable {α β : Type} {s t : State}

theorem run_of_rest (hb : busy s = false) (hp : s.pending = []) (n : Nat) :
    Host.Core.run core n s = .next s := by
  induction n with
  | zero => rfl
  | succ n ih => rw [run_succ_of_step ((step_of_pending_nil hp).trans (internalStep_of_rest hb)), ih]

theorem run_add {m : Nat} (h : Host.Core.run core m s = .next t) (n : Nat) :
    Host.Core.run core (m + n) s = Host.Core.run core n t := by
  induction m generalizing s with
  | zero =>
    cases Host.Outcome.next.inj h
    rw [Nat.zero_add]
  | succ m ih =>
    cases hs : step s with
    | next u =>
      rw [run_succ_of_step hs] at h
      rw [Nat.succ_add, run_succ_of_step hs, ih h]
    | fault r | refused r =>
      have hs' : core.step s = _ := hs
      simp only [Host.Core.run, hs'] at h
      cases h

/-- `n` steps that each count one up. -/
theorem run_repeat {n : Nat} {R : Nat → State → Prop} (hstep : ∀ i s, i < n → R i s → ∃ t, step s = .next t ∧ R (i + 1) t)
    (h : R 0 s) : ∃ t, Host.Core.run core n s = .next t ∧ R n t := by
  induction n with
  | zero => exact ⟨s, rfl, h⟩
  | succ n ih =>
    obtain ⟨t, hrun, ht⟩ := ih fun i s hi => hstep i s (by omega)
    obtain ⟨u, hu, hR⟩ := hstep n t (by omega) ht
    exact ⟨u, (run_add hrun 1).trans (run_succ_of_step hu), hR⟩

/-- `t` is in FAULT with the record of `e`, and no command waits there. -/
structure FaultedBy (e : Raise) (t : State) : Prop where
  phase : t.phase = .fault
  cause : t.errCause = e.cause
  addr : t.errAddr = e.addr
  pending : t.pending = []

theorem FaultedBy.run {e : Raise} (h : FaultedBy e t) (n : Nat) : Host.Core.run core n t = .next t :=
  run_of_rest (by simp [busy, h.phase]) h.pending n

theorem faultedBy_raiseFault (hpend : s.pending = []) (e : Raise) : FaultedBy e (raiseFault e s) :=
  ⟨rfl, rfl, rfl, hpend⟩

/-- What a state answers for a computation's result: a value that it stands for by `P`, or a fault that it records. -/
inductive Answer (P : α → State → Prop) : Except Raise α → State → Prop where
  | value {a : α} {t : State} (stands : P a t) : Answer P (.ok a) t
  | fault {e : Raise} {t : State} (faulted : FaultedBy e t) : Answer P (.error e) t

/-- `n` steps from `s` answer for the computation `r`. -/
def Answers (P : α → State → Prop) (n : Nat) (s : State) (r : Except Raise α) : Prop :=
  ∃ t, Host.Core.run core n s = .next t ∧ Answer P r t

variable {P : α → State → Prop} {Q : β → State → Prop} {r : Except Raise α} {m n : Nat}

theorem Answers.of_step (hstep : step s = .next t) (h : Answer P r t) : Answers P 1 s r :=
  ⟨t, run_succ_of_step hstep, h⟩

theorem Answers.after_run (hrun : Host.Core.run core m s = .next t) (h : Answers P n t r) :
    Answers P (m + n) s r := by
  obtain ⟨u, hrun', hans⟩ := h
  exact ⟨u, (run_add hrun n).trans hrun', hans⟩

theorem Answers.after_step (hstep : step s = .next t) (h : Answers P n t r) : Answers P (1 + n) s r :=
  .after_run (run_succ_of_step hstep : Host.Core.run core 1 s = .next t) h

theorem Answers.of_fault {e : Raise} (hstep : step s = .next t) (hf : FaultedBy e t) :
    Answers P (1 + n) s (.error e) :=
  .after_step hstep ⟨t, hf.run n, .fault hf⟩

/-- A run follows a bind: the steps of the first computation, then those of the second, or rest in the first's fault. -/
theorem Answers.bind {f : α → Except Raise β} (h : Answers P m s r) (hf : ∀ a t, P a t → Answers Q n t (f a)) :
    Answers Q (m + n) s (r >>= f) := by
  obtain ⟨t, hrun, hans⟩ := h
  cases hans with
  | value stands =>
    obtain ⟨u, hrun', hans'⟩ := hf _ t stands
    exact ⟨u, (run_add hrun n).trans hrun', hans'⟩
  | fault faulted => exact ⟨t, (run_add hrun n).trans (faulted.run n), .fault faulted⟩

/-- Steps after a value that leave it standing for another relation. -/
theorem Answers.then_run {R : α → State → Prop} (h : Answers P m s r)
    (hrun : ∀ a t, P a t → ∃ t', Host.Core.run core n t = .next t' ∧ R a t') : Answers R (m + n) s r := by
  have hbind : r >>= Except.ok = r := by cases r <;> rfl
  rw [← hbind]
  refine h.bind fun a t ht => ?_
  obtain ⟨t', hrun', hR⟩ := hrun a t ht
  exact ⟨t', hrun', .value hR⟩

/-- States at rest answer the same after more steps. -/
theorem Answers.of_le (h : Answers P m s r) (hrest : ∀ a t, P a t → busy t = false ∧ t.pending = []) (hmn : m ≤ n) :
    Answers P n s r := by
  obtain ⟨k, rfl⟩ := Nat.exists_eq_add_of_le hmn
  refine h.then_run fun a t ht => ⟨t, ?_, ht⟩
  obtain ⟨hb, hpend⟩ := hrest a t ht
  exact run_of_rest hb hpend k

end Sys2Proof.Machine
end

section
/-! SUPPORT. A tile of duplicated rows (41 R154): what one such row moves, and `n` of them, against the next `n` indices of the
index stream. -/

namespace Sys2Proof.Machine

variable {s t u : State}

/-! ### One duplicated row -/

/-- `t` is `s` with one more row decoded, by a duplicated row with the next index of the index stream. -/
structure RowDuplicated (s t : State) : Prop where
  copied : RowCopied s t (s.artOff.toNat + 4 * (refIndexAt (inByte s) s.dupCur).1)
  dupCur : t.dupCur = s.dupCur + (refIndexAt (inByte s) s.dupCur).2
  dupCnt : t.dupCnt = s.dupCnt + 1
  rawCnt : t.rawCnt = s.rawCnt
  artCur : t.artCur = s.artCur
  artOff : t.artOff = s.artOff
  rows : rows t = rows s
  bytes : inByte t = inByte s
  ctrl : t.ctrl = (rowStart s).ctrl

theorem rowDuplicated_storeRow : RowDuplicated s
    (storeRow (rowAt (rowStart s) (dupAddress (rowStart s) (refIndexAt (inByte (rowStart s)) (rowStart s).dupCur).1))
      (countDup (refIndexAt (inByte (rowStart s)) (rowStart s).dupCur).2 (rowStart s))) := by
  simp only [inByte_rowStart, rowStart_dupCur, dupAddress_rowStart, rowAt_rowStart]
  constructor
  case copied => exact rowCopied_storeRow _ (by simp) (by simp)
  case bytes => exact inByte_rowStart s
  all_goals simp

theorem controlBit_of_all_ones (h : s.ctrl = 0xFF#8) : controlBit s = true := by
  have hb : bitIdx s < 8 := Nat.mod_lt _ (by decide)
  rw [controlBit, h]
  exact (BitVec.getLsbD_allOnes (v := 8)).trans (decide_eq_true hb)

/-- Under a control byte `0xFF` a row that does not fault is a duplicated one. -/
theorem RowOutcome.duplicated (o : RowOutcome (rowStart s) t) (hctrl : (rowStart s).ctrl = 0xFF#8)
    (hp : t.phase = .decode) : RowDuplicated s t := by
  cases o with
  | raw hbit _ => cases hbit.symm.trans (controlBit_of_all_ones hctrl)
  | dup _ _ _ => exact rowDuplicated_storeRow
  | fault _ _ => cases hp

/-! ### A run of them -/

/-- `t` is `s` with `n` more rows decoded, by duplicated rows with the next `n` indices of the index stream. -/
structure RowsDuplicated (s t : State) (n : Nat) : Prop where
  rowIdx : t.rowIdx = s.rowIdx + n
  dupCnt : t.dupCnt = s.dupCnt + n
  rawCnt : t.rawCnt = s.rawCnt
  artCur : t.artCur = s.artCur
  dupCur : t.dupCur = s.dupCur + n + ((refIndices (inByte s) s.dupCur n).filter fun p => p.2 = 2).length
  stored : ∀ i k, i < n → k < 4 → cellGet t.db.cells (4 * (s.rowIdx + i) + k) =
    some (inByte s (s.artOff.toNat + 4 * ((refIndices (inByte s) s.dupCur n).getD i (0, 0)).1 + k))
  others : ∀ a, a < 4 * s.rowIdx → cellGet t.db.cells a = cellGet s.db.cells a

theorem RowsDuplicated.zero (s : State) : RowsDuplicated s s 0 := by
  constructor <;> simp [refIndices]

/-- One index and those after it: its length is 1 byte, or 2 and then the count of two-byte indices has one more. -/
theorem length_filter_refIndices_succ (inp : Nat → Byte) (d n : Nat) :
    1 + ((refIndices inp d (n + 1)).filter fun p => p.2 = 2).length =
      (refIndexAt inp d).2 + ((refIndices inp (d + (refIndexAt inp d).2) n).filter fun p => p.2 = 2).length := by
  obtain ⟨hge, hle⟩ := refIndexAt_length inp d
  rw [refIndices]
  obtain h | h : (refIndexAt inp d).2 = 1 ∨ (refIndexAt inp d).2 = 2 := by omega
  · rw [List.filter_cons_of_neg (by simp [h]), h]
  · rw [List.filter_cons_of_pos (by simp [h]), h, List.length_cons]
    omega

theorem RowsDuplicated.cons {n : Nat} (h : RowDuplicated s u) (hn : RowsDuplicated u t n) :
    RowsDuplicated s t (n + 1) := by
  obtain ⟨⟨_, stored, others, _, row⟩, dupCur, dupCnt, rawCnt, artCur, artOff, _, bytes, _⟩ := h
  obtain ⟨row', dupCnt', rawCnt', artCur', dupCur', stored', others'⟩ := hn
  rw [bytes, dupCur] at dupCur' stored'
  rw [artOff] at stored'
  have hlen := length_filter_refIndices_succ (inByte s) s.dupCur n
  refine ⟨by omega, by omega, rawCnt'.trans rawCnt, artCur'.trans artCur, by omega, fun i k hi hk => ?_, fun a ha => ?_⟩
  · cases i with
    | zero => rw [others' _ (by omega)]; exact stored k hk
    | succ i =>
      have := stored' i k (by omega) hk
      rwa [row, Nat.add_assoc s.rowIdx, Nat.add_comm 1] at this
  · rw [others' a (by omega), others a (.inl ha)]

/-- Inside one tile with control byte `0xFF`, every row of a run that is still in DECODE is a duplicated one. -/
theorem rowsDuplicated_of_run (n : Nat) (hpend : s.pending = []) (hp : s.phase = .decode) (hr : s.rowIdx + n ≤ rows s)
    (htile : bitIdx s + n ≤ 8) (hctrl : 0 < n → (rowStart s).ctrl = 0xFF#8)
    (hrun : Host.Core.run core n s = .next t) (ht : t.phase = .decode) : RowsDuplicated s t n := by
  induction n generalizing s with
  | zero =>
    cases Host.Outcome.next.inj hrun
    exact .zero _
  | succ n ih =>
    have hr' : s.rowIdx < rows s := by omega
    obtain ⟨u, hu⟩ := rowDecode_completes hp hr'
    have hstep : step s = .next u := (step_of_row hpend hp hr').trans hu
    have hpend' : u.pending = [] :=
      (internalStep_next ((step_of_pending_nil hpend).symm.trans hstep)).pending_eq.trans hpend
    rw [run_succ_of_step hstep] at hrun
    rcases rowDecode_next hp hr' hu with ⟨e, _, rfl⟩ | ⟨hp', _, o⟩
    · rw [run_of_rest rfl hpend'] at hrun
      cases Host.Outcome.next.inj hrun
      cases ht
    · have hdup := o.duplicated (hctrl n.succ_pos) hp'
      have hrow := hdup.copied.rowIdx
      rw [bitIdx] at htile
      refine .cons hdup (ih hpend' hp' (by rw [hdup.rows]; omega) (by rw [bitIdx]; omega) (fun hn => ?_) hrun)
      rw [rowStart_inside_tile (by rw [bitIdx]; omega), hdup.ctrl, hctrl n.succ_pos]

/-- Settles O56: the control byte fetched at the tile's first row is `0xFF` for its eight rows. -/
theorem duplicateTileConsumes : Obligations.DuplicateTileConsumes := by
  intro s t hpend hp hb hr hw hbyte hrun ht
  have hb' : bitIdx s = 0 := hb
  have hctrl : (rowStart s).ctrl = 0xFF#8 := by rw [rowStart_ctrl, if_pos hb', hbyte]
  obtain ⟨row, dupCnt, rawCnt, artCur, dupCur, stored, _⟩ :=
    rowsDuplicated_of_run 8 hpend hp hr (by omega) (fun _ => hctrl) hrun ht
  exact ⟨row, dupCnt, rawCnt, artCur, dupCur, stored⟩

end Sys2Proof.Machine
end

section
/-! SUPPORT. The row-decode step against the reference decompressor's row (41 R142 to R149, R155). -/

namespace Sys2Proof.Machine

variable {s t : State}

/-! ### The reference's checks -/

theorem ok_bind {α β : Type} (a : α) (f : α → Except Raise β) : (Except.ok a >>= f) = f a := rfl

theorem refCheck_of_le {W a n : Nat} (h : a + n ≤ W) (c : ErrCause) : refCheck W c a n = .ok () :=
  if_neg (Nat.not_lt.mpr h)

theorem refCheck_of_lt {W a n : Nat} (h : W < a + n) (c : ErrCause) : refCheck W c a n = .error ⟨c, a⟩ := if_pos h

section

variable {inp : Nat → Byte} {W d : Nat}

theorem refIndex_missing (h : W ≤ d) : refIndex inp W d = .error ⟨.boundsIndex, d⟩ := by
  rw [refIndex, refCheck_of_lt (by omega)]
  rfl

theorem refIndex_one (h : d < W) (hb : (inp d).toNat < 0xF0) : refIndex inp W d = .ok ((inp d).toNat, 1) := by
  rw [refIndex, refCheck_of_le (by omega)]
  exact if_neg (Nat.not_le.mpr hb)

theorem refIndex_cut (h : W = d + 1) (hb : 0xF0 ≤ (inp d).toNat) :
    refIndex inp W d = .error ⟨.boundsIndex2, d + 1⟩ := by
  rw [refIndex, refCheck_of_le (by omega)]
  exact (if_pos hb).trans (if_pos (by omega))

theorem refIndex_two (h : d + 2 ≤ W) (hb : 0xF0 ≤ (inp d).toNat) :
    refIndex inp W d = .ok ((index12 (inp d) (inp (d + 1))).toNat, 2) := by
  rw [refIndex, refCheck_of_le (by omega), index12_toNat]
  exact (if_pos hb).trans (if_neg (by omega))

end

/-! ### The row operation as one computation -/

/-- The row operation's state after it, or its fault, in the order of its accesses. -/
def rowResult (s : State) : Except Raise State :=
  if controlBit s then
    refIndex (inByte s) s.win.size s.dupCur >>= fun p => duplicateRow p.1 p.2 s
  else
    readRow .boundsRawRow s.artCur s >>= fun row => .ok (storeRow row (countRaw s))

theorem rowOperation_eq_rowResult (he : rowEnabled s = true) : rowOperation s = .next (settle s (rowResult s)) := by
  rw [rowResult]
  rcases rowOperation_cases s with ⟨hc, e⟩ | ⟨hc, hw, e⟩ | ⟨hc, hw, hb, e⟩ | ⟨hc, hw, hb, e⟩ | ⟨hc, hw, hb, e⟩ <;> rw [e, hc]
  · rw [execRaw, if_pos he, rawAddress, if_neg nofun]
    cases readRow .boundsRawRow s.artCur s <;> rfl
  · rw [refIndex_missing hw]
    rfl
  · rw [refIndex_one hw hb, execDup1_of_le he hw]
    rfl
  · rw [refIndex_cut hw hb]
    rfl
  · rw [refIndex_two hw hb, execDup2_of_le he hw]
    rfl

/-- The row-decode step is the row operation after the control-byte fetch, and its fault undoes the fetch (41 R149). -/
theorem rowDecode_eq_rowResult (hp : s.phase = .decode) (hr : s.rowIdx < rows s)
    (hw : bitIdx s = 0 → s.bsCur < s.win.size) (hphase : ∀ t, rowResult (rowStart s) = .ok t → t.phase = .decode) :
    rowDecode s = .next (settle s (rowResult (rowStart s))) := by
  have hop := rowOperation_eq_rowResult (s := rowStart s) (rowEnabled_iff.mpr ⟨by simp [hp], by simp [hr]⟩)
  cases hres : rowResult (rowStart s) with
  | error e =>
    rw [hres] at hop
    exact rowDecode_of_rowOperation_fault hp hr hw hop
  | ok t =>
    rw [hres] at hop
    by_cases hb : bitIdx s = 0
    · rw [rowDecode_at_tile_start hp hr hb (hw hb), hop]
      simp [precise, hphase t hres]
    · rw [rowDecode_inside_tile hb, ← rowStart_inside_tile hb, hop, rowStart_inside_tile hb]

/-! ### One row -/

/-- `DB` holds `out` in the rows decoded so far. -/
def HoldsRows (out : List Byte) (s : State) : Prop :=
  out.length = 4 * s.rowIdx ∧ ∀ a, a < out.length → cellGet s.db.cells a = out[a]?

theorem getElem?_refRowBytes (inp : Nat → Byte) (a : Nat) {k : Nat} (hk : k < 4) :
    (refRowBytes inp a)[k]? = some (inp (a + k)) := by
  obtain rfl | rfl | rfl | rfl : k = 0 ∨ k = 1 ∨ k = 2 ∨ k = 3 := by omega
  all_goals rfl

theorem HoldsRows.append {out : List Byte} {a : Nat} (h : HoldsRows out s) (copied : RowCopied s t a) :
    HoldsRows (out ++ refRowBytes (inByte s) a) t := by
  obtain ⟨hlen, hstored⟩ := h
  have hlen' : (out ++ refRowBytes (inByte s) a).length = out.length + 4 := List.length_append
  refine ⟨by rw [hlen', hlen, copied.rowIdx, Nat.mul_succ], fun c hc => ?_⟩
  by_cases hold : c < out.length
  · rw [copied.others c (by omega), List.getElem?_append_left hold, hstored c hold]
  · obtain ⟨k, rfl⟩ := Nat.exists_eq_add_of_le (Nat.not_lt.mp hold)
    have hk : k < 4 := by omega
    rw [List.getElem?_append_right (by omega), Nat.add_sub_cancel_left, getElem?_refRowBytes _ _ hk, hlen,
      copied.stored k hk]

/-- The loop variables of R155 where `s` stands, with `out` written. -/
def loopVars (out : List Byte) (s : State) : RefVars := ⟨s.bsCur, s.artCur, s.dupCur, s.rawCnt, s.dupCnt, out⟩

/-- What the row operation leaves, beside the loop variables: the phase, the control byte, one more row. -/
structure NextRow (s t : State) : Prop where
  phase : t.phase = s.phase
  ctrl : t.ctrl = s.ctrl
  rowIdx : t.rowIdx = s.rowIdx + 1

section

variable {inp : Nat → Byte} {W artOff : Nat} {v : RefVars}

theorem refRow_of_bit_clear (hc : controlBit s = false) : refRow inp W artOff s.ctrl v (bitIdx s) =
    refCheck W .boundsRawRow v.art 4 >>= fun _ =>
      .ok { v with out := v.out ++ refRowBytes inp v.art, art := v.art + 4, rawCnt := v.rawCnt + 1 } := by
  rw [refRow, ← toNat_getLsbD, ← controlBit, hc]
  rfl

theorem refRow_of_bit_set (hc : controlBit s = true) : refRow inp W artOff s.ctrl v (bitIdx s) =
    refIndex inp W v.dup >>= fun p => refCheck W .boundsDupRow (artOff + 4 * p.1) 4 >>= fun _ =>
      .ok { v with
        out := v.out ++ refRowBytes inp (artOff + 4 * p.1), dup := v.dup + p.2, dupCnt := v.dupCnt + 1 } := by
  rw [refRow, ← toNat_getLsbD, ← controlBit, hc]
  rfl

theorem rowResult_of_bit_clear (hc : controlBit s = false) : rowResult s =
    readRow .boundsRawRow s.artCur s >>= fun row => .ok (storeRow row (countRaw s)) := by
  rw [rowResult, hc]
  rfl

theorem rowResult_of_bit_set (hc : controlBit s = true) : rowResult s =
    refIndex (inByte s) s.win.size s.dupCur >>= fun p => duplicateRow p.1 p.2 s := if_pos hc

end

/-- The row operation and the reference's row fault together, or succeed together and agree after it. -/
theorem refRow_agrees {out : List Byte} (h : HoldsRows out s) :
    (∃ e, refRow (inByte s) s.win.size s.artOff.toNat s.ctrl (loopVars out s) (bitIdx s) = .error e ∧
      rowResult s = .error e) ∨
    (∃ out' t, refRow (inByte s) s.win.size s.artOff.toNat s.ctrl (loopVars out s) (bitIdx s) =
      .ok (loopVars out' t) ∧ rowResult s = .ok t ∧ HoldsRows out' t ∧ NextRow s t) := by
  cases hc : controlBit s with
  | false =>
    rw [refRow_of_bit_clear hc, rowResult_of_bit_clear hc]
    by_cases hw : s.artCur + 4 ≤ s.win.size
    · rw [loopVars, refCheck_of_le hw, readRow_of_le hw]
      exact .inr ⟨_, _, rfl, rfl, h.append (rowCopied_storeRow s.artCur rfl rfl), rfl, rfl, rfl⟩
    · rw [loopVars, refCheck_of_lt (Nat.not_le.mp hw), readRow_of_lt (Nat.not_le.mp hw)]
      exact .inl ⟨_, rfl, rfl⟩
  | true =>
    rw [refRow_of_bit_set hc, rowResult_of_bit_set hc, loopVars]
    cases refIndex (inByte s) s.win.size s.dupCur with
    | error e => exact .inl ⟨e, rfl, rfl⟩
    | ok p =>
      rw [ok_bind, ok_bind]
      rcases duplicateRow_cases p.1 p.2 s with ⟨hrow, e⟩ | ⟨hrow, e⟩ <;> rw [dupAddress] at hrow
      · exact .inr ⟨_, _, by rw [refCheck_of_le hrow]; rfl, e, h.append (rowCopied_storeRow _ rfl rfl), rfl, rfl, rfl⟩
      · exact .inl ⟨_, by rw [refCheck_of_lt hrow]; rfl, e⟩

end Sys2Proof.Machine
end

section
/-! SUPPORT. A run's decoding against the reference decompressor (41 R155): START and the header, each tile and its rows, FIN. -/

namespace Sys2Proof.Machine

variable {s t u : State}

/-! ### The states of one run -/

/-- `s` is a state of the run that began in `u`: no command waits, the invariants hold, and what no step of the hardware
writes is as in `u`. -/
structure InRun (u s : State) : Prop where
  pending : s.pending = []
  run : RunInv s
  output : OutputInv s
  win : s.win = u.win
  artOff : s.artOff = u.artOff
  rowCount : s.rowCount = u.rowCount
  modeReg : s.modeReg = u.modeReg
  widthReg : s.widthReg = u.widthReg

theorem InRun.moved (h : InRun u s) (m : Moved s t) : InRun u t := by
  obtain ⟨pending, run, output, win, artOff, rowCount, modeReg, widthReg⟩ := h
  refine ⟨m.pending_eq.trans pending, run.moved m, output.moved run m, m.sameParameters.1.trans win, ?_, ?_, ?_, ?_⟩ <;>
  cases m with
  | row _ _ _ _ _ o => cases o <;> simpa
  | rest | fault | finRaw | finRaster | p2c | layout | place | afin => assumption

theorem InRun.of_step (h : InRun u s) (hstep : step s = .next t) : InRun u t :=
  h.moved (internalStep_next ((step_of_pending_nil h.pending).symm.trans hstep))

theorem InRun.inByte_eq (h : InRun u s) : inByte s = inByte u := by
  funext a
  rw [inByte, inByte, h.win]

theorem InRun.rows_eq (h : InRun u s) : rows s = rows u := by rw [rows, rows, h.rowCount]

/-- `s` is decoding row `k` of the run that began in `u`, and stands where the loop variables of R155 are `v`. -/
structure Decoding (u : State) (k : Nat) (v : RefVars) (s : State) : Prop where
  inRun : InRun u s
  phase : s.phase = .decode
  rowIdx : s.rowIdx = k
  vars : v = loopVars v.out s
  out : HoldsRows v.out s

/-! ### The rows of a tile -/

/-- The reference's row with the parameters of the run. -/
def runRow (u : State) (c : Byte) (v : RefVars) (i : Nat) : Except Raise RefVars :=
  refRow (inByte u) u.win.size u.artOff.toNat c v i

/-- A step on a row whose control byte is there answers for the reference's row, which starts after the fetch. -/
theorem InRun.row_answers {k : Nat} {out : List Byte} (h : InRun u s) (hp : s.phase = .decode) (hk : s.rowIdx = k)
    (hr : k < rows u) (hw : bitIdx s = 0 → s.bsCur < s.win.size) (hout : HoldsRows out s) :
    Answers (fun v t => Decoding u (k + 1) v t ∧ t.ctrl = (rowStart s).ctrl) 1 s
      (runRow u (rowStart s).ctrl (loopVars out (rowStart s)) (k % 8)) := by
  have hr' : s.rowIdx < rows s := by rw [hk, h.rows_eq]; exact hr
  have hout' : HoldsRows out (rowStart s) := by simpa [HoldsRows] using hout
  have hrow : runRow u (rowStart s).ctrl (loopVars out (rowStart s)) (k % 8) = refRow (inByte (rowStart s))
      (rowStart s).win.size (rowStart s).artOff.toNat (rowStart s).ctrl (loopVars out (rowStart s))
      (bitIdx (rowStart s)) := by
    rw [inByte_rowStart, h.inByte_eq, rowStart_win, h.win, rowStart_artOff, h.artOff, bitIdx_rowStart, bitIdx, hk]
    rfl
  have hstep (hphase : ∀ t, rowResult (rowStart s) = .ok t → t.phase = .decode) :
      step s = .next (settle s (rowResult (rowStart s))) :=
    (step_of_row h.pending hp hr').trans (rowDecode_eq_rowResult hp hr' hw hphase)
  rw [hrow]
  rcases refRow_agrees hout' with ⟨e, href, hres⟩ | ⟨out', t, href, hres, hholds, hphase, hctrl, hidx⟩ <;>
    rw [href] <;> rw [hres] at hstep
  · exact .of_step (hstep fun _ e' => by cases e') (.fault (faultedBy_raiseFault h.pending e))
  · have hp' : t.phase = .decode := by simpa [hp] using hphase
    have hstep' : step s = .next t := hstep fun _ e => by cases e; exact hp'
    exact .of_step hstep' (.value ⟨⟨h.of_step hstep', hp', by simpa [hk] using hidx, rfl, hholds⟩, hctrl⟩)

/-- The rows of a tile after its first, under the control byte already latched. -/
theorem Decoding.rows_answer {q j n : Nat} {v : RefVars} {c : Byte} (h : Decoding u (8 * q + j) v s)
    (hctrl : s.ctrl = c) (hj : 0 < j) (hn : j + n = 8) (hr : 8 * q + 8 ≤ rows u) :
    Answers (Decoding u (8 * q + 8)) n s ((List.range' j n).foldlM (runRow u c) v) := by
  induction n generalizing s v j with
  | zero => exact ⟨s, rfl, .value (by simpa [← hn] using h)⟩
  | succ n ih =>
    have hmod : (8 * q + j) % 8 = j := by omega
    have hb : bitIdx s ≠ 0 := by rw [bitIdx, h.rowIdx, hmod]; omega
    have hstep := h.inRun.row_answers h.phase h.rowIdx (by omega) (fun h0 => absurd h0 hb) h.out
    rw [rowStart_inside_tile hb, hctrl, ← h.vars, hmod] at hstep
    rw [List.range'_succ, List.foldlM_cons, Nat.add_comm n]
    exact hstep.bind fun v' t ht => ih ht.1 ht.2 (Nat.succ_pos j) (by omega)

theorem Decoding.tile_answers {q : Nat} {v : RefVars} (h : Decoding u (8 * q) v s) (hr : 8 * q + 8 ≤ rows u) :
    Answers (Decoding u (8 * q + 8)) 8 s (refTile (inByte u) u.win.size u.artOff.toNat v) := by
  have hb : bitIdx s = 0 := by rw [bitIdx, h.rowIdx]; omega
  have hbs : v.bs = s.bsCur := congrArg RefVars.bs h.vars
  rw [refTile, hbs]
  by_cases hw : s.bsCur + 1 ≤ u.win.size
  · rw [refCheck_of_le hw, ok_bind]
    have hw' : s.bsCur < s.win.size := by rw [h.inRun.win]; exact hw
    have hfirst := h.inRun.row_answers h.phase h.rowIdx (by omega) (fun _ => hw') h.out
    have hvars : loopVars v.out (rowStart s) = { v with bs := s.bsCur + 1 } := by
      rw [rowStart_of_tile_start hb, h.vars]
      rfl
    rw [hvars, rowStart_ctrl, if_pos hb, h.inRun.inByte_eq, Nat.mul_mod_right] at hfirst
    have hrange : List.range 8 = 0 :: List.range' 1 7 := by decide
    rw [hrange, List.foldlM_cons]
    exact hfirst.bind (n := 7) fun v' t ht => ht.1.rows_answer (j := 1) ht.2 (by omega) rfl hr
  · rw [refCheck_of_lt (Nat.not_le.mp hw)]
    have hfetch := rowDecode_without_control hb (s := s) (by rw [h.inRun.win]; omega)
    have hr' : s.rowIdx < rows s := by rw [h.rowIdx, h.inRun.rows_eq]; omega
    exact .of_fault (n := 7) ((step_of_row h.inRun.pending h.phase hr').trans hfetch)
      (faultedBy_raiseFault h.inRun.pending _)

/-- The loop over the tiles. -/
theorem Decoding.tiles_answer {n : Nat} {v : RefVars} (h : Decoding u 0 v s) (hr : 8 * n ≤ rows u) :
    Answers (Decoding u (8 * n)) (8 * n) s
      ((List.range n).foldlM (fun v _ => refTile (inByte u) u.win.size u.artOff.toNat v) v) := by
  induction n with
  | zero => exact ⟨s, rfl, .value h⟩
  | succ n ih =>
    rw [List.range_succ, List.foldlM_append]
    refine (ih (by omega)).bind fun v' t ht => ?_
    rw [List.foldlM_cons]
    exact Answers.bind (n := 0) (ht.tile_answers hr) fun v'' t' ht' => ⟨t', rfl, .value ht'⟩

/-! ### START -/

/-- The loop variables of R155 before the first tile. -/
def startVars (inp : Nat → Byte) : RefVars := ⟨8, refHalf inp 4, refHalf inp 2, 0, 0, []⟩

/-- The state in which an accepted START leaves the machine. -/
def startState (m : Mode) (w : Nat) (s : State) : State :=
  loadHeader (windowHeader s) (latchInputs m w (setPending [] s))

/-- The loop of R155 and what it returns, on the window of `s`. -/
def decompressTiles (s : State) : Except Raise RefOutput :=
  (List.range (refHalf (inByte s) 6 / 8)).foldlM
      (fun v _ => refTile (inByte s) s.win.size (refHalf (inByte s) 4) v) (startVars (inByte s)) >>=
    fun v => .ok ⟨v.out, v.rawCnt, v.dupCnt, max v.art v.dup⟩

/-- The reference's header checks and START's are the same (R121, R155). -/
theorem decompress_header_cases (hb : busy s = false) {m : Mode} {w : Nat} (hpend : s.pending = [.start m w]) :
    (∃ e, decompress (inByte s) s.win.size s.magic.toNat = .error e ∧
      step s = .next (raiseFault e (setPending [] s))) ∨
    (refHalf (inByte s) 6 % 8 = 0 ∧
      decompress (inByte s) s.win.size s.magic.toNat = decompressTiles s ∧ step s = .next (startState m w s)) := by
  have hstep : step s = .next (settle (setPending [] s)
      (parseHeader (windowHeader s) (latchInputs m w (setPending [] s)))) :=
    (step_of_pending_cons hpend).trans (exec_start_of_rest (s := setPending [] s) hb)
  rw [hstep, decompress]
  rcases parseHeader_cases (windowHeader s) (latchInputs m w (setPending [] s)) with
    ⟨hw, e⟩ | ⟨hw, hm, e⟩ | ⟨hw, hm, hr, e⟩ | ⟨hw, hm, hr, e⟩ <;> rw [e]
  · exact .inl ⟨_, by rw [refCheck_of_lt (by simpa using hw)]; rfl, rfl⟩
  all_goals
    rw [refCheck_of_le (show 0 + 8 ≤ s.win.size by simpa using hw), ok_bind]
    have hmagic := windowHeader_magic_eq_iff s
  · exact .inl ⟨_, if_pos (mt hmagic.mpr hm), rfl⟩
  · rw [if_neg (not_not.mpr (hmagic.mp hm))]
    exact .inl ⟨_, if_pos (by simpa using hr), rfl⟩
  · rw [if_neg (not_not.mpr (hmagic.mp hm)), if_neg (not_not.mpr (by simpa using hr))]
    exact .inr ⟨by simpa using hr, rfl, rfl⟩

theorem rows_startState (m : Mode) (w : Nat) (s : State) : rows (startState m w s) = refHalf (inByte s) 6 :=
  windowHeader_rowCount_toNat s

theorem decoding_startState {m : Mode} {w : Nat} (hr : refHalf (inByte s) 6 % 8 = 0) :
    Decoding (startState m w s) 0 (startVars (inByte s)) (startState m w s) where
  inRun := ⟨rfl, decodeCounters_loadHeader (by simpa using hr) _, dbWritten_loadHeader _ _, rfl, rfl, rfl, rfl, rfl⟩
  phase := rfl
  rowIdx := rfl
  vars := by simp [startVars, loopVars, startState]
  out := ⟨rfl, nofun⟩

/-! ### FIN -/

/-- `t` is the state after FIN of a run in `u`'s mode, with what the reference decompressor returns. -/
structure Decompressed (u : State) (o : RefOutput) (t : State) : Prop where
  inRun : InRun u t
  phase_of_rawOnly : u.modeReg = .rawOnly → t.phase = .done
  phase_of_raster : u.modeReg = .raster → t.phase = .convert ∧ t.p2cIdx = 0
  rawCnt : t.rawCnt = o.rawCnt
  dupCnt : t.dupCnt = o.dupCnt
  extent : t.extent = o.extent
  length : o.db.length = 4 * rows u
  dbSize : t.db.size = o.db.length
  stored : ∀ a, a < o.db.length → cellGet t.db.cells a = o.db[a]?

theorem Decoding.fin_answers {v : RefVars} (h : Decoding u (rows u) v s) :
    Answers (Decompressed u) 1 s (.ok ⟨v.out, v.rawCnt, v.dupCnt, max v.art v.dup⟩) := by
  obtain ⟨hrun, hp, hk, hvars, hlen, hstored⟩ := h
  have hl : s.rowIdx = rows s := hk.trans hrun.rows_eq.symm
  have hlen' : v.out.length = 4 * rows u := by rw [hlen, hk]
  have hsize : s.db.size = v.out.length := by
    rw [((runInv_iff_of_decode hp).mp hrun.run).dbSize, hrun.rows_eq, hlen']
  have hfin : step s = exec .fin s := (stepRunsStages s hrun.pending).1 hp hl
  cases hm : s.modeReg with
  | rawOnly =>
    have hstep := hfin.trans (execFin_of_rawOnly (finEnabled_iff.mpr ⟨hp, hl⟩) hm)
    have hother : u.modeReg ≠ .raster := by rw [← hrun.modeReg, hm]; nofun
    refine .of_step hstep (.value
      ⟨hrun.of_step hstep, fun _ => rfl, fun e => absurd e hother, ?_, ?_, ?_, hlen', hsize, hstored⟩)
    all_goals rw [hvars]; rfl
  | raster =>
    have hstep := hfin.trans (execFin_of_raster (finEnabled_iff.mpr ⟨hp, hl⟩) hm)
    have hother : u.modeReg ≠ .rawOnly := by rw [← hrun.modeReg, hm]; nofun
    refine .of_step hstep (.value
      ⟨hrun.of_step hstep, fun e => absurd e hother, fun _ => ⟨rfl, rfl⟩, ?_, ?_, ?_, hlen', hsize, hstored⟩)
    all_goals rw [hvars]; rfl

/-- The steps of START, of the rows and of FIN answer for the reference decompressor. -/
theorem decompress_answers (hb : busy s = false) {m : Mode} {w : Nat} (hpend : s.pending = [.start m w]) :
    Answers (Decompressed (startState m w s)) (1 + (8 * (refHalf (inByte s) 6 / 8) + 1)) s
      (decompress (inByte s) s.win.size s.magic.toNat) := by
  rcases decompress_header_cases hb hpend with ⟨e, href, hstep⟩ | ⟨hr, href, hstep⟩ <;> rw [href]
  · exact .of_fault hstep (faultedBy_raiseFault (s := setPending [] s) rfl e)
  · have hrows : 8 * (refHalf (inByte s) 6 / 8) = rows (startState m w s) := by
      rw [rows_startState]
      omega
    have hart : (startState m w s).artOff.toNat = refHalf (inByte s) 4 := windowHeader_artOff_toNat s
    have hbytes : inByte (startState m w s) = inByte s := rfl
    have hwin : (startState m w s).win = s.win := rfl
    have htiles := (decoding_startState (m := m) (w := w) hr).tiles_answer hrows.le
    rw [hart, hbytes, hwin] at htiles
    rw [decompressTiles]
    refine .after_step hstep (htiles.bind fun v t ht => ?_)
    exact (hrows ▸ ht).fin_answers

/-- Settles O54: START, the rows and FIN answer for the reference decompressor, and the run rests where they end. -/
theorem rawRunIsDecompress : Obligations.RawRunIsDecompress := by
  intro s w n hb hpend hn
  have hrest (o : RefOutput) (t : State) (h : Decompressed (startState .rawOnly w s) o t) :
      busy t = false ∧ t.pending = [] := ⟨by simp [busy, h.phase_of_rawOnly rfl], h.inRun.pending⟩
  have hsteps : 1 + (8 * (refHalf (inByte s) 6 / 8) + 1) ≤ n := by
    have := refHalf_lt (inByte s) 6
    omega
  obtain ⟨t, hrun, hans⟩ := (decompress_answers hb hpend).of_le hrest hsteps
  refine ⟨t, hrun, ?_⟩
  generalize decompress (inByte s) s.win.size s.magic.toNat = r at hans ⊢
  cases hans with
  | value h => exact ⟨h.phase_of_rawOnly rfl, h.rawCnt, h.dupCnt, h.extent, h.dbSize, h.stored⟩
  | fault h => exact ⟨h.phase, h.cause, h.addr⟩

end Sys2Proof.Machine
end

section
/-! SUPPORT. A raster run from FIN on (42 R180 to R185, 43 R191 to R197): the converter's steps, the layout check, the
assembler's steps, and the grid they leave against the reference converter and assembler. -/

namespace Sys2Proof.Machine

variable {s t u d : State}

/-! ### What the later stages leave of the decompression -/

/-- The results of the decompression are in `t` as in `s`. -/
structure SameResults (s t : State) : Prop where
  db : t.db = s.db
  rawCnt : t.rawCnt = s.rawCnt
  dupCnt : t.dupCnt = s.dupCnt
  extent : t.extent = s.extent

theorem SameResults.moved (h : SameResults d s) (m : Moved s t) (hp : s.phase ≠ .decode) : SameResults d t := by
  obtain ⟨db, rawCnt, dupCnt, extent⟩ := h
  cases m with
  | row hp' | finRaw hp' | finRaster hp' => exact absurd hp' hp
  | rest | fault | p2c | layout | place | afin => exact ⟨db, rawCnt, dupCnt, extent⟩

/-- `s` is a state of the run that began in `u`, in phase `p`, with the results of the decompression as in `d`. -/
structure InStage (u d : State) (p : Phase) (s : State) : Prop where
  inRun : InRun u s
  same : SameResults d s
  phase : s.phase = p

theorem InStage.of_step {p q : Phase} (h : InStage u d p s) (hp : p ≠ .decode) (hstep : step s = .next t)
    (hq : t.phase = q) : InStage u d q t :=
  ⟨h.inRun.of_step hstep,
    h.same.moved (internalStep_next ((step_of_pending_nil h.inRun.pending).symm.trans hstep)) (h.phase ▸ hp), hq⟩

/-! ### The converter's steps -/

theorem execP2c_of_more (hp : s.phase = .convert) (hr : s.p2cIdx < rows s) (row : Row) :
    execP2c row s = .next (storePixels (pixelCells s.p2cIdx row) s) := if_pos (decide_eq_true ⟨hp, hr⟩)

theorem InStage.convert_rows (h : InStage u d .convert s) (h0 : s.p2cIdx = 0) :
    ∃ t, Host.Core.run core (rows u) s = .next t ∧ InStage u d .convert t ∧ t.p2cIdx = rows u := by
  refine run_repeat (R := fun i t => InStage u d .convert t ∧ t.p2cIdx = i) (fun i s hi hs => ?_) ⟨h, h0⟩
  obtain ⟨hs, rfl⟩ := hs
  rw [← hs.inRun.rows_eq] at hi
  have hstep := ((stepRunsStages s hs.inRun.pending).2.1 hs.phase hi).trans (execP2c_of_more hs.phase hi _)
  exact ⟨_, hstep, hs.of_step nofun hstep hs.phase, rfl⟩

/-! ### The layout check -/

/-- GRIDCHK answers for the reference's layout check. -/
theorem InStage.layout_answers (h : InStage u d .convert s) (hl : s.p2cIdx = rows u) :
    Answers (fun height t => InStage u d .assemble t ∧ t.height = height ∧ t.placeIdx = 0) 1 s
      (assembleHeight (tileCount u) u.widthReg) := by
  have hl' : s.p2cIdx = rows s := by rw [h.inRun.rows_eq, hl]
  have htiles : tileCount s = tileCount u := by rw [tileCount, h.inRun.rows_eq, tileCount]
  obtain ⟨_, _, hgridchk, _⟩ := stepRunsStages s h.inRun.pending
  have hstep : step s = .next (settle s (checkLayout s)) :=
    (hgridchk h.phase hl').trans (if_pos (decide_eq_true ⟨h.phase, hl'⟩))
  rw [assembleHeight, ← h.inRun.widthReg, ← htiles]
  rcases checkLayout_cases s with ⟨hw, e⟩ | ⟨h0, h8, ht, e⟩ | ⟨h0, h8, ht, e⟩ <;> rw [e] at hstep
  · rw [if_pos hw]
    exact .of_step hstep (.fault (faultedBy_raiseFault h.inRun.pending _))
  all_goals rw [if_neg (by simp [h0, h8])]
  · rw [if_pos ht]
    exact .of_step hstep (.fault (faultedBy_raiseFault h.inRun.pending _))
  · rw [if_neg (not_not.mpr ht)]
    exact .of_step hstep (.value ⟨h.of_step nofun hstep rfl, rfl, rfl⟩)

/-! ### The assembler's steps -/

theorem execPlace_of_more (hp : s.phase = .assemble) (hr : s.placeIdx < tileCount s) (ht : s.tilesPerRow ≠ 0) :
    execPlace s = .next (storeTile (tileCells s s.placeIdx) s) :=
  (if_pos (decide_eq_true ⟨hp, hr⟩)).trans (if_neg ht)

theorem InStage.place_tiles {height : Nat} (h : InStage u d .assemble s) (hh : s.height = height) (h0 : s.placeIdx = 0) :
    ∃ t, Host.Core.run core (tileCount u) s = .next t ∧ InStage u d .assemble t ∧ t.height = height ∧
      t.placeIdx = tileCount u := by
  refine run_repeat (R := fun i t => InStage u d .assemble t ∧ t.height = height ∧ t.placeIdx = i) (fun i s hi hs => ?_)
    ⟨h, hh, h0⟩
  obtain ⟨hs, hh, rfl⟩ := hs
  rw [tileCount, ← hs.inRun.rows_eq] at hi
  obtain ⟨_, _, _, hplace, _⟩ := stepRunsStages s hs.inRun.pending
  have htpr := ((runInv_iff_of_assemble hs.phase).mp hs.inRun.run).width_eq.1.ne'
  have hstep := (hplace hs.phase hi).trans (execPlace_of_more hs.phase hi htpr)
  exact ⟨_, hstep, hs.of_step nofun hstep hs.phase, hh, rfl⟩

theorem InStage.finish {height : Nat} (h : InStage u d .assemble s) (hh : s.height = height)
    (hl : s.placeIdx = tileCount u) : ∃ t, step s = .next t ∧ InStage u d .done t ∧ t.height = height := by
  have hl' : s.placeIdx = tileCount s := by rw [hl, tileCount, tileCount, h.inRun.rows_eq]
  obtain ⟨_, _, _, _, hafin⟩ := stepRunsStages s h.inRun.pending
  have hstep := (hafin h.phase hl').trans (if_pos (decide_eq_true ⟨h.phase, hl'⟩))
  exact ⟨_, hstep, h.of_step nofun hstep rfl, hh⟩

/-! ### The grid of a complete run -/

/-- The inverse placement formula: the tile and pixel of R197 stand at column `X` of line `Y`. -/
theorem gridAddress_of_position {n X Y : Nat} (hX : X < 8 * n) :
    gridAddress (8 * n) n (Y / 8 * n + X / 8) (X % 8) (Y % 8) = Y * (8 * n) + X := by
  have hcol : X / 8 < n := by omega
  have hdiv : (Y / 8 * n + X / 8) / n = Y / 8 := by
    rw [Nat.mul_comm, Nat.mul_add_div (by omega), Nat.div_eq_of_lt hcol, Nat.add_zero]
  have hmod : (Y / 8 * n + X / 8) % n = X / 8 := by
    rw [Nat.mul_comm, Nat.mul_add_mod, Nat.mod_eq_of_lt hcol]
  rw [gridAddress, hdiv, hmod, Nat.div_add_mod, Nat.div_add_mod]

/-- A position inside the grid is in one of its tiles. -/
theorem tile_lt_of_position {n m X Y : Nat} (hm : m % n = 0) (hX : X < 8 * n) (hY : Y < m / n * 8) :
    Y / 8 * n + X / 8 < m :=
  calc Y / 8 * n + X / 8 < (Y / 8 + 1) * n := by rw [Nat.succ_mul]; omega
    _ ≤ m / n * n := Nat.mul_le_mul_right n (by omega)
    _ = m := Nat.div_mul_cancel (Nat.dvd_of_mod_eq_zero hm)

/-- A position inside the grid comes from one of the tiles, and from a pixel that is in `PXS`. -/
theorem Assembling.position_inside (h : Assembling s) {X Y : Nat} (hX : X < s.widthReg) (hY : Y < s.height) :
    Y / 8 * s.tilesPerRow + X / 8 < tileCount s ∧
      64 * (Y / 8 * s.tilesPerRow + X / 8) + 8 * (Y % 8) + X % 8 < 8 * rows s := by
  rw [h.height_eq] at hY
  have htile := tile_lt_of_position h.divides (h.width_eq.2 ▸ hX) hY
  have hrows : rows s = 8 * tileCount s := by
    have := h.wholeTiles
    rw [tileCount]
    omega
  exact ⟨htile, by omega⟩

/-- With every tile placed, each element of the grid is the pixel that the reference assembler puts there. -/
theorem Assembling.grid_pixel (h : Assembling s) (hall : s.placeIdx = tileCount s) (hpxs : PxsWritten s)
    (hgrid : GridWritten s) {X Y : Nat} (hX : X < s.widthReg) (hY : Y < s.height) :
    ∃ v, cellGet s.grid.cells (Y * s.widthReg + X) = some v ∧
      v.toNat = assembleAt (convertAt (dbByte s)) s.widthReg X Y := by
  have hw := h.width_eq.2
  obtain ⟨htile, hpixel⟩ := h.position_inside hX hY
  have hplaced := hgrid.1 _ (X % 8) (Y % 8) (hall ▸ htile) (Nat.mod_lt _ (by decide)) (Nat.mod_lt _ (by decide))
  rw [hw, gridAddress_of_position (hw ▸ hX), ← hw] at hplaced
  exact ⟨_, hplaced, by rw [hpxs.2 _ (h.allPixels ▸ hpixel), assembleAt, ← h.tilesPerRow_eq]⟩

/-- A pixel of row `r` of the image reads only row `r` of the byte memory. -/
theorem convertAt_congr {db db' : Nat → Byte} {n j : Nat} (h : ∀ a, a < 4 * n → db a = db' a) (hj : j < 8 * n) :
    convertAt db j = convertAt db' j := by
  have hrow : 4 * (j / 8) + 3 < 4 * n := by omega
  rw [convertAt, convertAt, refPixel, refPixel, h _ hrow, h _ (by omega), h _ (by omega), h _ (by omega)]

/-! ### The whole raster run -/

/-- The steps from FIN on answer for the reference's layout, and end in DONE. -/
theorem Decompressed.raster_answers {o : RefOutput} (h : Decompressed u o s) (hm : u.modeReg = .raster) :
    Answers (fun height t => InStage u s .done t ∧ t.height = height) (rows u + (1 + (tileCount u + 1))) s
      (assembleHeight (tileCount u) u.widthReg) := by
  obtain ⟨hp, h0⟩ := h.phase_of_raster hm
  obtain ⟨t, hrun, hconvert, hl⟩ := InStage.convert_rows ⟨h.inRun, ⟨rfl, rfl, rfl, rfl⟩, hp⟩ h0
  refine .after_run hrun ((hconvert.layout_answers hl).then_run fun height t ⟨hassemble, hh, hidx⟩ => ?_)
  obtain ⟨t', hrun', hplaced, hh', hl'⟩ := hassemble.place_tiles hh hidx
  obtain ⟨t'', hstep, hdone⟩ := hplaced.finish hh' hl'
  exact ⟨t'', (run_add hrun' 1).trans (run_succ_of_step hstep), hdone⟩

theorem Decompressed.dbByte_eq {o : RefOutput} (h : Decompressed u o d) (same : SameResults d t) {a : Nat}
    (ha : a < 4 * rows u) : dbByte t a = o.db.getD a 0 := by
  have ha' : a < o.db.length := h.length ▸ ha
  rw [dbByte, same.db, h.stored a ha', List.getElem?_eq_getElem ha', Option.getD_some, List.getD_eq_getElem _ _ ha']

/-- The layout and the image of a complete raster run, by the reference functions on what they decompressed. -/
theorem InStage.image {o : RefOutput} (h : InStage u d .done t) (hd : Decompressed u o d) (hm : u.modeReg = .raster) :
    t.grid.size = u.widthReg * t.height ∧
      ∀ X Y, X < u.widthReg → Y < t.height → ∃ v, cellGet t.grid.cells (Y * u.widthReg + X) = some v ∧
        v.toNat = assembleAt (convertAt fun a => o.db.getD a 0) u.widthReg X Y := by
  have hmode := h.inRun.modeReg.trans hm
  obtain ⟨ha, hall⟩ := ((runInv_iff_of_done h.phase).mp h.inRun.run).raster hmode
  obtain ⟨hpxs, hgrid⟩ := ((outputInv_iff_of_done h.phase).mp h.inRun.output).2 hmode
  rw [← h.inRun.widthReg]
  refine ⟨ha.gridSize, fun X Y hX hY => ?_⟩
  obtain ⟨v, hv, hpixel⟩ := ha.grid_pixel hall hpxs hgrid hX hY
  have hinside := (ha.position_inside hX hY).2
  rw [h.inRun.rows_eq, ha.tilesPerRow_eq] at hinside
  exact ⟨v, hv, hpixel.trans (convertAt_congr (fun a => hd.dbByte_eq h.same) hinside)⟩

/-- Settles O55: the run answers for the decompressor, then for the layout, and rests in DONE with the image. -/
theorem rasterRunIsAssemble : Obligations.RasterRunIsAssemble := by
  intro s w n hb hpend hn
  have hrows := rows_startState .raster w s
  have hwidth : (startState .raster w s).widthReg = w := rfl
  have hlt := refHalf_lt (inByte s) 6
  have htiles : tileCount (startState .raster w s) = refHalf (inByte s) 6 / 8 := by rw [tileCount, hrows]
  obtain ⟨k, rfl⟩ := Nat.exists_eq_add_of_le (show 1 + (8 * (refHalf (inByte s) 6 / 8) + 1) ≤ n by omega)
  obtain ⟨d, hrun, hans⟩ := decompress_answers hb hpend
  generalize decompress (inByte s) s.win.size s.magic.toNat = r at hans ⊢
  cases hans with
  | fault h => exact ⟨d, (run_add hrun k).trans (h.run k), h.phase, h.cause, h.addr⟩
  | @value o _ h =>
    have hwhole := (h.inRun.run.decodeCounters (.inr (.inl (h.phase_of_raster rfl).1))).wholeTiles
    rw [h.inRun.rows_eq, hrows] at hwhole
    have hlayout := (h.raster_answers rfl).of_le (n := k)
      (fun _ t ht => ⟨by simp [busy, ht.1.phase], ht.1.inRun.pending⟩) (by rw [htiles, hrows]; omega)
    rw [htiles, hwidth] at hlayout
    obtain ⟨t, hrun', hans'⟩ := hlayout
    refine ⟨t, (run_add hrun k).trans hrun', ?_⟩
    generalize assembleHeight (refHalf (inByte s) 6 / 8) w = r' at hans' ⊢
    cases hans' with
    | fault h' => exact ⟨h'.phase, h'.cause, h'.addr⟩
    | value h' =>
      obtain ⟨hdone, rfl⟩ := h'
      obtain ⟨hsize, himage⟩ := hdone.image h rfl
      have hsame := hdone.same
      exact ⟨hdone.phase, rfl, hsize, hsame.rawCnt.trans h.rawCnt, hsame.dupCnt.trans h.dupCnt,
        hsame.extent.trans h.extent, by rw [hsame.db, h.dbSize], fun a ha => by rw [hsame.db, h.stored a ha], himage⟩

end Sys2Proof.Machine
end

section
/-! SUPPORT. The Planar-to-Chunky Converter's row (42_planar_to_chunky.md R181 to R185): where P2C stores its pixels, the
transposition of planes and pixels in both directions, and the vectors of R184. -/

namespace Sys2Proof.Machine

variable {s : State}

/-! ### P2C stores eight pixels -/

theorem cellGet_storePixels_at (row : Row) (s : State) {p : Nat} (hp : p < 8) :
    cellGet (storePixels (pixelCells s.p2cIdx row) s).pxs.cells (8 * s.p2cIdx + p) = some (rowPixel row p) :=
  cellGet_bufPutAll_mem _ _ (pixelCells_nodup _ _) (mem_pixelCells _ _ hp)

theorem cellGet_storePixels_other (row : Row) (s : State) {a : Nat}
    (h : a < 8 * s.p2cIdx ∨ 8 * s.p2cIdx + 8 ≤ a) :
    cellGet (storePixels (pixelCells s.p2cIdx row) s).pxs.cells a = cellGet s.pxs.cells a := by
  refine cellGet_bufPutAll_other _ _ _ fun q hq => ?_
  have := pixelCells_address hq
  omega

/-- The step is P2C on the row of `DB` that `P2C_IDX` names. -/
theorem step_of_convert_row (hpend : s.pending = []) (hp : s.phase = .convert) (hr : s.p2cIdx < rows s) :
    step s = exec (.p2c (dbRow s)) s := by
  obtain ⟨_, hp2c, _⟩ := stepRunsStages s hpend
  exact hp2c hp hr

/-- Settles O28: P2C is enabled, each pixel is the formula of R181, and the store reaches no other place. -/
theorem p2cConvertsRow : Obligations.P2cConvertsRow := by
  refine ⟨fun s r hp hr => ?_, fun s hpend hp hr => step_of_convert_row hpend hp hr⟩
  refine ⟨_, execP2c_of_more hp hr r, rfl, fun p hlt => ?_, fun a ha => ?_, bufPutAll_size _ _, rfl⟩
  · exact ⟨_, cellGet_storePixels_at r s hlt, toNat_rowPixel r p⟩
  · exact cellGet_storePixels_other r s ha

/-! ### Planes and pixels -/

/-- Plane `k` of a row. -/
def rowPlane (row : Row) : Nat → Byte
  | 0 => row.plane0
  | 1 => row.plane1
  | 2 => row.plane2
  | _ => row.plane3

/-- Conversion is a transposition: bit `k` of pixel `p` is bit `7 - p` of plane `k`. -/
theorem getLsbD_rowPixel (row : Row) (p : Nat) {k : Nat} (hk : k < 4) :
    (rowPixel row p).getLsbD k = (rowPlane row k).getLsbD (7 - p) := by
  obtain rfl | rfl | rfl | rfl : k = 0 ∨ k = 1 ∨ k = 2 ∨ k = 3 := by omega
  all_goals
    simp only [rowPixel, BitVec.getLsbD_append]
    simp [planeBit, rowPlane]

/-- Plane `k` from eight pixels: its bit `7 - p` is bit `k` of pixel `p` (42 R185 (b)). -/
def pixelPlane (pix : Nat → Pixel) (k : Nat) : Byte := BitVec.ofFnLE fun j : Fin 8 => (pix (7 - j)).getLsbD k

theorem getLsbD_pixelPlane (pix : Nat → Pixel) (k : Nat) {p : Nat} (hp : p < 8) :
    (pixelPlane pix k).getLsbD (7 - p) = (pix p).getLsbD k := by
  have hback : 7 - (7 - p) = p := by omega
  simp [pixelPlane, show 7 - p < 8 by omega, hback]

/-- The row that eight pixels come from. -/
def pixelsRow (pix : Nat → Pixel) : Row :=
  ⟨pixelPlane pix 0, pixelPlane pix 1, pixelPlane pix 2, pixelPlane pix 3⟩

theorem rowPlane_pixelsRow (pix : Nat → Pixel) {k : Nat} (hk : k < 4) :
    rowPlane (pixelsRow pix) k = pixelPlane pix k := by
  obtain rfl | rfl | rfl | rfl : k = 0 ∨ k = 1 ∨ k = 2 ∨ k = 3 := by omega
  all_goals rfl

theorem rowPixel_pixelsRow (pix : Nat → Pixel) {p : Nat} (hp : p < 8) : rowPixel (pixelsRow pix) p = pix p := by
  refine BitVec.eq_of_getLsbD_eq fun k hk => ?_
  rw [getLsbD_rowPixel _ _ hk, rowPlane_pixelsRow _ hk, getLsbD_pixelPlane _ _ hp]

/-- A plane's bit comes back from the pixel it went to. -/
theorem getLsbD_rowPlane (row : Row) {j k : Nat} (hj : j < 8) (hk : k < 4) :
    (rowPlane row k).getLsbD j = (rowPixel row (7 - j)).getLsbD k := by
  have hback : 7 - (7 - j) = j := by omega
  rw [getLsbD_rowPixel _ _ hk, hback]

/-- Settles O29: the transposition read backwards, and `pixelsRow` as the row of given pixels. -/
theorem p2cIsBijective : Obligations.P2cIsBijective := by
  refine ⟨fun r j hj => ?_, fun pix => ⟨pixelsRow pix, fun p hp => rowPixel_pixelsRow pix hp⟩⟩
  have hplane {k : Nat} (hk : k < 4) := getLsbD_rowPlane r hj hk
  exact ⟨hplane (k := 0) (by decide), hplane (k := 1) (by decide), hplane (k := 2) (by decide),
    hplane (k := 3) (by decide)⟩

/-! ### The corrected vector -/

theorem dbRow_of_dbRowBytes {b0 b1 b2 b3 : Byte} (h : dbRowBytes s = [b0, b1, b2, b3]) :
    dbRow s = ⟨b0, b1, b2, b3⟩ := by simpa [dbRowBytes, dbRow] using h

/-- A row whose pixels are all `v` makes the step write `v` eight times. -/
theorem step_writes_equal_pixels {row : Row} {v : Pixel} (hpend : s.pending = []) (hp : s.phase = .convert)
    (hr : s.p2cIdx < rows s) (hrow : dbRow s = row) (hv : ∀ p, p < 8 → rowPixel row p = v) :
    ∃ t, step s = .next t ∧ ∀ p, p < 8 → cellGet t.pxs.cells (8 * s.p2cIdx + p) = some v := by
  refine ⟨_, (step_of_convert_row hpend hp hr).trans (execP2c_of_more hp hr _), fun p hlt => ?_⟩
  rw [cellGet_storePixels_at _ _ hlt, hrow, hv p hlt]

/-- Settles O30: the step converts the row of `DB`, and each of the two rows has eight equal pixels. -/
theorem correctedPixelVector : Obligations.CorrectedPixelVector := fun _ hpend hp hr =>
  ⟨fun h => step_writes_equal_pixels hpend hp hr (dbRow_of_dbRowBytes h) (by decide),
    fun h => step_writes_equal_pixels hpend hp hr (dbRow_of_dbRowBytes h) (by decide)⟩

end Sys2Proof.Machine
end

section
/-! SUPPORT. The Tile Raster Assembler (43_tile_raster_assembler.md R191 to R197): the branches of GRIDCHK, the tile that
PLACE stores, AFIN, the placement formula with its inverse, and the grid of a run that is complete. -/

namespace Sys2Proof.Machine

variable {s : State}

/-! ### GRIDCHK -/

theorem checkLayout_of_bad_width (hw : s.widthReg = 0 ∨ s.widthReg % 8 ≠ 0) :
    checkLayout s = .error ⟨.badWidth, 0⟩ := if_pos hw

theorem checkLayout_of_not_divisible (h0 : s.widthReg ≠ 0) (h8 : s.widthReg % 8 = 0)
    (ht : tileCount s % (s.widthReg / 8) ≠ 0) : checkLayout s = .error ⟨.tilesNotDivisible, 0⟩ := by
  rw [checkLayout, if_neg (not_or.mpr ⟨h0, not_not.mpr h8⟩), if_pos ht]

theorem checkLayout_of_fits (h0 : s.widthReg ≠ 0) (h8 : s.widthReg % 8 = 0)
    (ht : tileCount s % (s.widthReg / 8) = 0) :
    checkLayout s = .ok (beginAssemble (s.widthReg / 8) (tileCount s / (s.widthReg / 8) * 8) s) := by
  rw [checkLayout, if_neg (not_or.mpr ⟨h0, not_not.mpr h8⟩), if_neg (not_not.mpr ht)]

theorem exec_gridchk_of_all_rows (hp : s.phase = .convert) (hl : s.p2cIdx = rows s) :
    exec .gridchk s = .next (settle s (checkLayout s)) := if_pos (decide_eq_true ⟨hp, hl⟩)

/-- Settles O31: GRIDCHK is enabled and the layout passes both checks. -/
theorem gridchkSizesGrid : Obligations.GridchkSizesGrid := by
  intro s hp hl h0 h8 ht
  rw [exec_gridchk_of_all_rows hp hl, checkLayout_of_fits h0 h8 ht]
  rfl

/-- Settles O32: the width is checked first, and the tile count only for a width that passes. -/
theorem gridchkFaultsInOrder : Obligations.GridchkFaultsInOrder := by
  intro s hp hl
  rw [exec_gridchk_of_all_rows hp hl]
  refine ⟨fun hw => ?_, fun h0 h8 ht => ?_⟩
  · rw [checkLayout_of_bad_width hw]
    rfl
  · rw [checkLayout_of_not_divisible h0 h8 ht]
    rfl

/-! ### PLACE and AFIN -/

/-- In a grid of whole tiles the 64 pixels of a tile have 64 different places. -/
theorem tileCells_nodup (hn : 0 < s.tilesPerRow) (hw : s.widthReg = 8 * s.tilesPerRow) (t : Nat) :
    ((tileCells s t).map Prod.fst).Nodup := by
  rw [tileCells, List.map_map, hw]
  refine List.nodup_range.map_on fun j hj k hk e => ?_
  rw [List.mem_range] at hj hk
  obtain ⟨_, hx, hy⟩ := gridAddress_injective hn (by omega) (by omega) (by omega) (by omega) e
  omega

theorem cellGet_storeTile_at (hn : 0 < s.tilesPerRow) (hw : s.widthReg = 8 * s.tilesPerRow) (t : Nat) {x y : Nat}
    (hx : x < 8) (hy : y < 8) :
    cellGet (storeTile (tileCells s t) s).grid.cells (gridAddress s.widthReg s.tilesPerRow t x y) =
      some (pxsPixel s (64 * t + 8 * y + x)) :=
  cellGet_bufPutAll_mem _ _ (tileCells_nodup hn hw t) (mem_tileCells s t hx hy)

theorem cellGet_storeTile_other (s : State) (t : Nat) {a : Nat}
    (h : ∀ x y, x < 8 → y < 8 → a ≠ gridAddress s.widthReg s.tilesPerRow t x y) :
    cellGet (storeTile (tileCells s t) s).grid.cells a = cellGet s.grid.cells a := by
  refine cellGet_bufPutAll_other _ _ _ fun q hq e => ?_
  obtain ⟨x, y, hx, hy, hq⟩ := exists_of_mem_tileCells hq
  exact h x y hx hy (e.symm.trans hq)

/-- Settles O33: PLACE is enabled, each pixel has a place of its own, and the store reaches no other place. -/
theorem placePutsTile : Obligations.PlacePutsTile := by
  intro s hp hr hn hw
  refine ⟨_, execPlace_of_more hp hr hn.ne', rfl, fun x y hx hy => ?_, fun a ha => ?_, bufPutAll_size _ _, rfl⟩
  · exact cellGet_storeTile_at hn hw _ hx hy
  · exact cellGet_storeTile_other s _ ha

/-- Settles O36: AFIN is enabled. -/
theorem afinCompletesRun : Obligations.AfinCompletesRun := fun _ hp hl => if_pos (decide_eq_true ⟨hp, hl⟩)

/-! ### The placement formula -/

/-- Settles O34: row and column are quotient and remainder of the address, and the inverse formula leads back. -/
theorem placementIsInvertible : Obligations.PlacementIsInvertible := fun _ hn =>
  ⟨fun _ _ _ hx _ => ⟨gridAddress_div hn hx, gridAddress_mod hn hx⟩, fun _ _ hX => gridAddress_of_position hX⟩

/-- Every element of the grid is the place of some tile's pixel: that of its column and line. -/
theorem exists_gridAddress_eq {n m a : Nat} (hn : 0 < n) (hm : m % n = 0) (ha : a < 8 * n * (m / n * 8)) :
    ∃ t x y, t < m ∧ x < 8 ∧ y < 8 ∧ gridAddress (8 * n) n t x y = a := by
  have hX : a % (8 * n) < 8 * n := Nat.mod_lt _ (by omega)
  have hY : a / (8 * n) < m / n * 8 := Nat.div_lt_of_lt_mul ha
  exact ⟨_, _, _, tile_lt_of_position hm hX hY, Nat.mod_lt _ (by decide), Nat.mod_lt _ (by decide),
    (gridAddress_of_position hX).trans (Nat.div_add_mod' _ _)⟩

/-- Settles O35: the placement addresses are in range, reach every element, and differ. -/
theorem gridCoveredOnce : Obligations.GridCoveredOnce := fun _ _ hn hm =>
  ⟨fun _ _ _ ht hx hy => gridAddress_lt hn hm ht hx hy, fun _ ha => exists_gridAddress_eq hn hm ha,
    fun _ _ _ _ _ _ hx hy hx' hy' e => gridAddress_injective hn hx hy hx' hy' e⟩

/-! ### The grid of a complete run -/

/-- The reference accepts the layout of an assembling run, with the height that GRIDCHK computed. -/
theorem Assembling.assembleHeight_eq (h : Assembling s) :
    assembleHeight (tileCount s) s.widthReg = .ok s.height := by
  have hw : ¬(s.widthReg = 0 ∨ s.widthReg % 8 ≠ 0) := not_or.mpr ⟨h.width_pos.ne', not_not.mpr h.width_mod⟩
  rw [assembleHeight, ← h.tilesPerRow_eq, if_neg hw, if_neg (not_not.mpr h.divides), ← h.height_eq]

/-- Settles O53: in DONE every tile is placed, and each element of the grid is the reference's pixel. -/
theorem doneGridIsImage : Obligations.DoneGridIsImage := by
  intro s hrun hout hp hm
  obtain ⟨ha, hall⟩ := ((runInv_iff_of_done hp).mp hrun).raster hm
  obtain ⟨hpxs, hgrid⟩ := ((outputInv_iff_of_done hp).mp hout).2 hm
  exact ⟨ha.assembleHeight_eq, ha.gridSize, fun _ _ hX hY => ha.grid_pixel hall hpxs hgrid hX hY⟩

end Sys2Proof.Machine
end

section
/-! SUPPORT. The Palette Expander, the companion unit (44_palette_expander.md R210 to R213): the two-bit channel, the colour that
PALX stores and the entries it leaves, stores to different entries in either order, and the named block's silence about both
palette memories. -/

namespace Sys2Proof.Machine

open Host (Outcome)

variable {s t : State}

/-! ### The channel -/

theorem extendChannel_eq_or (v : BitVec 2) :
    extendChannel v = v.setWidth 8 ||| v.setWidth 8 <<< 2 ||| v.setWidth 8 <<< 4 ||| v.setWidth 8 <<< 6 := by
  rw [extendChannel, BitVec.shiftLeft_or_distrib, ← BitVec.shiftLeft_add, ← BitVec.or_assoc]

theorem toNat_extendChannel (v : BitVec 2) : (extendChannel v).toNat = v.toNat * 0x55 := by
  revert v
  decide

theorem toNat_extendChannel_field (b : Byte) (i : Nat) :
    (extendChannel (b.extractLsb' i 2)).toNat = b.toNat / 2 ^ i % 4 * 0x55 := by
  rw [toNat_extendChannel, BitVec.extractLsb'_toNat, Nat.shiftRight_eq_div_pow]

/-! ### PALX stores one colour -/

theorem execPalx_of_inside {k : Nat} (hk : k < s.palIn.size) (b : Byte) :
    execPalx k b s = .next (storeColour k (expandByte b) s) := if_pos hk

theorem cellGet_storeColour_same (k : Nat) (c : Rgb) (s : State) : cellGet (storeColour k c s).palOut.cells k = some c :=
  cellGet_cellPut_same _ _ _

theorem cellGet_storeColour_other {j k : Nat} (c : Rgb) (s : State) (h : j ≠ k) :
    cellGet (storeColour k c s).palOut.cells j = cellGet s.palOut.cells j :=
  cellGet_cellPut_other _ _ h

/-- Settles O37: PALX is enabled and stores one entry, and the step of the oldest request is PALX on the byte it names. -/
theorem palxExpandsByte : Obligations.PalxExpandsByte := by
  refine ⟨fun s k b hk => ?_, fun s k cs hp => step_of_pending_cons hp⟩
  exact ⟨_, _, execPalx_of_inside hk b, cellGet_storeColour_same _ _ _, rfl, rfl, rfl,
    fun j hj => cellGet_storeColour_other _ _ hj, bufPutAll_size _ _, rfl⟩

/-- Settles O38: the two forms of `extend` agree, and each channel is a field of the byte, a quotient modulo 4. -/
theorem extendReplicates : Obligations.ExtendReplicates := by
  refine ⟨fun v => ⟨extendChannel_eq_or v, toNat_extendChannel v⟩, by decide, fun s k b hk => ?_⟩
  refine ⟨_, _, execPalx_of_inside hk b, cellGet_storeColour_same _ _ _, ?_, ?_, ?_⟩
  · exact (toNat_extendChannel_field b 0).trans (by rw [Nat.pow_zero, Nat.div_one])
  · exact toNat_extendChannel_field b 2
  · exact toNat_extendChannel_field b 4

/-! ### Two entries in either order -/

section cells

variable {α : Type} {a b : Nat}

theorem cellPut_cons_of_lt (h : a < b) (u v : α) (m : List (Nat × α)) :
    cellPut ((b, u) :: m) a v = (a, v) :: (b, u) :: m := if_pos h

theorem cellPut_cons_self (a : Nat) (u v : α) (m : List (Nat × α)) : cellPut ((a, u) :: m) a v = (a, v) :: m := by
  simp [cellPut]

theorem cellPut_cons_of_gt (h : b < a) (u v : α) (m : List (Nat × α)) :
    cellPut ((b, u) :: m) a v = (b, u) :: cellPut m a v := by
  simp [cellPut, h.ne', Nat.lt_asymm h]

theorem cellPut_comm_of_lt {c : Nat} (m : List (Nat × α)) (v w : α) (h : a < c) :
    cellPut (cellPut m a v) c w = cellPut (cellPut m c w) a v := by
  induction m with
  | nil => exact (cellPut_cons_of_gt h ..).trans (cellPut_cons_of_lt h ..).symm
  | cons p m ih =>
    obtain ⟨b, u⟩ := p
    rcases Nat.lt_trichotomy a b with hab | rfl | hba
    · rw [cellPut_cons_of_lt hab, cellPut_cons_of_gt h]
      rcases Nat.lt_trichotomy c b with hcb | rfl | hbc
      · rw [cellPut_cons_of_lt hcb, cellPut_cons_of_lt h]
      · rw [cellPut_cons_self, cellPut_cons_of_lt h]
      · rw [cellPut_cons_of_gt hbc, cellPut_cons_of_lt hab]
    · rw [cellPut_cons_self, cellPut_cons_of_gt h, cellPut_cons_of_gt h, cellPut_cons_self]
    · have hbc : b < c := hba.trans h
      rw [cellPut_cons_of_gt hba, cellPut_cons_of_gt hbc, cellPut_cons_of_gt hbc, cellPut_cons_of_gt hba, ih]

/-- Elements put at different addresses give the same list, whichever is put first. -/
theorem cellPut_comm {c : Nat} (m : List (Nat × α)) (v w : α) (h : a ≠ c) :
    cellPut (cellPut m a v) c w = cellPut (cellPut m c w) a v := by
  rcases Nat.lt_or_gt_of_ne h with h | h
  · exact cellPut_comm_of_lt m v w h
  · exact (cellPut_comm_of_lt m w v h).symm

end cells

theorem storeColour_comm {j k : Nat} (h : j ≠ k) (c d : Rgb) (s : State) :
    storeColour k d (storeColour j c s) = storeColour j c (storeColour k d s) := by
  simp [storeColour, cellPut_comm s.palOut.cells c d h]

/-- Settles O39: both requests are inside the palette in either order, and their stores commute. -/
theorem paletteOrderFree : Obligations.PaletteOrderFree := by
  intro s j k b c _ hne hj hk
  refine ⟨_, _, _, execPalx_of_inside hj b, execPalx_of_inside (s := storeColour ..) hk c, execPalx_of_inside hk c, ?_⟩
  rw [storeColour_comm hne]
  exact execPalx_of_inside (s := storeColour ..) hj b

/-! ### The named block leaves the palette memories -/

/-- `t` has the palette memories of `s`. -/
def SamePalette (s t : State) : Prop := t.palIn = s.palIn ∧ t.palOut = s.palOut

theorem samePalette_execStart {m : Mode} {w : Nat} (h : execStart m w s = .next t) : SamePalette s t := by
  rcases execStart_next h with ⟨_, rfl⟩ | ⟨_, rfl⟩
  · exact ⟨rfl, rfl⟩
  · rcases headerFromWindow_cases (latchInputs m w s) with ⟨_, _, e⟩ | ⟨_, _, _, e⟩ <;> rw [e] <;> exact ⟨rfl, rfl⟩

theorem samePalette_execHdr {hd : Header} (h : execHdr hd s = .next t) : SamePalette s t := by
  obtain ⟨_, rfl⟩ := execHdr_next h
  rcases parseHeader_cases hd s with ⟨_, e⟩ | ⟨_, _, e⟩ | ⟨_, _, _, e⟩ | ⟨_, _, _, e⟩ <;> rw [e] <;> exact ⟨rfl, rfl⟩

theorem samePalette_execCtrl {c : Byte} (h : execCtrl c s = .next t) : SamePalette s t := by
  obtain ⟨_, _, _, ⟨_, rfl⟩ | ⟨_, rfl⟩⟩ := execCtrl_next h <;> exact ⟨rfl, rfl⟩

theorem samePalette_execRaw (h : execRaw s = .next t) : SamePalette s t := by
  obtain ⟨_, _, ⟨_, rfl⟩ | ⟨_, rfl⟩⟩ := execRaw_next h <;> exact ⟨rfl, rfl⟩

theorem samePalette_duplicateRow (index n : Nat) (s : State) : SamePalette s (settle s (duplicateRow index n s)) := by
  rcases duplicateRow_cases index n s with ⟨_, e⟩ | ⟨_, e⟩ <;> rw [e] <;> exact ⟨rfl, rfl⟩

theorem samePalette_execDup1 {index : Byte} (h : execDup1 index s = .next t) : SamePalette s t := by
  obtain ⟨_, _, ⟨_, rfl⟩ | ⟨_, rfl⟩⟩ := execDup1_next h
  · exact ⟨rfl, rfl⟩
  · exact samePalette_duplicateRow _ _ _

theorem samePalette_execDup2 {index : BitVec 12} (h : execDup2 index s = .next t) : SamePalette s t := by
  obtain ⟨_, _, ⟨_, rfl⟩ | ⟨_, rfl⟩ | ⟨_, rfl⟩⟩ := execDup2_next h
  · exact ⟨rfl, rfl⟩
  · exact ⟨rfl, rfl⟩
  · exact samePalette_duplicateRow _ _ _

theorem samePalette_execFin (h : execFin s = .next t) : SamePalette s t := by
  obtain ⟨_, _, ⟨_, rfl⟩ | ⟨_, rfl⟩⟩ := execFin_next h <;> exact ⟨rfl, rfl⟩

theorem samePalette_execGridchk (h : execGridchk s = .next t) : SamePalette s t := by
  obtain ⟨_, _, rfl⟩ := execGridchk_next h
  rcases checkLayout_cases s with ⟨_, e⟩ | ⟨_, _, _, e⟩ | ⟨_, _, _, e⟩ <;> rw [e] <;> exact ⟨rfl, rfl⟩

/-- Settles O40: an operation of the named block writes registers and output memories, or raises a fault. -/
theorem paletteIsApart : Obligations.PaletteIsApart := by
  intro i s t h hi
  cases i with
  | start m w => exact samePalette_execStart h
  | reset =>
    rw [execReset_next h]
    exact ⟨rfl, rfl⟩
  | hdr hd => exact samePalette_execHdr h
  | ctrl c => exact samePalette_execCtrl h
  | raw => exact samePalette_execRaw h
  | dup1 index => exact samePalette_execDup1 h
  | dup2 index => exact samePalette_execDup2 h
  | fin => exact samePalette_execFin h
  | p2c row =>
    obtain ⟨_, _, rfl⟩ := execP2c_next h
    exact ⟨rfl, rfl⟩
  | gridchk => exact samePalette_execGridchk h
  | place =>
    obtain ⟨_, _, _, rfl⟩ := execPlace_next h
    exact ⟨rfl, rfl⟩
  | afin =>
    obtain ⟨_, _, rfl⟩ := execAfin_next h
    exact ⟨rfl, rfl⟩
  | palx k b => exact absurd rfl (hi k b)

end Sys2Proof.Machine
end

section
/-! SUPPORT. The faults (60_exceptions.md R221 to R230): the numbers the host reads, the row faults in the order of their
accesses, what any operation does with the fault record and the phase, and the phases in which nothing runs. -/

namespace Sys2Proof.Machine

variable {s t : State}

/-! ### The table of fault kinds and causes -/

/-- The table of R224: each cause, the number of its kind, and its own number within the kind. -/
def faultTable : List (ErrCause × Nat × Nat) :=
  [(.badMagic, 1, 1), (.boundsHeader, 2, 1), (.boundsCtrl, 2, 2), (.boundsRawRow, 2, 3), (.boundsIndex, 2, 4),
    (.boundsIndex2, 2, 5), (.boundsDupRow, 2, 6), (.partialTile, 2, 7), (.badWidth, 3, 1), (.tilesNotDivisible, 3, 2)]

theorem mem_faultTable {c : ErrCause} (h : c ≠ .none) :
    (c, errCodeNumber (errCodeOf c), errCauseNumber c) ∈ faultTable := by
  cases c with
  | none => exact absurd rfl h
  | _ => decide

theorem errCodeOf_eq_formatError_iff (c : ErrCause) : errCodeOf c = .formatError ↔ c = .badMagic := by
  cases c <;> decide

/-- Settles O60: the record names a cause and its kind, whose numbers the two ports deliver in FAULT. -/
theorem faultNumbers : Obligations.FaultNumbers := by
  intro s n hp ⟨hcode, hcause⟩
  refine ⟨_, mem_faultTable (hcause.mp hp), rfl, ?_, ?_⟩
  · rw [hostRead_of_meaningful ((meaningful_record_iff (by simp)).mpr hp), portValue, hcode]
  · rw [hostRead_of_meaningful ((meaningful_record_iff (by simp)).mpr hp), portValue]

/-! ### The row faults, access by access -/

theorem execCtrl_of_lt (he : ctrlEnabled s = true) (hw : s.win.size < s.bsCur + 1) (c : Byte) :
    execCtrl c s = .next (raiseFault ⟨.boundsCtrl, s.bsCur⟩ s) := by
  rw [execCtrl, if_pos he, checkBounds_of_lt hw]
  rfl

theorem execRaw_of_lt (he : rowEnabled s = true) (hw : s.win.size < s.artCur + 4) :
    execRaw s = .next (raiseFault ⟨.boundsRawRow, s.artCur⟩ s) := by
  rw [execRaw, if_pos he, rawAddress, readRow_of_lt hw]
  rfl

theorem duplicateRow_of_lt {index : Nat} (hw : s.win.size < dupAddress s index + 4) (n : Nat) :
    duplicateRow index n s = .error ⟨.boundsDupRow, dupAddress s index⟩ := by
  rw [duplicateRow, readRow_of_lt hw]

theorem execDup1_without_index (he : rowEnabled s = true) (hw : s.win.size < s.dupCur + 1) (index : Byte) :
    execDup1 index s = .next (raiseFault ⟨.boundsIndex, s.dupCur⟩ s) := by
  rw [execDup1, if_pos he, checkBounds_of_lt hw]
  rfl

theorem execDup2_without_index (he : rowEnabled s = true) (hw : s.win.size < s.dupCur + 1) (index : BitVec 12) :
    execDup2 index s = .next (raiseFault ⟨.boundsIndex, s.dupCur⟩ s) := by
  rw [execDup2, if_pos he, checkBounds_of_lt hw]
  rfl

theorem execDup2_without_second_index (he : rowEnabled s = true) (hw : s.win.size = s.dupCur + 1)
    (index : BitVec 12) : execDup2 index s = .next (raiseFault ⟨.boundsIndex2, s.dupCur + 1⟩ s) := by
  rw [execDup2, if_pos he, checkBounds_of_le hw.ge]
  simp only [checkBounds_of_lt (show s.win.size < s.dupCur + 1 + 1 by omega)]
  rfl

/-- Settles O23: the operation is enabled, and the first of its accesses that the window does not hold gives the fault. -/
theorem rowFaultsInOrder : Obligations.RowFaultsInOrder := by
  intro s c index index2 hp hr
  have he : rowEnabled s = true := rowEnabled_iff.mpr ⟨hp, hr⟩
  refine ⟨fun hb hw => ?_, fun hw => ?_, fun hw => ⟨?_, ?_⟩, fun hindex hrow => ?_, fun hw => ?_, fun hindex hrow => ?_⟩
  · exact execCtrl_of_lt (ctrlEnabled_iff.mpr ⟨hp, hr, hb⟩) hw c
  · exact execRaw_of_lt he hw
  · exact execDup1_without_index he hw index
  · exact execDup2_without_index he hw index2
  · refine (execDup1_of_le he hindex index).trans ?_
    rw [duplicateRow_of_lt hrow]
    rfl
  · exact execDup2_without_second_index he hw index2
  · refine (execDup2_of_le he hindex index2).trans ?_
    rw [duplicateRow_of_lt hrow]
    rfl

/-! ### What an operation does with the fault record and the phase -/

/-- The operation is the header step on a header whose marker is not `MAGIC` (40 R121). -/
def WrongMarker (i : Instr) (s : State) : Prop :=
  (∃ h, i = .hdr h ∧ h.magic ≠ s.magic) ∨ (∃ m w, i = .start m w ∧ refHalf (inByte s) 0 ≠ s.magic.toNat)

/-- An operation ends in fault entry, with BAD_MAGIC for a wrong marker only, or it does not enter FAULT and records no
cause of its own. -/
inductive Executed (i : Instr) (s : State) : State → Prop where
  | fault (e : Raise) (cause : e.cause ≠ .none) (marker : e.cause = .badMagic → WrongMarker i s) :
      Executed i s (raiseFault e s)
  | quiet (t : State) (phase : t.phase = .fault → s.phase = .fault)
      (record : t.errCause = s.errCause ∨ t.errCause = .none) : Executed i s t

theorem executed_start {m : Mode} {w : Nat} (h : execStart m w s = .next t) : Executed (.start m w) s t := by
  rcases execStart_next h with ⟨_, rfl⟩ | ⟨_, rfl⟩
  · exact .quiet _ id (.inl rfl)
  · rw [headerFromWindow_eq_parseHeader, windowHeader_latchInputs]
    rcases parseHeader_cases (windowHeader s) (latchInputs m w s) with
      ⟨_, e⟩ | ⟨_, hm, e⟩ | ⟨_, _, _, e⟩ | ⟨_, _, _, e⟩ <;> rw [e]
    · exact .fault _ nofun nofun
    · exact .fault _ nofun fun _ => .inr ⟨m, w, rfl, mt (windowHeader_magic_eq_iff s).mpr hm⟩
    · exact .fault _ nofun nofun
    · exact .quiet _ nofun (.inr rfl)

theorem executed_hdr {hd : Header} (h : execHdr hd s = .next t) : Executed (.hdr hd) s t := by
  obtain ⟨_, rfl⟩ := execHdr_next h
  rcases parseHeader_cases hd s with ⟨_, e⟩ | ⟨_, hm, e⟩ | ⟨_, _, _, e⟩ | ⟨_, _, _, e⟩ <;> rw [e]
  · exact .fault _ nofun nofun
  · exact .fault _ nofun fun _ => .inl ⟨hd, rfl, hm⟩
  · exact .fault _ nofun nofun
  · exact .quiet _ nofun (.inl rfl)

theorem executed_duplicateRow (i : Instr) (index n : Nat) (s : State) :
    Executed i s (settle s (duplicateRow index n s)) := by
  rcases duplicateRow_cases index n s with ⟨_, e⟩ | ⟨_, e⟩ <;> rw [e]
  · exact .quiet _ id (.inl rfl)
  · exact .fault _ nofun nofun

theorem executed_gridchk (h : execGridchk s = .next t) : Executed .gridchk s t := by
  obtain ⟨_, _, rfl⟩ := execGridchk_next h
  rcases checkLayout_cases s with ⟨_, e⟩ | ⟨_, _, _, e⟩ | ⟨_, _, _, e⟩ <;> rw [e]
  · exact .fault _ nofun nofun
  · exact .fault _ nofun nofun
  · exact .quiet _ nofun (.inl rfl)

theorem executed_of_exec {i : Instr} (h : exec i s = .next t) : Executed i s t := by
  cases i with
  | start m w => exact executed_start h
  | reset =>
    rw [execReset_next h]
    exact .quiet _ nofun (.inr rfl)
  | hdr hd => exact executed_hdr h
  | ctrl c =>
    obtain ⟨_, _, _, ⟨_, rfl⟩ | ⟨_, rfl⟩⟩ := execCtrl_next h
    · exact .quiet _ id (.inl rfl)
    · exact .fault _ nofun nofun
  | raw =>
    obtain ⟨_, _, ⟨_, rfl⟩ | ⟨_, rfl⟩⟩ := execRaw_next h
    · exact .quiet _ id (.inl rfl)
    · exact .fault _ nofun nofun
  | dup1 index =>
    obtain ⟨_, _, ⟨_, rfl⟩ | ⟨_, rfl⟩⟩ := execDup1_next h
    · exact .fault _ nofun nofun
    · exact executed_duplicateRow _ _ _ s
  | dup2 index =>
    obtain ⟨_, _, ⟨_, rfl⟩ | ⟨_, rfl⟩ | ⟨_, rfl⟩⟩ := execDup2_next h
    · exact .fault _ nofun nofun
    · exact .fault _ nofun nofun
    · exact executed_duplicateRow _ _ _ s
  | fin => obtain ⟨_, _, ⟨_, rfl⟩ | ⟨_, rfl⟩⟩ := execFin_next h <;> exact .quiet _ nofun (.inl rfl)
  | p2c row =>
    obtain ⟨_, _, rfl⟩ := execP2c_next h
    exact .quiet _ id (.inl rfl)
  | gridchk => exact executed_gridchk h
  | place =>
    obtain ⟨_, _, _, rfl⟩ := execPlace_next h
    exact .quiet _ id (.inl rfl)
  | afin =>
    obtain ⟨_, _, rfl⟩ := execAfin_next h
    exact .quiet _ nofun (.inl rfl)
  | palx k b =>
    obtain ⟨_, rfl⟩ := execPalx_next h
    exact .quiet _ id (.inl rfl)

/-- Settles O24: of what an operation can do only fault entry leads to FAULT. -/
theorem faultEntryIsPrecise : Obligations.FaultEntryIsPrecise := by
  intro i s t hs h ht
  cases executed_of_exec h with
  | fault e cause _ => exact ⟨cause, rfl, rfl⟩
  | quiet _ phase _ => exact absurd (phase ht) hs

/-! ### FormatError -/

/-- START on the right marker accepts the header, or raises one of the header's other two faults. -/
theorem errCode_ne_formatError_of_right_marker {m : Mode} {w : Nat} (hb : busy s = false)
    (hm : refHalf (inByte s) 0 = s.magic.toNat) (h : exec (.start m w) s = .next t) : t.errCode ≠ .formatError := by
  rw [exec_start_of_rest hb] at h
  cases h
  rcases parseHeader_cases (windowHeader s) (latchInputs m w s) with
    ⟨_, e⟩ | ⟨_, hm', _⟩ | ⟨_, _, _, e⟩ | ⟨_, _, _, e⟩
  · rw [e]
    nofun
  · exact absurd ((windowHeader_magic_eq_iff s).mpr hm) hm'
  · rw [e]
    nofun
  · rw [e]
    nofun

/-- Settles O15: an operation that newly records BAD_MAGIC raised it, so it is the header step on a wrong marker; what
START does on each marker is the order of the header's faults (O14). -/
theorem badMagicIsFormatError : Obligations.BadMagicIsFormatError := by
  refine ⟨errCodeOf_eq_formatError_iff, fun i s t h hs ht => ?recorded, fun s m w hb hw hm => ?wrong,
    fun _ _ _ _ => errCode_ne_formatError_of_right_marker⟩
  case recorded =>
    cases executed_of_exec h with
    | fault e _ marker => exact marker ht
    | quiet _ _ record =>
      rcases record with hsame | hnone
      · exact absurd (hsame.symm.trans ht) hs
      · cases hnone.symm.trans ht
  case wrong => exact ((headerFaultsInOrder s m w (windowHeader s) hb).2 hw).1 hm

/-! ### The phases in which nothing runs -/

/-- The guard of an operation of a run names one phase, and fails in every other (log 7). -/
theorem guard_fails_of_phase_ne {p : Phase} {P : Prop} [Decidable P] (h : s.phase ≠ p) :
    ¬ decide (s.phase = p ∧ P) = true := by simp [h]

/-- Settles O26: the three phases are those that are not busy, and none is the phase of an operation of a run. -/
theorem nothingRunsAtRest : Obligations.NothingRunsAtRest := by
  refine ⟨fun s hpend hp => ?_, fun s c b x r hp i hi => ?_⟩
  · have hb : busy s = false := by rcases hp with hp | hp | hp <;> rw [busy, hp]
    rw [step_of_pending_nil hpend, internalStep_of_rest hb]
  · simp only [List.mem_cons, List.not_mem_nil, or_false] at hi
    rcases hi with rfl | rfl | rfl | rfl | rfl | rfl | rfl | rfl | rfl <;>
      exact ⟨_, if_neg (guard_fails_of_phase_ne (by rw [hp]; nofun))⟩

end Sys2Proof.Machine
end

section
/-! SUPPORT. Progress and reset (70_reset_and_hazards.md R260 to R264, R274): the steps left measure a run that is never stuck,
a command is the next step, and RESET clears the named block. -/

namespace Sys2Proof.Machine

variable {s t : State}

/-! ### Every run ends -/

/-- Settles O49: with no command waiting the step is the one the invariant leaves no state to be stuck in. -/
theorem hardwareNeverStuck : Obligations.HardwareNeverStuck := by
  intro s h hpend
  rw [step_of_pending_nil hpend]
  exact h.internalStep_completes

theorem stepsLeft_pos_iff (s : State) : 0 < stepsLeft s ↔ busy s = true := by
  cases hp : s.phase with
  | decode => cases hm : s.modeReg <;> simp [stepsLeft, busy, hp, hm]
  | idle | convert | assemble | done | fault => simp [stepsLeft, busy, hp]

theorem stepsLeft_eq_zero_iff (s : State) : stepsLeft s = 0 ↔ busy s = false := by
  rw [← Nat.le_zero, ← Nat.not_lt, stepsLeft_pos_iff, Bool.not_eq_true]

/-- A step of the hardware takes at least one of those left, if there are any: one that faults takes them all. -/
theorem stepsLeft_le_pred_of_internalStep (h : internalStep s = .next t) : stepsLeft t ≤ stepsLeft s - 1 := by
  cases hb : busy s with
  | false =>
    rw [internalStep_of_rest hb] at h
    cases h
    rw [(stepsLeft_eq_zero_iff s).mpr hb]
  | true =>
    by_cases ht : t.phase = .fault
    · have hzero : stepsLeft t = 0 := by rw [stepsLeft, ht]
      omega
    · have := (internalStep_next h).stepsLeft_succ hb ht
      omega

/-- Settles O51, by induction on the number of steps: each step keeps the invariant and takes one of those left. -/
theorem runEnds : Obligations.RunEnds := by
  intro s n h hpend hn
  induction n generalizing s with
  | zero => exact ⟨s, rfl, (stepsLeft_eq_zero_iff s).mp (Nat.le_zero.mp hn)⟩
  | succ n ih =>
    obtain ⟨u, hu⟩ := hardwareNeverStuck s h hpend
    have hmove : internalStep s = .next u := (step_of_pending_nil hpend).symm.trans hu
    have m := internalStep_next hmove
    have hleft : stepsLeft u ≤ n := (stepsLeft_le_pred_of_internalStep hmove).trans (Nat.sub_le_of_le_add hn)
    rw [run_succ_of_step hu]
    exact ih u (h.moved m) (m.pending_eq.trans hpend) hleft

/-! ### Commands and RESET -/

/-- Settles O9: the oldest command is taken from the queue, and taking it is the operation it names. -/
theorem stepTakesCommand : Obligations.StepTakesCommand := fun _ _ =>
  ⟨fun _ _ => step_of_pending_cons, step_of_pending_cons, fun _ => step_of_pending_cons⟩

theorem exec_reset (s : State) : exec .reset s = .next (clearRegisters s) := rfl

@[simp] theorem Buffer.empty_size (α : Type) : (Buffer.empty : Buffer α).size = 0 := rfl

/-- Settles O17: RESET is `clearRegisters`, whose fields are the laws of that update. -/
theorem resetClearsRegisters : Obligations.ResetClearsRegisters := by
  intro s
  exact ⟨clearRegisters s, exec_reset s, by simp⟩

/-- The fields that RESET keeps are all that tells the state it leaves from the state after reset. -/
theorem clearRegisters_eq_reset (hwin : s.win = State.reset.win) (hmagic : s.magic = State.reset.magic)
    (hpend : s.pending = State.reset.pending) (hin : s.palIn = State.reset.palIn)
    (hout : s.palOut = State.reset.palOut) : clearRegisters s = State.reset := by
  rw [clearRegisters, hwin, hmagic, hpend, hin, hout]

/-- Settles O18: the values are those `State.reset` is written with, and RESET leads to it from a state with its inputs. -/
theorem resetStateValues : Obligations.ResetStateValues := by
  refine ⟨rfl, rfl, rfl, rfl, rfl, rfl, rfl, rfl, rfl, rfl, rfl, rfl, rfl, rfl, fun s hwin hmagic hpend hin hout => ?_⟩
  rw [exec_reset, clearRegisters_eq_reset hwin hmagic hpend hin hout]

end Sys2Proof.Machine
end
